-- ==== Sys2Proof/Word.lean ====
section
/-! DEFINITION. The word types of the machine (spec 00 R9 to R11): 32-bit words, bytes, 8-bit loop counters, and the
size of the device-visible address space (10_state R44). -/
namespace Sys2Proof

/-- A 32-bit register or immediate (R28, R51). -/
abbrev Word := BitVec 32

/-- One byte of a program, of memory or of a loop counter (R29, R42). -/
abbrev Byte := BitVec 8

/-- Number of device-visible byte addresses, 2^32 (R44, R213). -/
abbrev addrSpace : Nat := 4294967296

end Sys2Proof
end

