-- ==== Sys2Proof/Config.lean ====
section
/-! DEFINITION. What an implementation fixes (spec 00 R9: the parameter record) and the free values of the model. -/
namespace Sys2Proof

/-- `BJUMP_ORIGIN`: the point a DMALPEND backward jump is measured from (R9, D5, U1). -/
inductive BjumpOrigin
  | afterLpend
  | atLpend
  deriving DecidableEq, Repr

/-- What an address is accepted for by `ADDR_ALIGN_OK(addr, purpose)` (R53, R213). -/
inductive Purpose
  | fetch
  | load
  | store
  deriving DecidableEq, Repr

/-- One refusal of `ADDR_ALIGN_OK`: addresses that leave `residue` modulo `modulus` are not accepted for `purpose`.
A finite list of these expresses every predicate on 32-bit addresses (log 22). -/
structure AddrRule where
  purpose : Purpose
  modulus : Nat
  residue : Nat
  deriving DecidableEq, Repr

/-- A run of `size` addresses from `base`. -/
structure AddrRange where
  base : Nat
  size : Nat
  deriving DecidableEq, Repr

/-- `OPC` (R9, R72; U2, U3): byte 0 of each opcode with every selector bit 0, then where the selector bits stand and the
codes they take. -/
structure Opc where
  fin       : Byte
  ld        : Byte
  st        : Byte
  rmb       : Byte
  wmb       : Byte
  lp        : Byte
  sev       : Byte
  lpend     : Byte
  go        : Byte
  mov       : Byte
  /-- Bit of byte 0 that selects LC1 in DMALP, in DMALPEND (R71). -/
  lpLoop    : Nat
  lpendLoop : Nat
  /-- The qualifier bits (B, X) as they stand in byte 0 of DMALPEND (R73). -/
  always    : Byte
  single    : Byte
  burst     : Byte
  /-- Bit of byte 0 that selects a non-secure channel thread in DMAGO (R75). -/
  goNs      : Nat
  /-- Byte 1 of DMAMOV (R74). -/
  sar       : Byte
  ccr       : Byte
  dar       : Byte
  deriving DecidableEq, Repr

/-- A field of a 32-bit register: `len` bits from bit `lo` up. -/
structure BitField where
  lo  : Nat
  len : Nat
  deriving DecidableEq, Repr

/-- `CCR_LAYOUT` (R9, R131; U4). -/
structure CcrLayout where
  srcInc   : BitField
  srcSize  : BitField
  srcLen   : BitField
  srcProt  : BitField
  srcCache : BitField
  dstInc   : BitField
  dstSize  : BitField
  dstLen   : BitField
  dstProt  : BitField
  dstCache : BitField
  endian   : BitField
  deriving DecidableEq, Repr

/-- `REG_OFF` (R9, R35; U5): offsets in the register window, and as parts of the same parameter the fields of its
registers (R36 to R39). -/
structure RegMap where
  dbgstatus : Nat
  dbgcmd    : Nat
  dbginst0  : Nat
  dbginst1  : Nat
  inten     : Nat
  /-- DBGSTATUS: the busy bit (R36). -/
  busyBit   : Nat
  /-- DBGCMD: the command, and its code for "execute" (R37). -/
  command   : BitField
  execute   : Nat
  /-- DBGINST0: the thread select bit, the debug channel, instruction bytes 0 and 1 (R38). -/
  threadBit : Nat
  channel   : BitField
  byte0     : BitField
  byte1     : BitField
  /-- DBGINST1: instruction bytes 2 to 5 (R39). -/
  byte2     : BitField
  byte3     : BitField
  byte4     : BitField
  byte5     : BitField
  deriving DecidableEq, Repr

/-- The parameter record of R9, as far as the source or the platform leaves a value open; the values the spec takes are
`Params.spec` (Machine/Parameters.lean). `BUF_CAP` is an argument of the operation that is handed the buffer;
`MAKE_VISIBLE` is a host operation; `FULL` and `LOOP_MAX` are fixed (Machine/Decompose.lean). -/
structure Params where
  maxBurstSize    : Nat
  maxBurstLen     : Nat
  nChannels       : Nat
  completionEvent : Nat
  defaultProt     : Nat
  defaultCache    : Nat
  bjumpOrigin     : BjumpOrigin
  opc             : Opc
  regs            : RegMap
  ccrLayout       : CcrLayout
  mfifoBytes      : Nat
  /-- `ADDR_ALIGN_OK`, as what it refuses (D44). -/
  refusedAddrs    : List AddrRule
  /-- Addresses whose access is a bus error of the controller (R246). -/
  busErrors       : List AddrRange
  /-- A non-secure controller refuses a secure DMAGO (R189, R246). -/
  refuseSecureGo  : Bool
  deriving DecidableEq, Repr

/-- Free value: what the controller agent answers, or leaves in a register whose contents the spec does not give, at its
n-th draw (R46, U14, U31; log 5, log 11, log 21). It has no body, so no proof can know a value of it. -/
opaque Config.freeWord : Nat → Word

/-- Free values: the quotient and the remainder of a transfer size by a burst of 0 bytes, which no check of the engine
called by itself excludes and for which the spec states no result (R151, R153; log 20). -/
opaque Config.divByZero : Nat → Nat
opaque Config.modByZero : Nat → Nat

end Sys2Proof
end

