-- ==== Sys2Proof/Syntax.lean ====
section
/-! DEFINITION. The instructions of the subset (spec 30 R70, R71; opcode_table.json): one constructor per row, and the
spec's own assembler text (R80). -/
namespace Sys2Proof

/-- A loop counter register (R29): LC0 is the inner, LC1 the outer one. -/
inductive LoopReg
  | lc0
  | lc1
  deriving DecidableEq, Repr

/-- The three targets of DMAMOV (R74). -/
inductive MovReg
  | sar
  | ccr
  | dar
  deriving DecidableEq, Repr

/-- The twelve rows of the opcode table. Numbers are the decoded operands of R79. -/
inductive Instr
  | dmaend
  | dmald
  | dmast
  | dmarmb
  | dmawmb
  | dmalp (lc : LoopReg) (count : Nat)
  | dmasev (event : Nat)
  | dmalpend (lc : LoopReg) (bjump : Nat)
  | dmalpends (lc : LoopReg) (bjump : Nat)
  | dmalpendb (lc : LoopReg) (bjump : Nat)
  | dmago (ns : Bool) (chan : Nat) (addr : Word)
  | dmamov (rd : MovReg) (imm : Word)
  deriving DecidableEq, Repr

def LoopReg.text : LoopReg → String
  | .lc0 => "LC0"
  | .lc1 => "LC1"

def MovReg.text : MovReg → String
  | .sar => "SAR"
  | .ccr => "CCR"
  | .dar => "DAR"

/-- The assembler syntax of R80, numbers in decimal. -/
def Instr.text : Instr → String
  | .dmaend => "DMAEND"
  | .dmald => "DMALD"
  | .dmast => "DMAST"
  | .dmarmb => "DMARMB"
  | .dmawmb => "DMAWMB"
  | .dmalp lc count => "DMALP " ++ lc.text ++ ", " ++ toString count
  | .dmasev event => "DMASEV " ++ toString event
  | .dmalpend lc bjump => "DMALPEND " ++ lc.text ++ ", " ++ toString bjump
  | .dmalpends lc bjump => "DMALPENDS " ++ lc.text ++ ", " ++ toString bjump
  | .dmalpendb lc bjump => "DMALPENDB " ++ lc.text ++ ", " ++ toString bjump
  | .dmago ns chan addr =>
    "DMAGO " ++ toString chan ++ ", " ++ toString addr.toNat ++ (if ns then ", ns" else "")
  | .dmamov rd imm => "DMAMOV " ++ rd.text ++ ", " ++ toString imm.toNat

end Sys2Proof
end

