-- ==== Sys2Proof/WellFormed.lean ====
section
/-! DEFINITION. Which instruction terms have an encoding (spec 30 R79): every operand fits its field. The encode
operations of Machine/Encoder.lean check more (R103: a backjump they write is at least 1; log 10). -/
namespace Sys2Proof

/-- Operand ranges of R79. -/
def Instr.wf : Instr → Bool
  | .dmaend => true
  | .dmald => true
  | .dmast => true
  | .dmarmb => true
  | .dmawmb => true
  | .dmalp _ count => decide (1 ≤ count ∧ count ≤ 256)
  | .dmasev event => decide (event ≤ 31)
  | .dmalpend _ bjump => decide (bjump ≤ 255)
  | .dmalpends _ bjump => decide (bjump ≤ 255)
  | .dmalpendb _ bjump => decide (bjump ≤ 255)
  | .dmago _ chan _ => decide (chan ≤ 7)
  | .dmamov _ _ => true

end Sys2Proof
end

