-- ==== Sys2Proof/Decode.lean ====
section
/-! DEFINITION. Decoding and encoding of instruction bytes (spec 30; fields of R71, R73, R74, R75; byte order of 20 R51),
for any opcode table `OPC`, and the table of R72. PRESUMED by the spec itself: its values are the PL330's (log 25). -/
namespace Sys2Proof

/-- The values of R71 to R75. -/
def Opc.spec : Opc where
  fin := 0x00
  ld := 0x04
  st := 0x08
  rmb := 0x12
  wmb := 0x13
  lp := 0x20
  sev := 0x34
  lpend := 0x38
  go := 0xA0
  mov := 0xBC
  lpLoop := 1
  lpendLoop := 2
  always := 0x00
  single := 0x01
  burst := 0x03
  goNs := 1
  sar := 0
  ccr := 1
  dar := 2

/-! ## Byte 0 -/

/-- The qualifiers of DMALPEND (R73). -/
inductive Qualifier
  | always
  | single
  | burst
  deriving DecidableEq, Repr

/-- What byte 0 says: the opcode with its selectors. -/
inductive Head
  | fin | ld | st | rmb | wmb
  | lp (lc : LoopReg)
  | sev
  | lpend (lc : LoopReg) (q : Qualifier)
  | go (ns : Bool)
  | mov
  deriving DecidableEq, Repr

/-- Every byte 0 of the subset (R72). -/
def Head.all : List Head :=
  [.fin, .ld, .st, .rmb, .wmb, .lp .lc0, .lp .lc1, .sev,
    .lpend .lc0 .always, .lpend .lc0 .single, .lpend .lc0 .burst,
    .lpend .lc1 .always, .lpend .lc1 .single, .lpend .lc1 .burst, .go false, .go true, .mov]

/-- 0 = LC0, 1 = LC1 (R79). -/
def loopRegCode : LoopReg → Byte
  | .lc0 => 0
  | .lc1 => 1

/-- The qualifier bits of a DMALPEND byte 0. -/
def Opc.qualifier (o : Opc) : Qualifier → Byte
  | .always => o.always
  | .single => o.single
  | .burst => o.burst

/-- Byte 0 (R71, R72). -/
def Opc.byte0 (o : Opc) : Head → Byte
  | .fin => o.fin
  | .ld => o.ld
  | .st => o.st
  | .rmb => o.rmb
  | .wmb => o.wmb
  | .lp lc => o.lp ||| (loopRegCode lc <<< o.lpLoop)
  | .sev => o.sev
  | .lpend lc q => o.lpend ||| (loopRegCode lc <<< o.lpendLoop) ||| o.qualifier q
  | .go ns => o.go ||| ((if ns then 1 else 0 : Byte) <<< o.goNs)
  | .mov => o.mov

/-- What a byte 0 says; none outside the subset (R78). -/
def Opc.headOf (o : Opc) (b0 : Byte) : Option Head := Head.all.find? fun h => o.byte0 h == b0

/-- The formats B1, B2, B6 (R70). -/
def Head.len : Head → Nat
  | .fin => 1
  | .ld => 1
  | .st => 1
  | .rmb => 1
  | .wmb => 1
  | .lp _ => 2
  | .sev => 2
  | .lpend _ _ => 2
  | .go _ => 6
  | .mov => 6

/-- Length of an instruction from its byte 0 (R76). -/
def instrLen (o : Opc) (b0 : Byte) : Option Nat := (o.headOf b0).map Head.len

/-- A table under which byte 0 alone selects the instruction (R72) and byte 1 of DMAMOV the register (R74). -/
abbrev Opc.legal (o : Opc) : Prop :=
  (Head.all.map o.byte0).Nodup ∧ [o.sar, o.ccr, o.dar].Nodup

/-! ## Byte 1 and the immediate -/

/-- DMAMOV byte 1 (R74). -/
def Opc.movCode (o : Opc) : MovReg → Byte
  | .sar => o.sar
  | .ccr => o.ccr
  | .dar => o.dar

/-- Other codes, and set reserved bits, are not in the subset (R74, R77). -/
def Opc.movRegOf (o : Opc) (b : Byte) : Option MovReg :=
  if b = o.sar then some .sar else if b = o.ccr then some .ccr else if b = o.dar then some .dar else none

/-- `le32(b0, b1, b2, b3) = b3 ‖ b2 ‖ b1 ‖ b0` (R12, R51). -/
def le32 (b0 b1 b2 b3 : Byte) : Word := b3 ++ b2 ++ b1 ++ b0

/-- `bytes_le32(v) = (v[7:0], v[15:8], v[23:16], v[31:24])`. -/
def bytesLe32 (v : Word) : List Byte :=
  [v.extractLsb' 0 8, v.extractLsb' 8 8, v.extractLsb' 16 8, v.extractLsb' 24 8]

/-! ## Decoding -/

/-- Why bytes are no instruction: `Undecodable(o, b0)` of R77, or there are too few of them. -/
inductive DecodeError
  | undecodable (b0 : Byte)
  | truncated
  deriving DecidableEq, Repr

/-- DMALPEND, DMALPENDS or DMALPENDB (R73). -/
def lpendInstr (lc : LoopReg) (q : Qualifier) (bjump : Nat) : Instr :=
  match q with
  | .always => .dmalpend lc bjump
  | .single => .dmalpends lc bjump
  | .burst => .dmalpendb lc bjump

/-- The instruction of a two-byte format (R71, R79). -/
def decodeB2 (h : Head) (b1 : Byte) : Option Instr :=
  match h with
  | .lp lc => some (.dmalp lc (b1.toNat + 1))
  | .lpend lc q => some (lpendInstr lc q b1.toNat)
  | .sev => if b1 &&& 0x07 = 0 then some (.dmasev (b1 >>> 3).toNat) else none
  | _ => none

/-- The instruction of a six-byte format (R71, R79). -/
def Opc.decodeB6 (o : Opc) (h : Head) (b1 : Byte) (imm : Word) : Option Instr :=
  match h with
  | .go ns => if b1 &&& 0xF8 = 0 then some (.dmago ns b1.toNat imm) else none
  | .mov => (o.movRegOf b1).map fun rd => .dmamov rd imm
  | _ => none

/-- The instruction of the one-byte format. -/
def decodeB1 (h : Head) : Option Instr :=
  match h with
  | .fin => some .dmaend
  | .ld => some .dmald
  | .st => some .dmast
  | .rmb => some .dmarmb
  | .wmb => some .dmawmb
  | _ => none

/-- What the fields said, or `Undecodable`, with the bytes that follow the instruction. -/
def decoded (b0 : Byte) (i : Option Instr) (rest : List Byte) : Except DecodeError (Instr × List Byte) :=
  match i with
  | some i => .ok (i, rest)
  | none => .error (.undecodable b0)

/-- `Decode` (R77): total on every byte sequence; byte 0 alone tells the instruction and its length (R72, R76). -/
def decode (o : Opc) : List Byte → Except DecodeError (Instr × List Byte)
  | [] => .error .truncated
  | b0 :: rest =>
    match o.headOf b0 with
    | none => .error (.undecodable b0)
    | some h =>
      if h.len = 1 then decoded b0 (decodeB1 h) rest
      else if h.len = 2 then
        match rest with
        | b1 :: rest => decoded b0 (decodeB2 h b1) rest
        | _ => .error .truncated
      else
        match rest with
        | b1 :: i0 :: i1 :: i2 :: i3 :: rest => decoded b0 (o.decodeB6 h b1 (le32 i0 i1 i2 i3)) rest
        | _ => .error .truncated

/-! ## Encoding -/

/-- Byte 0's opcode and selectors of an instruction. -/
def Instr.head : Instr → Head
  | .dmaend => .fin
  | .dmald => .ld
  | .dmast => .st
  | .dmarmb => .rmb
  | .dmawmb => .wmb
  | .dmalp lc _ => .lp lc
  | .dmasev _ => .sev
  | .dmalpend lc _ => .lpend lc .always
  | .dmalpends lc _ => .lpend lc .single
  | .dmalpendb lc _ => .lpend lc .burst
  | .dmago ns _ _ => .go ns
  | .dmamov _ _ => .mov

/-- The bytes behind byte 0 (R71, R79). -/
def Opc.operandBytes (o : Opc) : Instr → List Byte
  | .dmaend => []
  | .dmald => []
  | .dmast => []
  | .dmarmb => []
  | .dmawmb => []
  | .dmalp _ count => [BitVec.ofNat 8 (count - 1)]
  | .dmasev event => [BitVec.ofNat 8 event <<< 3]
  | .dmalpend _ bjump => [BitVec.ofNat 8 bjump]
  | .dmalpends _ bjump => [BitVec.ofNat 8 bjump]
  | .dmalpendb _ bjump => [BitVec.ofNat 8 bjump]
  | .dmago _ chan addr => BitVec.ofNat 8 chan :: bytesLe32 addr
  | .dmamov rd imm => o.movCode rd :: bytesLe32 imm

/-- The bytes of an instruction (R71, R72, R79). -/
def encode (o : Opc) (i : Instr) : List Byte := o.byte0 i.head :: o.operandBytes i

/-- Longest instruction, in bytes (R70). -/
def maxInstrLen : Nat := 6

/-- The bytes of an instruction word numbered as opcode_table.json numbers it (bit 0 is the least significant bit of
byte 0), with zero operand bytes above `nbits`. -/
def tableBytes (nbits w : Nat) : List Byte :=
  (List.range maxInstrLen).map fun k => BitVec.ofNat 8 ((w % 2 ^ nbits) / 2 ^ (8 * k))

/-- What the decoder reads from such a word, with the table of R72. -/
def decodeTableWord (nbits w : Nat) : Option Instr :=
  match decode Opc.spec (tableBytes nbits w) with
  | .ok (i, _) => some i
  | .error _ => none

end Sys2Proof
end

