-- ==== Sys2Proof/Machine/Parameters.lean ====
section
/-! DEFINITION. The values the spec takes for the parameter record (spec 00 R9, 10_state R35 to R39, 41 R131) and its
legal ranges. PRESUMED by the spec itself: register map and CCR layout are the PL330's (log 25). -/
namespace Sys2Proof

/-! ## `CCR_LAYOUT` -/

/-- R131. -/
def CcrLayout.spec : CcrLayout where
  srcInc := ⟨0, 1⟩
  srcSize := ⟨1, 3⟩
  srcLen := ⟨4, 4⟩
  srcProt := ⟨8, 3⟩
  srcCache := ⟨11, 3⟩
  dstInc := ⟨14, 1⟩
  dstSize := ⟨15, 3⟩
  dstLen := ⟨18, 4⟩
  dstProt := ⟨22, 3⟩
  dstCache := ⟨25, 3⟩
  endian := ⟨28, 4⟩

def CcrLayout.fields (l : CcrLayout) : List BitField :=
  [l.srcInc, l.srcSize, l.srcLen, l.srcProt, l.srcCache, l.dstInc, l.dstSize, l.dstLen, l.dstProt, l.dstCache, l.endian]

/-- Two fields have no bit in common. -/
abbrev BitField.apart (f g : BitField) : Prop := f.lo + f.len ≤ g.lo ∨ g.lo + g.len ≤ f.lo

/-- Fixed, non-overlapping bit positions that cover the word, each field as wide as R131 says (R130, R131). -/
abbrev CcrLayout.legal (l : CcrLayout) : Prop :=
  l.fields.map BitField.len = [1, 3, 4, 3, 3, 1, 3, 4, 3, 3, 4] ∧ (∀ f ∈ l.fields, f.lo + f.len ≤ 32) ∧
    l.fields.Pairwise BitField.apart

/-! ## `REG_OFF` -/

/-- R35 to R39. -/
def RegMap.spec : RegMap where
  dbgstatus := 0xD00
  dbgcmd := 0xD04
  dbginst0 := 0xD08
  dbginst1 := 0xD0C
  inten := 0x020
  busyBit := 0
  command := ⟨0, 2⟩
  execute := 0
  threadBit := 0
  channel := ⟨8, 3⟩
  byte0 := ⟨16, 8⟩
  byte1 := ⟨24, 8⟩
  byte2 := ⟨0, 8⟩
  byte3 := ⟨8, 8⟩
  byte4 := ⟨16, 8⟩
  byte5 := ⟨24, 8⟩

/-- Offsets are distinct multiples of 4 (R54), the fields of one register do not overlap, an instruction byte has eight
bits and the command code fits its field. -/
abbrev RegMap.legal (m : RegMap) : Prop :=
  [m.dbgstatus, m.dbgcmd, m.dbginst0, m.dbginst1, m.inten].Nodup ∧
  (∀ off ∈ [m.dbgstatus, m.dbgcmd, m.dbginst0, m.dbginst1, m.inten], off % 4 = 0) ∧
  m.busyBit < 32 ∧ m.command.lo + m.command.len ≤ 32 ∧ m.execute < 2 ^ m.command.len ∧ m.channel.len = 3 ∧
  (∀ f ∈ [m.byte0, m.byte1, m.byte2, m.byte3, m.byte4, m.byte5], f.len = 8) ∧
  (∀ fs ∈ [[⟨m.threadBit, 1⟩, m.channel, m.byte0, m.byte1], [m.byte2, m.byte3, m.byte4, m.byte5]],
    (∀ f ∈ fs, f.lo + f.len ≤ 32) ∧ fs.Pairwise BitField.apart)

/-! ## The record -/

/-- The values R9 takes. `MFIFO_BYTES` is OPEN there (≥ 256 needed by the preset): 256 is a DESIGN CHOICE, as are the
empty lists of refusals (log 4). -/
def Params.spec : Params where
  maxBurstSize    := 16
  maxBurstLen     := 16
  nChannels       := 8
  completionEvent := 0
  defaultProt     := 0
  defaultCache    := 0
  bjumpOrigin     := .afterLpend
  opc             := Opc.spec
  regs            := RegMap.spec
  ccrLayout       := CcrLayout.spec
  mfifoBytes      := 256
  refusedAddrs    := []
  busErrors       := []
  refuseSecureGo  := false

/-- The legal ranges of R9. -/
abbrev Params.legal (p : Params) : Prop :=
  p.maxBurstSize ∈ [1, 2, 4, 8, 16, 32, 64, 128] ∧ 1 ≤ p.maxBurstLen ∧ p.maxBurstLen ≤ 16 ∧
  1 ≤ p.nChannels ∧ p.nChannels ≤ 8 ∧ p.completionEvent ≤ 31 ∧
  p.defaultProt ≤ 7 ∧ p.defaultCache ≤ 7 ∧ 1 ≤ p.mfifoBytes ∧
  p.opc.legal ∧ p.regs.legal ∧ p.ccrLayout.legal

end Sys2Proof
end

