-- ==== Sys2Proof/Machine/State.lean ====
section
/-! DEFINITION. The state of the machine: the controller of spec 45 (channels, manager thread, register window, device
memory) and the block of spec 10_state section 1 (what its operations hold while they run), with the typed errors and
the faults of spec 60. INVENTORY.md lists each field with its rule and reset value. -/
namespace Sys2Proof.Machine

/-! ## Faults and refusals -/

/-- The faults of R245. Each is raised where the source leaves the behaviour undefined or external; stopping there is
safe (log 8). -/
inductive Fault
  /-- A host byte write at an offset ≥ `BUF_CAP` (R266): raised by the emitting host context. Safe. -/
  | bufferOverrun
  /-- A host access to a range in flight, or a Compile on its buffer (R264): raised by the host context. Safe. -/
  | programMutatedInFlight
  /-- A trigger write before the program's bytes are visible (R265): raised by the submitting context. Safe. -/
  | programNotVisible
  /-- A register access inside another context's submission (R268): raised by the accessing context. Safe. -/
  | concurrentSubmission
  /-- An instruction reads a register that holds ⊥ (R201): raised by DMALD, DMAST, DMALPEND. Safe. -/
  | unwrittenRegister
  /-- Bytes outside the subset, or DMAGO on a channel thread (R212): raised by fetch and by DMAGO. Safe. -/
  | undecodable
  /-- An address out of range or refused (R213): raised by fetch, DMALD and DMAST. Safe. -/
  | addressError
  /-- A pc that would leave [0, 2^32) (R213, R204): raised by every instruction that advances the pc. Safe. -/
  | pcRange
  /-- A load that would hold more than `MFIFO_BYTES` (R205): raised by DMALD. Safe. -/
  | fifoOverflow
  /-- A store with too little data (R206): raised by DMAST. Safe. -/
  | fifoUnderrun
  /-- An end with data left (R210): raised by DMAEND. Safe. -/
  | fifoNotEmpty
  /-- A store into the program's own range (R211): raised by DMAST. Safe. -/
  | programOverwrite
  /-- A controller-side error the source does not describe (R246): raised by DMAGO, by bus errors, by an instruction
  other than DMAGO on the manager thread and by window accesses the spec gives no effect. Safe. -/
  | controllerFault
  deriving DecidableEq, Repr

/-- What the model gives no meaning. -/
inductive Refusal
  /-- An instruction of the table without a meaning yet: raised only by exec's arms. Safe. -/
  | notModelled (mnemonic : String)
  /-- DMALPEND with the single or burst qualifier (R212: `Refused(QualifierNotModelled)`): raised by DMALPENDS and
  DMALPENDB. Safe. -/
  | qualifierNotModelled
  deriving DecidableEq, Repr

/-! ## Typed errors of the block (R230 to R232) -/

/-- Sub-codes of InvalidField, in the order of R231. -/
inductive InvalidSub
  | srcBsizePow2 | srcBsizeMax | srcBlenZero | srcBlenMax | srcProt | srcCache
  | dstBsizePow2 | dstBsizeMax | dstBlenZero | dstBlenMax | dstProt | dstCache
  | movSel | lpSel | lpCount | lpendSel | lpendMode | lpendCond | lpendBjump
  | goChan | goNs | sevEvent | submitChan
  deriving DecidableEq, Repr

/-- Sub-codes of AlignmentError (R232). -/
inductive AlignSub
  | size | shape
  deriving DecidableEq, Repr

/-- The five typed errors of R230. A typed error carries its code and sub-code and nothing else (R234). -/
inductive Err
  | invalidField (sub : InvalidSub)
  | alignmentError (sub : AlignSub)
  | unsupportedTransferKind
  | deviceBusy
  | resourceExhausted
  deriving DecidableEq, Repr

/-! ## The block's data (10_state section 1) -/

/-- The transfer kinds of R24. -/
inductive Kind
  | memToMem | memToDev | devToMem
  deriving DecidableEq, Repr

/-- One side's shape fields of a TransferConfig (R24); naturals, so that a value out of range can be refused. -/
structure Shape where
  burstSize : Nat
  burstLen  : Nat
  inc       : Bool
  prot      : Nat
  cache     : Nat
  deriving DecidableEq, Repr

/-- TransferConfig (R24, widths of R10). -/
structure TransferConfig where
  src      : Word
  dst      : Word
  size     : Word
  kind     : Kind
  srcShape : Shape
  dstShape : Shape
  deriving DecidableEq, Repr

/-- The arguments of one encode operation (R100, R112: selectors are naturals). -/
inductive EncCall
  | mov (rd : Nat) (imm : Word)
  | lp (lc count : Nat)
  | lpend (lc mode cond bjump : Nat)
  | ld | st | rmb | wmb
  | go (ns chan : Nat) (addr : Word)
  | sev (event : Nat)
  | fin
  deriving DecidableEq, Repr

/-- One thing an emission has still to write: an encode call, or the loop-end of a loop register whose backjump is
computed from the loop record when it is reached (R156). -/
inductive Emit
  | call (c : EncCall)
  | loopEnd (lc : Nat)
  deriving DecidableEq, Repr

/-- A loop record LR[r] (R23). -/
structure LoopRec where
  countM1  : Byte
  startOff : Nat
  deriving DecidableEq, Repr

/-- A program buffer handed to an operation: device-visible address of offset 0 (R42) and `BUF_CAP`, 0 .. 2^32 (R9,
R21). Its bytes are bytes of device memory, so it lies in the 32-bit address space (R42, R44; DEDUCED, log 9). -/
structure Buffer where
  base : Nat
  cap  : Nat
  fits : base + cap ≤ addrSpace
  deriving DecidableEq, Repr

/-- A program as it stands in memory: its range [base, base + len), and what its loads and stores reach (R62, R211;
log 16). -/
structure Program where
  base : Nat
  len  : Nat
  src  : List AddrRange
  dst  : List AddrRange
  deriving DecidableEq, Repr

/-- A submission between its trigger write and its observed completion (R62, R264); `abandoned` after a controller
reset (R261). -/
structure Flight where
  chan      : Nat
  prog      : Program
  abandoned : Bool
  deriving DecidableEq, Repr

/-- An emission under way: the offset it began at and the number of bytes it comes to, the block's cursor, its loop
records, what is left, and whether it is a Compile's. -/
structure EmitJob where
  buf   : Buffer
  start : Nat
  len   : Nat
  off   : Nat
  lr0   : Option LoopRec
  lr1   : Option LoopRec
  todo  : List Emit
  compiling : Bool
  deriving DecidableEq, Repr

/-- Where a submission stands after its DBGSTATUS read: the register write it makes next (R181). -/
inductive Phase
  | inst0 | inst1 | cmd
  deriving DecidableEq, Repr

/-- A submission under way (R180). -/
structure SubmitJob where
  chan  : Nat
  addr  : Word
  ns    : Nat
  phase : Phase
  deriving DecidableEq, Repr

inductive Job
  | idle
  | emit (j : EmitJob)
  | submit (j : SubmitJob)
  deriving DecidableEq, Repr

/-- What a host context can be asked to do: the block's operations (R5) and the collaborators' interfaces (R195). -/
inductive HostOp
  | encode (buf : Buffer) (o : Nat) (c : EncCall)
  | buildCcr (cfg : TransferConfig)
  | decompose (buf : Buffer) (o : Nat) (cfg : TransferConfig)
  | compile (buf : Buffer) (cfg : TransferConfig)
  | submit (chan : Nat) (addr : Word) (ns : Nat)
  | makeVisible (range : AddrRange)
  | hostWrite (addr : Word) (value : Byte)
  | hostRead (addr : Word)
  | observe (chan : Nat)
  | allocate (answer : Option Nat)
  | writeInten (value : Word)
  | readInten
  | clearIrq (n : Nat)
  | resetController
  | quiesced
  deriving DecidableEq, Repr

/-- What an operation returned (R13): its value as a natural number, or one typed error. -/
inductive OpResult
  | ok (v : Nat)
  | err (e : Err)
  deriving DecidableEq, Repr

/-- A host context. `stage` is Stage[0..5] (R26); `fault` is set by a fault and never cleared (R245). -/
structure HostCtx where
  ops    : List HostOp
  job    : Job
  stage  : List Byte
  result : Option OpResult
  fault  : Option Fault
  deriving DecidableEq, Repr

/-! ## The controller (45 R200, 10_state sections 2 and 3) -/

/-- Status of a channel thread (R200). -/
inductive Status
  | stopped
  | executing
  | faulted (r : Fault)
  deriving DecidableEq, Repr

/-- A channel thread (R200). `none` is the spec's ⊥, a register the program has not written. `events` is strictly
rising. `ended`: its last run came to its DMAEND (R215). `progBase`, `progLen` are the program's own range of R211; `ns`
its security state (R189). -/
structure Chan where
  pc       : Word
  sar      : Option Word
  dar      : Option Word
  ccr      : Option Word
  lc0      : Option Byte
  lc1      : Option Byte
  fifo     : List Byte
  events   : List Nat
  status   : Status
  ended    : Bool
  ns       : Bool
  progBase : Nat
  progLen  : Nat
  deriving DecidableEq, Repr

/-- A thread of the controller: the manager (R189) or a channel. -/
inductive Thread
  | manager
  | channel (c : Fin 8)
  deriving DecidableEq, Repr

/-- Who can make a step (R8). -/
inductive Agent
  | host (i : Nat)
  | thread (t : Thread)
  deriving DecidableEq, Repr

/-- One register-window access (R12, R56). -/
inductive RegAccess
  | read (off : Nat) (v : Word)
  | write (off : Nat) (v : Word)
  deriving DecidableEq, Repr

structure State where
  params    : Params
  chans     : Vector Chan 8
  mgrFault  : Option Fault
  dbgBusy   : Bool
  dbginst0  : Word
  dbginst1  : Word
  dbgcmd    : Word
  inten     : Word
  irq       : Word
  mem       : List Host.Cell
  dirty     : List Nat
  /-- The addresses that have been written, strictly rising; an operation that begins to write a part of a buffer takes
  that part out first (R60; log 16). -/
  stored    : List Nat
  flights   : List Flight
  hosts     : List HostCtx
  cur       : Thread
  sched     : List Agent
  draws     : List Word
  drawCount : Nat
  trace     : List RegAccess
  deriving DecidableEq, Repr

/-- A channel before any DMAGO (R200: Stopped, every register ⊥). The pc and the security state have no value in the
spec: DESIGN CHOICE (log 2). -/
def Chan.reset : Chan where
  pc := 0
  sar := none
  dar := none
  ccr := none
  lc0 := none
  lc1 := none
  fifo := []
  events := []
  status := .stopped
  ended := false
  ns := false
  progBase := 0
  progLen := 0

/-- A context with nothing to do. -/
def HostCtx.reset : HostCtx where
  ops := []
  job := .idle
  stage := [0, 0, 0, 0, 0, 0]
  result := none
  fault := none

/-- The state the operations and the controller start from (R47, R200, R260). Values the spec leaves unspecified are
named in log 1 to 5. The two host contexts are the compiler and the submitter of R8 (log 18). -/
def State.reset : State where
  params := Params.spec
  chans := Vector.replicate 8 Chan.reset
  mgrFault := none
  dbgBusy := false
  dbginst0 := 0
  dbginst1 := 0
  dbgcmd := 0
  inten := 0
  irq := 0
  mem := []
  dirty := []
  stored := []
  flights := []
  hosts := [HostCtx.reset, HostCtx.reset]
  cur := .manager
  sched := []
  draws := []
  drawCount := 0
  trace := []

end Sys2Proof.Machine
end

