-- ==== Sys2Proof/Machine/Operands.lean ====
section
/-! DEFINITION. Operands: fields of a register, the bursts a CCR describes (`CCR_LAYOUT`, spec 41 R131) and a channel's
registers as instructions name them (10_state R28, R29). -/
namespace Sys2Proof

/-- `v[lo+len-1:lo]` as an unsigned number (R11). -/
def BitField.get (f : BitField) (v : Word) : Nat := (v.extractLsb' f.lo f.len).toNat

/-- The word with `n` in this field and 0 elsewhere. -/
def BitField.put (f : BitField) (n : Nat) : Word := BitVec.ofNat 32 n <<< f.lo

/-! ## What the registers of the window hold (10_state R37 to R39) -/

/-- The value of DBGINST0 for an instruction of the manager thread (R38, R185). -/
def RegMap.packInst0 (m : RegMap) (b0 b1 : Byte) : Word := m.byte1.put b1.toNat ||| m.byte0.put b0.toNat

/-- The value of DBGINST1 (R39, R186). -/
def RegMap.packInst1 (m : RegMap) (b2 b3 b4 b5 : Byte) : Word :=
  m.byte5.put b5.toNat ||| m.byte4.put b4.toNat ||| m.byte3.put b3.toNat ||| m.byte2.put b2.toNat

/-- The six instruction bytes the values of DBGINST0 and DBGINST1 hold (R38, R39). -/
def RegMap.instBytes (m : RegMap) (inst0 inst1 : Word) : List Byte :=
  [m.byte0.get inst0, m.byte1.get inst0, m.byte2.get inst1, m.byte3.get inst1, m.byte4.get inst1,
    m.byte5.get inst1].map (BitVec.ofNat 8)

/-- The value of the trigger write (R187): the execute command, every other bit 0 (R37). -/
def RegMap.trigger (m : RegMap) : Word := m.command.put m.execute

end Sys2Proof

namespace Sys2Proof.Machine

/-- What a burst looks like from one side: bytes per beat, beats, address increment (R205, R206). -/
structure Burst where
  width : Nat
  beats : Nat
  inc   : Bool
  deriving DecidableEq, Repr

/-- Bytes one burst moves. -/
def Burst.bytes (b : Burst) : Nat := b.beats * b.width

/-- `w = 2^CCR[3:1]`, `k = CCR[7:4] + 1`, CCR[0], at the positions of R131 (R205). -/
def srcBurst (l : CcrLayout) (ccr : Word) : Burst where
  width := 2 ^ l.srcSize.get ccr
  beats := l.srcLen.get ccr + 1
  inc := ccr.getLsbD l.srcInc.lo

/-- `w = 2^CCR[17:15]`, `k = CCR[21:18] + 1`, CCR[14], at the positions of R131 (R206). -/
def dstBurst (l : CcrLayout) (ccr : Word) : Burst where
  width := 2 ^ l.dstSize.get ccr
  beats := l.dstLen.get ccr + 1
  inc := ccr.getLsbD l.dstInc.lo

/-! ## A channel's registers -/

/-- `x[rd] <- v` for the targets of DMAMOV (R202). -/
def Chan.setMov (ch : Chan) (rd : MovReg) (v : Word) : Chan :=
  match rd with
  | .sar => { ch with sar := some v }
  | .ccr => { ch with ccr := some v }
  | .dar => { ch with dar := some v }

/-- `x[rd]`, ⊥ as none. -/
def Chan.mov (ch : Chan) (rd : MovReg) : Option Word :=
  match rd with
  | .sar => ch.sar
  | .ccr => ch.ccr
  | .dar => ch.dar

/-- `x[LCr] <- v`. -/
def Chan.setLc (ch : Chan) (lc : LoopReg) (v : Byte) : Chan :=
  match lc with
  | .lc0 => { ch with lc0 := some v }
  | .lc1 => { ch with lc1 := some v }

/-- `x[LCr]`, ⊥ as none. -/
def Chan.lc (ch : Chan) (lc : LoopReg) : Option Byte :=
  match lc with
  | .lc0 => ch.lc0
  | .lc1 => ch.lc1

/-- A read of a register: "A read of a register that holds ⊥ is `raise Fault(UnwrittenRegister)`" (R201; U17). -/
def written {α : Type} (r : Option α) : Except Fault α :=
  match r with
  | some v => .ok v
  | none => .error .unwrittenRegister

end Sys2Proof.Machine
end

