-- ==== Sys2Proof/Machine/Flags.lean ====
section
/-! DEFINITION. The status the hardware has. There are no flags and no condition codes (spec 10_state R31): what stands
here is the busy bit of DBGSTATUS (R36), the event set of a channel (45 R200, R209) and the interrupt outputs
(10_state R40). -/
namespace Sys2Proof.Machine

/-- `s[0]` of a value read from DBGSTATUS; the other bits are ignored (R36). -/
def isBusy (m : RegMap) (v : Word) : Bool := v.getLsbD m.busyBit

/-- The value a DBGSTATUS read returns: the controller agent's draw (R46), with the busy bit 1 while an injected
instruction is executing (R36, R189; DEDUCED, log 5). -/
def dbgStatusValue (m : RegMap) (busy : Bool) (draw : Word) : Word :=
  if busy then draw ||| ((1 : Word) <<< m.busyBit) else draw

/-- Insertion into a set of naturals held strictly rising. -/
def setInsert (n : Nat) : List Nat → List Nat
  | [] => [n]
  | m :: ms => if n < m then n :: m :: ms else if n = m then m :: ms else m :: setInsert n ms

/-- The set with `a`, …, `a + n - 1` in it. -/
def setInsertRange (a : Nat) : Nat → List Nat → List Nat
  | 0, s => s
  | n + 1, s => setInsertRange (a + 1) n (setInsert a s)

/-- DMASEV raises interrupt output `ev` when INTEN bit `ev` is 1 (R40, R209). -/
def raiseIrq (inten irq : Word) (ev : Nat) : Word :=
  if inten.getLsbD ev then irq ||| ((1 : Word) <<< ev) else irq

/-- The interrupt collaborator clears output `n` (R237). -/
def clearIrqLine (irq : Word) (n : Nat) : Word := irq &&& ~~~((1 : Word) <<< n)

end Sys2Proof.Machine
end

