-- ==== Sys2Proof/Machine/Ops.lean ====
section
/-! DEFINITION. The shared operations: memory, a channel's accesses and its pc (spec 45 R205, R206, R213, R214), the
register window (10_state R35 to R40), and taking a fault (60 R245). -/
namespace Sys2Proof.Machine

/-- What an instruction answers. -/
abbrev Out := Host.Outcome State Fault Refusal

/-! ## Memory: a list of cells, addresses strictly rising, no cell equal to what an unlisted address reads as -/

abbrev Memory := List Host.Cell

/-- What an unlisted address reads as. DESIGN CHOICE: the spec gives memory no initial contents (log 1). -/
def emptyByte : Byte := 0

/-- One byte of memory. -/
def Memory.read : Memory → Nat → Byte
  | [], _ => emptyByte
  | (a, b) :: m, x => if x = a then b else Memory.read m x

/-- Store one byte, keeping the canonical form. -/
def Memory.write : Memory → Nat → Byte → Memory
  | [], x, v => if v = emptyByte then [] else [(x, v)]
  | (a, b) :: m, x, v =>
    if x < a then
      if v = emptyByte then (a, b) :: m else (x, v) :: (a, b) :: m
    else if x = a then
      if v = emptyByte then m else (x, v) :: m
    else (a, b) :: Memory.write m x v

/-- `n` bytes in ascending address order. -/
def Memory.readBytes (m : Memory) (a : Nat) : Nat → List Byte
  | 0 => []
  | n + 1 => Memory.read m a :: Memory.readBytes m (a + 1) n

/-- Store bytes in ascending address order. -/
def Memory.writeBytes (m : Memory) (a : Nat) : List Byte → Memory
  | [] => m
  | b :: bs => Memory.writeBytes (Memory.write m a b) (a + 1) bs

/-- The canonical form. -/
def Memory.wf : Memory → Bool
  | [] => true
  | [(_, b)] => decide (b ≠ emptyByte)
  | (a, b) :: (a', b') :: m => decide (b ≠ emptyByte) && decide (a < a') && Memory.wf ((a', b') :: m)

end Sys2Proof.Machine

namespace Sys2Proof

/-! ## Ranges and sets of addresses -/

/-- `a` lies in [base, base + size). -/
def AddrRange.has (r : AddrRange) (a : Nat) : Bool := decide (r.base ≤ a ∧ a < r.base + r.size)

/-- [a, a + n) has an address in common with the range; an empty range has none. -/
def AddrRange.meets (r : AddrRange) (a n : Nat) : Bool :=
  decide (0 < r.size ∧ 0 < n ∧ a < r.base + r.size ∧ r.base < a + n)

end Sys2Proof

namespace Sys2Proof.Machine

/-! ## Channels -/

/-- Channel thread `c`. -/
def State.chan (s : State) (c : Fin 8) : Chan := s.chans[c]

def State.setChan (s : State) (c : Fin 8) (ch : Chan) : State :=
  { s with chans := s.chans.set c ch }

/-- Runs the meaning of a channel instruction on the thread `cur`. On the manager thread the spec describes DMAGO only:
any other instruction there is a controller-side error (R246; log 14). -/
def State.onChannel (s : State) (f : Fin 8 → Except Fault State) : Out :=
  match s.cur with
  | .manager => .fault .controllerFault
  | .channel c =>
    match f c with
    | .ok t => .next t
    | .error r => .fault r

/-! ## The program counter (R30, R204, R213) -/

/-- `pc + n`; leaving [0, 2^32) is PcRange. -/
def advancePc (pc : Word) (n : Nat) : Except Fault Word :=
  if pc.toNat + n < addrSpace then .ok (BitVec.ofNat 32 (pc.toNat + n)) else .error .pcRange

/-- Where a DMALPEND at `pc` measures its jump from (R204). -/
def jumpOrigin (origin : BjumpOrigin) (pc : Word) : Nat :=
  match origin with
  | .afterLpend => pc.toNat + 2
  | .atLpend => pc.toNat

/-- `origin − bjump`; below 0, or at 2^32 or above, is PcRange. -/
def jumpBack (origin : BjumpOrigin) (pc : Word) (bjump : Nat) : Except Fault Word :=
  if bjump ≤ jumpOrigin origin pc ∧ jumpOrigin origin pc - bjump < addrSpace then
    .ok (BitVec.ofNat 32 (jumpOrigin origin pc - bjump))
  else .error .pcRange

/-! ## Controller accesses to device memory (R12, R213, R246) -/

end Sys2Proof.Machine

namespace Sys2Proof

/-- `ADDR_ALIGN_OK(a, purpose)` (R53, D44). -/
def Params.addrOk (p : Params) (purpose : Purpose) (a : Nat) : Bool :=
  p.refusedAddrs.all fun r => !(decide (r.purpose = purpose) && decide (a % r.modulus = r.residue))

/-- Whether `n` bytes at `a` can be accessed: AddressError (R213), or a bus error (R246; log 24). -/
def Params.access (p : Params) (purpose : Purpose) (a n : Nat) : Except Machine.Fault Unit :=
  if addrSpace < a + n ∨ p.addrOk purpose a = false then .error .addressError
  else if p.busErrors.any (fun r => r.meets a n) then .error .controllerFault
  else .ok ()

end Sys2Proof

namespace Sys2Proof.Machine

/-- `MemRead(a, n)`. A byte the host wrote is read as written whether or not it was made visible: R60 and R265 speak of
program bytes, and the spec says nothing of data (DESIGN CHOICE, log 31). -/
def State.memRead (s : State) (purpose : Purpose) (a n : Nat) : Except Fault (List Byte) := do
  s.params.access purpose a n
  .ok (Memory.readBytes s.mem a n)

/-- The bytes of a load's beats from `a` on, `held` bytes being in the fifo already (R205). Faults in beat order
(log 12). -/
def State.loadBeats (s : State) (b : Burst) : Nat → Nat → Nat → Except Fault (List Byte)
  | 0, _, _ => .ok []
  | k + 1, a, held => do
    let bs ← s.memRead .load a b.width
    if s.params.mfifoBytes < held + b.width then .error .fifoOverflow
    let rest ← s.loadBeats b k (if b.inc then a + b.width else a) (held + b.width)
    .ok (bs ++ rest)

end Sys2Proof.Machine

namespace Sys2Proof

/-- Memory after a store's beats from `a` on take `bytes` (R206); `own` is the program's own range (R211). -/
def Params.storeBeats (p : Params) (own : AddrRange) (b : Machine.Burst) :
    Nat → Nat → List Byte → Machine.Memory → Except Machine.Fault Machine.Memory
  | 0, _, _, m => .ok m
  | k + 1, a, bytes, m => do
    p.access .store a b.width
    if own.meets a b.width then .error .programOverwrite
    p.storeBeats own b k (if b.inc then a + b.width else a) (bytes.drop b.width)
      (Machine.Memory.writeBytes m a (bytes.take b.width))

end Sys2Proof

namespace Sys2Proof.Machine

/-- The burst ends where the address space does, so that its end is no 32-bit value. -/
def Burst.endsAtTop (b : Burst) (a : Word) : Bool := b.inc && decide (addrSpace ≤ a.toNat + b.bytes)

/-- The address register after a burst (R205, R206). Where its new value, 2^32, does not fit in the register the spec states
none: it is a free value (DESIGN CHOICE, log 11). -/
def State.bumpAddr (s : State) (b : Burst) (a : Word) : Word :=
  if b.endsAtTop a then Config.freeWord s.drawCount
  else if b.inc then BitVec.ofNat 32 (a.toNat + b.bytes)
  else a

/-- The free-value counter after that. -/
def State.bumpCount (s : State) (b : Burst) (a : Word) : Nat :=
  if b.endsAtTop a then s.drawCount + 1 else s.drawCount

/-- How many bytes from the address register on a store's beats write (R206). -/
def Burst.span (b : Burst) : Nat := if b.inc then b.bytes else b.width

/-- The program's own range `[prog_addr, prog_addr + L)` (R211). -/
def Chan.own (ch : Chan) : AddrRange := ⟨ch.progBase, ch.progLen⟩

/-! ## Fetch (R214) -/

/-- Decoding of bytes the controller holds (R77, R212). -/
def decodeOrFault (o : Opc) (bytes : List Byte) : Except Fault Instr :=
  match decode o bytes with
  | .ok (i, _) => .ok i
  | .error _ => .error .undecodable

/-- `MemRead(pc + 1, len − 1)`; an instruction of one byte has no remaining bytes to read (log 22). -/
def State.fetchRest (s : State) (a n : Nat) : Except Fault (List Byte) :=
  if n = 0 then .ok [] else s.memRead .fetch a n

/-- Fetch and decode at `pc`: byte 0, its length, the remaining bytes (R214). -/
def State.fetch (s : State) (pc : Word) : Except Fault Instr := do
  let head ← s.memRead .fetch pc.toNat 1
  match instrLen s.params.opc (head.headD emptyByte) with
  | none => .error .undecodable
  | some n =>
    let rest ← s.fetchRest (pc.toNat + 1) (n - 1)
    decodeOrFault s.params.opc (head ++ rest)

/-! ## The register window (10_state R35 to R40; `REG_OFF`) -/

/-- The controller agent's next draw: an answer it was given, else a free value (R46, U14; log 5). -/
def State.draw (s : State) : Word × State :=
  match s.draws with
  | v :: vs => (v, { s with draws := vs, drawCount := s.drawCount + 1 })
  | [] => (Config.freeWord s.drawCount, { s with drawCount := s.drawCount + 1 })

/-- `RegRead(off)`: one 32-bit access (R56). DBGINST0, DBGINST1 and DBGCMD are write-only and no other offset is
described: reading one is a controller-side error (R246; log 28). -/
def State.regRead (s : State) (off : Nat) : Except Fault (Word × State) :=
  if off = s.params.regs.dbgstatus then
    let d := s.draw
    let v := dbgStatusValue s.params.regs s.dbgBusy d.1
    .ok (v, { d.2 with trace := s.trace ++ [.read off v] })
  else if off = s.params.regs.inten then .ok (s.inten, { s with trace := s.trace ++ [.read off s.inten] })
  else .error .controllerFault

/-- What a register write does: DBGINST0 and DBGINST1 latch, DBGCMD with command 0b00 makes the controller execute what
they hold (R37, R57); reserved commands and other offsets have no described effect (log 28). -/
def State.regStore (s : State) (off : Nat) (v : Word) : Except Fault State :=
  if off = s.params.regs.dbginst0 then .ok { s with dbginst0 := v }
  else if off = s.params.regs.dbginst1 then .ok { s with dbginst1 := v }
  else if off = s.params.regs.dbgcmd then
    if s.params.regs.command.get v = s.params.regs.execute then .ok { s with dbgcmd := v, dbgBusy := true }
    else .error .controllerFault
  else if off = s.params.regs.inten then .ok { s with inten := v }
  else .error .controllerFault

/-- `RegWrite(off, v)`: one 32-bit access (R56). -/
def State.regWrite (s : State) (off : Nat) (v : Word) : Except Fault State := do
  let t ← s.regStore off v
  .ok { t with trace := s.trace ++ [.write off v] }

/-- The injected instruction's bytes. -/
def State.injectedBytes (s : State) : List Byte := s.params.regs.instBytes s.dbginst0 s.dbginst1

/-- The injected instruction, decoded as fetched bytes are (R77, R212). -/
def State.injected (s : State) : Except Fault Instr := decodeOrFault s.params.opc s.injectedBytes

/-- The number of the channel thread that is to execute the injected instruction; none for the manager thread
(R38). -/
def State.debugChannel (s : State) : Option Nat :=
  if s.dbginst0.getLsbD s.params.regs.threadBit then some (s.params.regs.channel.get s.dbginst0) else none

/-! ## Programs and flights (20 R62, 70 R264) -/

def Program.range (p : Program) : AddrRange := ⟨p.base, p.len⟩

/-- `a` lies in the source range, in the destination range. -/
def Program.inSrc (p : Program) (a : Nat) : Bool := p.src.any fun r => r.has a
def Program.inDst (p : Program) (a : Nat) : Bool := p.dst.any fun r => r.has a

/-- The host may not write `a`: program, source or destination of a submission in flight (R264). -/
def State.hostWriteBarred (s : State) (a : Nat) : Bool :=
  s.flights.any fun f => f.prog.range.has a || f.prog.inSrc a || f.prog.inDst a

/-- The host may not read `a`: destination of a submission in flight (R264). -/
def State.hostReadBarred (s : State) (a : Nat) : Bool :=
  s.flights.any fun f => f.prog.inDst a

/-- A Compile may not target this buffer, nor go on in it (R264). DESIGN CHOICE (log 32): "that buffer" is any buffer
whose capacity range has an address in common with the bytes of a program in flight (a buffer of capacity 0 has none), and a Compile that was under way
there is barred at its next write. -/
def State.bufferInFlight (s : State) (buf : Buffer) : Bool :=
  s.flights.any fun f => f.prog.range.meets buf.base buf.cap

/-- A host write of one byte (R60, R264): it lands, and is not yet visible to the controller. -/
def State.hostStore (s : State) (a : Nat) (v : Byte) : Except Fault State :=
  if s.hostWriteBarred a then .error .programMutatedInFlight
  else .ok { s with
    mem := Memory.write s.mem a v
    dirty := setInsert a s.dirty
    stored := setInsert a s.stored }

/-- `BufWrite(o, b0 … bn-1)` (R12): bytes land one by one until one is refused (R266, R176); the state holds those
that landed. DESIGN CHOICE (log 34): a byte that lies past the capacity and in a range in flight is BufferOverrun; the
spec gives R266 and R264 no order. -/
def State.bufWrite (s : State) (buf : Buffer) (o : Nat) : List Byte → State × Option Fault
  | [] => (s, none)
  | b :: bs =>
    if buf.cap ≤ o then (s, some .bufferOverrun)
    else
      match s.hostStore (buf.base + o) b with
      | .error r => (s, some r)
      | .ok t => t.bufWrite buf (o + 1) bs

/-! ## Host contexts -/

def State.setHost (s : State) (i : Nat) (h : HostCtx) : State := { s with hosts := s.hosts.set i h }

/-- Change host context `i`, if there is one. -/
def State.modifyHost (s : State) (i : Nat) (f : HostCtx → HostCtx) : State :=
  { s with hosts := s.hosts.modify i f }

/-- Host context `i` returns from its operation (R13). The staging bytes stay as they are; R47 leaves them unspecified
(DESIGN CHOICE, log 23). -/
def State.finish (s : State) (i : Nat) (r : OpResult) : State :=
  s.modifyHost i fun h => { h with job := .idle, result := some r }

/-! ## Taking a fault (60 R245) -/

/-- `raise Fault(reason)` (R12, R245): the agent stops in its Faulted state, which no later step clears. Nothing is
saved, no mode changes and there is no handler (R236). -/
def State.raiseFault (s : State) (agent : Agent) (r : Fault) : State :=
  match agent with
  | .host i => s.modifyHost i fun h => { h with fault := some r }
  | .thread .manager => { s with mgrFault := some r }
  | .thread (.channel c) => s.setChan c { s.chan c with status := .faulted r }

end Sys2Proof.Machine
end

