-- ==== Sys2Proof/Machine/Programs.lean ====
section
/-! DEFINITION. Programs as they stand in memory (spec 10_state R42, 20 R60, R62, 45 R211): the instructions from a start
address to the first DMAEND, and what their loads and stores reach. A program is read off its bytes, so it is the same
whoever wrote them, Compile, encode operations or the host (log 16). -/
namespace Sys2Proof.Machine

/-- How many bytes a channel fetches at a byte 0: as many as it tells, which for a reserved byte-1 form are read before
it faults, and else byte 0 alone (R50, R76, R214). -/
def fetchedLen (o : Opc) (b0 : Byte) : Nat := (instrLen o b0).getD 1

/-- The instructions from `pc` on up to the first DMAEND, and the address behind them. The walk ends also behind bytes that
are fetched and are no instruction, and at the end of the address space; `fuel` steps at most. -/
def instrsAt (o : Opc) (m : Memory) : Nat → Nat → List Instr × Nat
  | 0, pc => ([], pc)
  | fuel + 1, pc =>
    if addrSpace ≤ pc then ([], addrSpace)
    else
      match decode o (Memory.readBytes m pc maxInstrLen) with
      | .error _ => ([], min addrSpace (pc + fetchedLen o (Memory.read m pc)))
      | .ok (i, _) =>
        if i = .dmaend then ([i], pc + 1)
        else
          let rest := instrsAt o m fuel (pc + (encode o i).length)
          (i :: rest.1, rest.2)

/-- What the walk over a program's instructions knows: the registers as its DMAMOVs set them, how often the loops that
are open run, and the ranges found so far. -/
structure Reach where
  ccr : Option Word
  sar : Option Nat
  dar : Option Nat
  n0  : Nat
  n1  : Nat
  src : List AddrRange
  dst : List AddrRange
  deriving DecidableEq, Repr

def Reach.start : Reach := ⟨none, none, none, 1, 1, [], []⟩

/-- How often the body of the open loops runs (R164). -/
def Reach.times (r : Reach) : Nat := r.n1 * r.n0

/-- The range of a DMALD: as many bursts as the open loops make it, from SAR on, also for an address that does not move
(log 29). -/
def Reach.load (l : CcrLayout) (r : Reach) : Reach :=
  match r.ccr, r.sar with
  | some ccr, some a =>
    let n := r.times * (srcBurst l ccr).bytes
    { r with sar := some (a + n), src := r.src ++ [⟨a, n⟩] }
  | _, _ => r

/-- The range of a DMAST. -/
def Reach.store (l : CcrLayout) (r : Reach) : Reach :=
  match r.ccr, r.dar with
  | some ccr, some a =>
    let n := r.times * (dstBurst l ccr).bytes
    { r with dar := some (a + n), dst := r.dst ++ [⟨a, n⟩] }
  | _, _ => r

/-- A loop register's loop is open from its DMALP to its DMALPEND (R23, R156). -/
def Reach.loop (r : Reach) (lc : LoopReg) (n : Nat) : Reach :=
  match lc with
  | .lc0 => { r with n0 := n }
  | .lc1 => { r with n1 := n }

def Reach.move (r : Reach) (rd : MovReg) (imm : Word) : Reach :=
  match rd with
  | .sar => { r with sar := some imm.toNat }
  | .ccr => { r with ccr := some imm }
  | .dar => { r with dar := some imm.toNat }

/-- One more instruction of the program. -/
def Reach.next (l : CcrLayout) (r : Reach) : Instr → Reach
  | .dmaend => r
  | .dmald => r.load l
  | .dmast => r.store l
  | .dmarmb => r
  | .dmawmb => r
  | .dmalp lc count => r.loop lc count
  | .dmasev _ => r
  | .dmalpend lc _ => r.loop lc 1
  | .dmalpends lc _ => r.loop lc 1
  | .dmalpendb lc _ => r.loop lc 1
  | .dmago _ _ _ => r
  | .dmamov rd imm => r.move rd imm

/-- What the instructions of a program reach. -/
def reachOf (l : CcrLayout) (is : List Instr) : Reach := is.foldl (Reach.next l) .start

/-- The program that stands at `addr` (R62, R211). -/
def State.programAt (s : State) (addr : Nat) : Program :=
  let is := instrsAt s.params.opc s.mem addrSpace addr
  let r := reachOf s.params.ccrLayout is.1
  { base := addr, len := is.2 - addr, src := r.src, dst := r.dst }

/-- Every byte of the program has been written, by whatever agent, and none is a host's write that is not yet visible to the
controller (R60, R265). -/
def State.allVisible (s : State) (p : Program) : Bool :=
  (List.range p.len).all fun k => decide (p.base + k ∈ s.stored ∧ p.base + k ∉ s.dirty)

end Sys2Proof.Machine
end

