-- ==== Sys2Proof/Machine/Control.lean ====
section
/-! DEFINITION. Signalling, ending and starting a thread: DMASEV, DMAEND, DMAGO (spec 45 R209, R210, R212; 44 R189). -/
namespace Sys2Proof.Machine

/-- DMASEV (R209): the event joins the channel's set, and raises its interrupt output when INTEN enables it. -/
def execDmasev (event : Nat) (s : State) : Out :=
  s.onChannel fun c => do
    let pc ← advancePc (s.chan c).pc 2
    .ok ({ s with irq := raiseIrq s.inten s.irq event }.setChan c
      { s.chan c with events := setInsert event (s.chan c).events, pc := pc })

/-- DMAEND (R210): the thread stops, its pc keeps the address of the DMAEND; the run has ended (R215). -/
def execDmaend (s : State) : Out :=
  s.onChannel fun c =>
    if (s.chan c).fifo = [] then .ok (s.setChan c { s.chan c with status := .stopped, ended := true })
    else .error .fifoNotEmpty

/-- A channel as DMAGO starts it (R189, R200): at the program address, in security state `ns`, registers ⊥, fifo and
events empty (log 13). -/
def State.started (s : State) (ns : Bool) (addr : Word) : Chan :=
  { Chan.reset with
    pc := addr, status := .executing, ns := ns, progBase := addr.toNat, progLen := (s.programAt addr.toNat).len }

/-- DMAGO on the manager thread (R189). A channel the controller lacks, a channel that is not Stopped and a refused
secure DMAGO are ControllerFault (R246). -/
def State.go (s : State) (ns : Bool) (chan : Nat) (addr : Word) : Except Fault State :=
  if h : chan < 8 then
    if chan < s.params.nChannels ∧ (s.chan ⟨chan, h⟩).status = .stopped ∧ (s.params.refuseSecureGo → ns) then
      .ok (s.setChan ⟨chan, h⟩ (s.started ns addr))
    else .error .controllerFault
  else .error .controllerFault

/-- DMAGO (R189): a manager instruction; fetched by a channel thread it is Undecodable (R212). -/
def execDmago (ns : Bool) (chan : Nat) (addr : Word) (s : State) : Out :=
  match s.cur with
  | .channel _ => .fault .undecodable
  | .manager =>
    match s.go ns chan addr with
    | .ok t => .next t
    | .error r => .fault r

end Sys2Proof.Machine
end

