-- ==== Sys2Proof/Machine/Loop.lean ====
section
/-! DEFINITION. Loops: DMALP, DMALPEND and its two qualified forms (spec 45 R203, R204, R212). -/
namespace Sys2Proof.Machine

/-- DMALP (R203): `x[LCr] <- count − 1`. -/
def execDmalp (lc : LoopReg) (count : Nat) (s : State) : Out :=
  s.onChannel fun c => do
    let pc ← advancePc (s.chan c).pc 2
    .ok (s.setChan c { (s.chan c).setLc lc (BitVec.ofNat 8 (count - 1)) with pc := pc })

/-- DMALPEND (R204): while the counter is not 0, decrement it and jump back; at 0 fall through. -/
def execDmalpend (lc : LoopReg) (bjump : Nat) (s : State) : Out :=
  s.onChannel fun c => do
    let count ← written ((s.chan c).lc lc)
    if count = 0 then
      let pc ← advancePc (s.chan c).pc 2
      .ok (s.setChan c { s.chan c with pc := pc })
    else
      let pc ← jumpBack s.params.bjumpOrigin (s.chan c).pc bjump
      .ok (s.setChan c { (s.chan c).setLc lc (count - 1) with pc := pc })

/-- DMALPENDS: `Refused(QualifierNotModelled)` (R212): its condition reads peripheral request state that the source
does not describe. -/
def execDmalpends (_lc : LoopReg) (_bjump : Nat) (_s : State) : Out := .refused .qualifierNotModelled

/-- DMALPENDB: `Refused(QualifierNotModelled)` (R212). -/
def execDmalpendb (_lc : LoopReg) (_bjump : Nat) (_s : State) : Out := .refused .qualifierNotModelled

end Sys2Proof.Machine
end

