-- ==== Sys2Proof/Machine/Move.lean ====
section
/-! DEFINITION. DMAMOV (spec 45 R202). -/
namespace Sys2Proof.Machine

/-- DMAMOV (R202): `x[rd] <- imm; pc <- pc + 6`. -/
def execDmamov (rd : MovReg) (imm : Word) (s : State) : Out :=
  s.onChannel fun c => do
    let pc ← advancePc (s.chan c).pc 6
    .ok (s.setChan c { (s.chan c).setMov rd imm with pc := pc })

end Sys2Proof.Machine
end

