-- ==== Sys2Proof/Machine/Transfer.lean ====
section
/-! DEFINITION. Loads, stores and barriers: DMALD, DMAST, DMARMB, DMAWMB (spec 45 R205 to R208). -/
namespace Sys2Proof.Machine

/-- DMALD (R205): one burst from SAR into the fifo; SAR moves on when CCR[0] is 1. -/
def State.load (s : State) (c : Fin 8) : Except Fault State := do
  let ch := s.chan c
  let ccr ← written ch.ccr
  let sar ← written ch.sar
  let b := srcBurst s.params.ccrLayout ccr
  let bytes ← s.loadBeats b b.beats sar.toNat ch.fifo.length
  let pc ← advancePc ch.pc 1
  .ok ({ s with drawCount := s.bumpCount b sar }.setChan c
    { ch with fifo := ch.fifo ++ bytes, sar := some (s.bumpAddr b sar), pc := pc })

def execDmald (s : State) : Out := s.onChannel s.load

/-- DMAST (R206): one burst out of the fifo to DAR; DAR moves on when CCR[14] is 1. -/
def State.store (s : State) (c : Fin 8) : Except Fault State := do
  let ch := s.chan c
  let ccr ← written ch.ccr
  let b := dstBurst s.params.ccrLayout ccr
  if ch.fifo.length < b.bytes then .error .fifoUnderrun
  let dar ← written ch.dar
  let mem ← s.params.storeBeats ch.own b b.beats dar.toNat ch.fifo s.mem
  let pc ← advancePc ch.pc 1
  .ok ({ s with
    mem := mem
    stored := setInsertRange dar.toNat b.span s.stored
    drawCount := s.bumpCount b dar }.setChan c
      { ch with fifo := ch.fifo.drop b.bytes, dar := some (s.bumpAddr b dar), pc := pc })

def execDmast (s : State) : Out := s.onChannel s.store

/-- A barrier: every earlier access of the channel has completed already (R207, R208), so only the pc moves. -/
def State.barrier (s : State) (c : Fin 8) : Except Fault State := do
  let pc ← advancePc (s.chan c).pc 1
  .ok (s.setChan c { s.chan c with pc := pc })

/-- DMARMB (R207). -/
def execDmarmb (s : State) : Out := s.onChannel s.barrier

/-- DMAWMB (R208). -/
def execDmawmb (s : State) : Out := s.onChannel s.barrier

end Sys2Proof.Machine
end

