-- ==== Sys2Proof/Machine/Dispatch.lean ====
section
/-! DEFINITION. One arm per instruction: exec runs an instruction on the thread `cur`. -/
namespace Sys2Proof.Machine

def exec (i : Instr) (s : State) : Host.Outcome State Fault Refusal :=
  match i with
  | .dmaend => Sys2Proof.Machine.execDmaend s
  | .dmald => Sys2Proof.Machine.execDmald s
  | .dmast => Sys2Proof.Machine.execDmast s
  | .dmarmb => Sys2Proof.Machine.execDmarmb s
  | .dmawmb => Sys2Proof.Machine.execDmawmb s
  | .dmalp lc count => Sys2Proof.Machine.execDmalp lc count s
  | .dmasev event => Sys2Proof.Machine.execDmasev event s
  | .dmalpend lc bjump => Sys2Proof.Machine.execDmalpend lc bjump s
  | .dmalpends lc bjump => Sys2Proof.Machine.execDmalpends lc bjump s
  | .dmalpendb lc bjump => Sys2Proof.Machine.execDmalpendb lc bjump s
  | .dmago ns chan addr => Sys2Proof.Machine.execDmago ns chan addr s
  | .dmamov rd imm => Sys2Proof.Machine.execDmamov rd imm s

end Sys2Proof.Machine
end

