-- ==== Sys2Proof/Machine/Encoder.lean ====
section
/-! DEFINITION. The instruction encoder of the block (spec 40) and the numeric codes of its typed errors (60 R230 to
R232). `encBytes` is what an encode operation writes, or the typed error it returns; writing is Machine/Emission.lean. -/
namespace Sys2Proof.Machine

/-! ## Codes -/

/-- R231. -/
def InvalidSub.code : InvalidSub → Nat
  | .srcBsizePow2 => 1
  | .srcBsizeMax => 2
  | .srcBlenZero => 3
  | .srcBlenMax => 4
  | .srcProt => 5
  | .srcCache => 6
  | .dstBsizePow2 => 7
  | .dstBsizeMax => 8
  | .dstBlenZero => 9
  | .dstBlenMax => 10
  | .dstProt => 11
  | .dstCache => 12
  | .movSel => 13
  | .lpSel => 14
  | .lpCount => 15
  | .lpendSel => 16
  | .lpendMode => 17
  | .lpendCond => 18
  | .lpendBjump => 19
  | .goChan => 20
  | .goNs => 21
  | .sevEvent => 22
  | .submitChan => 23

/-- R232. -/
def AlignSub.code : AlignSub → Nat
  | .size => 1
  | .shape => 2

/-- R230. -/
def Err.code : Err → Nat
  | .invalidField _ => 1
  | .alignmentError _ => 2
  | .unsupportedTransferKind => 3
  | .deviceBusy => 4
  | .resourceExhausted => 5

/-- The sub-code an error carries, 0 where it has none (R231, R232, R234). -/
def Err.subCode : Err → Nat
  | .invalidField sub => sub.code
  | .alignmentError sub => sub.code
  | .unsupportedTransferKind => 0
  | .deviceBusy => 0
  | .resourceExhausted => 0

/-! ## Encode operations -/

/-- `raise InvalidField(sub)` unless the check holds. -/
def check (ok : Bool) (sub : InvalidSub) : Except Err Unit :=
  if ok then .ok () else .error (.invalidField sub)

end Sys2Proof.Machine

namespace Sys2Proof

/-- Byte 1 of DMAMOV by the register selector: 0 = SAR, 1 = CCR, 2 = DAR (R112, R74). -/
def Opc.movSelector (o : Opc) (rd : Nat) : Byte := if rd = 0 then o.sar else if rd = 1 then o.ccr else o.dar

/-- Qualifier bits (B, X) of byte 0 (R73, R103): 0 = ALWAYS, 1 = SINGLE, 2 = BURST. -/
def Opc.condBits (o : Opc) (cond : Nat) : Byte :=
  if cond = 0 then o.always else if cond = 1 then o.single else o.burst

end Sys2Proof

namespace Sys2Proof.Machine

/-- `EncodeMOV` (R101). -/
def encMov (o : Opc) (rd : Nat) (imm : Word) : Except Err (List Byte) := do
  check (decide (rd ≤ 2)) .movSel
  .ok ([o.mov, o.movSelector rd] ++ bytesLe32 imm)

/-- `EncodeLP` (R102). -/
def encLp (o : Opc) (lc count : Nat) : Except Err (List Byte) := do
  check (decide (lc ≤ 1)) .lpSel
  check (decide (1 ≤ count ∧ count ≤ 256)) .lpCount
  .ok [o.lp ||| (BitVec.ofNat 8 lc <<< o.lpLoop), BitVec.ofNat 8 (count - 1)]

/-- `EncodeLPEND` (R103); mode FOREVER is refused (R104). -/
def encLpend (o : Opc) (lc mode cond bjump : Nat) : Except Err (List Byte) := do
  check (decide (lc ≤ 1)) .lpendSel
  check (decide (mode = 0)) .lpendMode
  check (decide (cond ≤ 2)) .lpendCond
  check (decide (1 ≤ bjump ∧ bjump ≤ 255)) .lpendBjump
  .ok [o.lpend ||| (BitVec.ofNat 8 lc <<< o.lpendLoop) ||| o.condBits cond, BitVec.ofNat 8 bjump]

/-- `EncodeGO` (R109). -/
def encGo (o : Opc) (ns chan : Nat) (addr : Word) : Except Err (List Byte) := do
  check (decide (chan ≤ 7)) .goChan
  check (decide (ns ≤ 1)) .goNs
  .ok ([o.go ||| (BitVec.ofNat 8 ns <<< o.goNs), BitVec.ofNat 8 chan] ++ bytesLe32 addr)

/-- `EncodeSEV` (R110). -/
def encSev (o : Opc) (event : Nat) : Except Err (List Byte) := do
  check (decide (event ≤ 31)) .sevEvent
  .ok [o.sev, BitVec.ofNat 8 event <<< 3]

/-- The bytes an encode operation writes, or its typed error (R100 to R111). -/
def encBytes (o : Opc) : EncCall → Except Err (List Byte)
  | .mov rd imm => encMov o rd imm
  | .lp lc count => encLp o lc count
  | .lpend lc mode cond bjump => encLpend o lc mode cond bjump
  | .ld => .ok [o.ld]
  | .st => .ok [o.st]
  | .rmb => .ok [o.rmb]
  | .wmb => .ok [o.wmb]
  | .go ns chan addr => encGo o ns chan addr
  | .sev event => encSev o event
  | .fin => .ok [o.fin]

/-! ## The instruction an encode operation stands for (R112: the known selector values) -/

def loopRegOfNat (lc : Nat) : LoopReg := if lc = 0 then .lc0 else .lc1

def movRegOfNat (rd : Nat) : MovReg := if rd = 0 then .sar else if rd = 1 then .ccr else .dar

/-- DMALPEND, DMALPENDS or DMALPENDB by the qualifier argument (R103). -/
def lpendOfCond (lc : LoopReg) (cond bjump : Nat) : Instr :=
  if cond = 0 then .dmalpend lc bjump else if cond = 1 then .dmalpends lc bjump else .dmalpendb lc bjump

def EncCall.instr : EncCall → Instr
  | .mov rd imm => .dmamov (movRegOfNat rd) imm
  | .lp lc count => .dmalp (loopRegOfNat lc) count
  | .lpend lc _ cond bjump => lpendOfCond (loopRegOfNat lc) cond bjump
  | .ld => .dmald
  | .st => .dmast
  | .rmb => .dmarmb
  | .wmb => .dmawmb
  | .go ns chan addr => .dmago (decide (ns = 1)) chan addr
  | .sev event => .dmasev event
  | .fin => .dmaend

end Sys2Proof.Machine
end

