-- ==== Sys2Proof/Machine/ConfigBuilder.lean ====
section
/-! DEFINITION. The config builder: packing the CCR word (spec 41). -/
namespace Sys2Proof.Machine

/-- The sub-codes of one side's checks (R133 to R135, R231). -/
structure SideSubs where
  bsizePow2 : InvalidSub
  bsizeMax  : InvalidSub
  blenZero  : InvalidSub
  blenMax   : InvalidSub
  prot      : InvalidSub
  cache     : InvalidSub

def srcSubs : SideSubs := ⟨.srcBsizePow2, .srcBsizeMax, .srcBlenZero, .srcBlenMax, .srcProt, .srcCache⟩
def dstSubs : SideSubs := ⟨.dstBsizePow2, .dstBsizeMax, .dstBlenZero, .dstBlenMax, .dstProt, .dstCache⟩

/-- The power-of-two test of R133. -/
def isPow2 (v : Nat) : Bool := decide (v ≠ 0 ∧ v &&& (v - 1) = 0)

/-- One side's checks, in the order of R136: burst size, burst length, protection, cache. -/
def checkSide (p : Params) (subs : SideSubs) (sh : Shape) : Except Err Unit := do
  check (isPow2 sh.burstSize) subs.bsizePow2
  check (decide (sh.burstSize ≤ p.maxBurstSize)) subs.bsizeMax
  check (decide (sh.burstLen ≠ 0)) subs.blenZero
  check (decide (sh.burstLen ≤ p.maxBurstLen)) subs.blenMax
  check (decide (sh.prot ≤ 7)) subs.prot
  check (decide (sh.cache ≤ 7)) subs.cache

/-- One side's five fields in the fields given (R131). -/
def packSide (inc size len prot cache : BitField) (sh : Shape) : Word :=
  inc.put sh.inc.toNat ||| size.put (Nat.log2 sh.burstSize) ||| len.put (sh.burstLen - 1)
    ||| prot.put sh.prot ||| cache.put sh.cache

/-- The CCR word (R136): each side from its own inputs into its own positions (R132); the endian-swap field is 0. -/
def packCcr (l : CcrLayout) (src dst : Shape) : Word :=
  packSide l.srcInc l.srcSize l.srcLen l.srcProt l.srcCache src
    ||| packSide l.dstInc l.dstSize l.dstLen l.dstProt l.dstCache dst ||| l.endian.put 0

/-- `BuildCCR` (R130, R136): source side completely before destination side, the first failing check reported. -/
def buildCcr (p : Params) (cfg : TransferConfig) : Except Err Word := do
  checkSide p srcSubs cfg.srcShape
  checkSide p dstSubs cfg.dstShape
  .ok (packCcr p.ccrLayout cfg.srcShape cfg.dstShape)

/-- `MemToMemDefault` (R137). -/
def memToMemDefault (p : Params) (src dst size : Word) : TransferConfig :=
  let side : Shape := ⟨p.maxBurstSize, p.maxBurstLen, true, p.defaultProt, p.defaultCache⟩
  { src := src, dst := dst, size := size, kind := .memToMem, srcShape := side, dstShape := side }

end Sys2Proof.Machine
end

