-- ==== Sys2Proof/Machine/Decompose.lean ====
section
/-! DEFINITION. The loop decomposition engine: burst count, nests and their emission items (spec 42). -/
namespace Sys2Proof.Machine

/-- Bytes per burst of one side (R151). -/
def Shape.bpb (sh : Shape) : Nat := sh.burstSize * sh.burstLen

/-- `a div b`; by 0 a free value (log 20). -/
def divide (a b : Nat) : Nat := if b = 0 then Config.divByZero a else a / b

/-- `a mod b`; by 0 a free value (log 20). -/
def remainder (a b : Nat) : Nat := if b = 0 then Config.modByZero a else a % b

/-- The burst count B, by the source side's shape (R151). -/
def burstCount (cfg : TransferConfig) : Nat := divide cfg.size.toNat cfg.srcShape.bpb

/-- The engine's checks, kind first, then AL_SIZE, then AL_SHAPE (R152, R153). -/
def checkDecompose (cfg : TransferConfig) : Except Err Unit :=
  if cfg.kind ≠ .memToMem then .error .unsupportedTransferKind
  else if remainder cfg.size.toNat cfg.srcShape.bpb ≠ 0 then .error (.alignmentError .size)
  else if cfg.dstShape.bpb ≠ cfg.srcShape.bpb then .error (.alignmentError .shape)
  else .ok ()

/-- `LOOP_MAX`: iterations of one loop counter (R9). -/
abbrev loopMax : Nat := 256

/-- `FULL`: iterations of one full two-level nest (R9). -/
abbrev fullBlock : Nat := 65536

/-- The nests of what full blocks leave, r < 65536 (R154). -/
def remainderNests (r : Nat) : List (Nat × Nat) :=
  (if loopMax ≤ r then [(r / loopMax, loopMax)] else [])
    ++ (if 0 < r % loopMax then [(1, r % loopMax)] else [])

/-- The nest list of a burst count, each nest `(outer, inner)` (R154). -/
def nests (count : Nat) : List (Nat × Nat) :=
  List.replicate (count / fullBlock) (loopMax, loopMax) ++ remainderNests (count % fullBlock)

/-- What one nest emits (R155 to R158): LC1 around LC0 around the body, the outer loop only when outer > 1. -/
def nestItems (nest : Nat × Nat) : List Emit :=
  (if 1 < nest.1 then [.call (.lp 1 nest.1)] else [])
    ++ [.call (.lp 0 nest.2), .call .ld, .call .rmb, .call .st, .call .wmb, .loopEnd 0]
    ++ (if 1 < nest.1 then [.loopEnd 1] else [])

/-- Everything the engine emits for a burst count, nests one after another (R154). -/
def decomposeItems (count : Nat) : List Emit := (nests count).flatMap nestItems

/-- `n(B)`, the number of bytes the engine writes (R161). -/
def nestBytes (count : Nat) : Nat :=
  12 * (count / fullBlock)
    + (if loopMax ≤ count % fullBlock then (if 1 < count % fullBlock / loopMax then 12 else 8) else 0)
    + (if 0 < count % loopMax then 8 else 0)

end Sys2Proof.Machine
end

