-- ==== Sys2Proof/Machine/Emission.lean ====
section
/-! DEFINITION. Emission: a cursor and two loop records advance over a list of items, one instruction at a time
(spec 10_state R22, R23; 42 R156). -/
namespace Sys2Proof.Machine

/-- The cursor and the loop records of an emission. -/
structure Cursor where
  off : Nat
  lr0 : Option LoopRec
  lr1 : Option LoopRec
  deriving DecidableEq, Repr

/-- LR[r]. -/
def Cursor.lr (c : Cursor) (r : Nat) : Option LoopRec := if r = 0 then c.lr0 else c.lr1

/-- `bj(p, s)`: the backjump of a loop-end at offset `p` whose loop body starts at `s` (R156). -/
def backjump (origin : BjumpOrigin) (p s : Nat) : Nat :=
  match origin with
  | .afterLpend => (p + 2) - s
  | .atLpend => p - s

/-- The encode call of an item at this cursor. A loop-end without a loop record does not arise (R23): none. -/
def Cursor.callOf (c : Cursor) (origin : BjumpOrigin) : Emit → Option EncCall
  | .call e => some e
  | .loopEnd r => (c.lr r).map fun lrec => .lpend r 0 0 (backjump origin c.off lrec.startOff)

/-- The cursor after `n` bytes of a call: a loop-start records its loop (R23). -/
def Cursor.advance (c : Cursor) (e : EncCall) (n : Nat) : Cursor :=
  match e with
  | .lp r count =>
    let lrec : LoopRec := ⟨BitVec.ofNat 8 (count - 1), c.off + n⟩
    if r = 0 then { c with off := c.off + n, lr0 := some lrec } else { c with off := c.off + n, lr1 := some lrec }
  | _ => { c with off := c.off + n }

/-- The bytes a list of items comes to from a cursor on, and the cursor after them; none if an encode operation would
refuse an item. -/
def emitAll (o : Opc) (origin : BjumpOrigin) : List Emit → Cursor → Option (List Byte × Cursor)
  | [], c => some ([], c)
  | item :: items, c =>
    match c.callOf origin item with
    | none => none
    | some e =>
      match encBytes o e with
      | .error _ => none
      | .ok bytes =>
        match emitAll o origin items (c.advance e bytes.length) with
        | none => none
        | some (rest, c') => some (bytes ++ rest, c')

def EmitJob.cursor (j : EmitJob) : Cursor := ⟨j.off, j.lr0, j.lr1⟩

/-- An emission of `n` bytes from offset `o` on with the loop records unset (R47). -/
def newEmission (buf : Buffer) (o n : Nat) (items : List Emit) (compiling : Bool) : EmitJob :=
  { buf := buf, start := o, len := n, off := o, lr0 := none, lr1 := none, todo := items, compiling := compiling }

/-- Host context `i` begins to write `n` bytes from offset `o` on. -/
def State.beginEmission (s : State) (i : Nat) (buf : Buffer) (o n : Nat) (items : List Emit) (compiling : Bool) : State :=
  s.modifyHost i fun h => { h with job := .emit (newEmission buf o n items compiling) }

/-- The device addresses of the bytes an emission comes to, as far as its buffer goes (R42). -/
def EmitJob.part (j : EmitJob) : AddrRange := ⟨j.buf.base + j.start, min j.len (j.buf.cap - j.start)⟩

/-- A host write of the byte at offset `o` of the buffer lands (R264, R266). -/
def State.lands (s : State) (buf : Buffer) (o : Nat) : Bool := decide (o < buf.cap) && !s.hostWriteBarred (buf.base + o)

/-- When the first byte of an emission lands, what the addresses of all its bytes held before counts no more as written
bytes of a program (R60): DESIGN CHOICE (log 16), so that a build which is half done, or which faulted midway, is no
written program, whatever stood there and whichever of these bytes is in flight. -/
def State.overwrite (s : State) (j : EmitJob) : State :=
  if j.off = j.start && s.lands j.buf j.off then { s with stored := s.stored.filter fun a => !j.part.has a } else s

/-- One step of host context `i`'s emission: write the next instruction at the cursor, or return the number of bytes
written. A typed error of the encoder writes nothing (R100); a refused byte write is a fault of the context, and so is
going on with a Compile in whose buffer a program has been started since (R264; DESIGN CHOICE, log 32). -/
def State.emitStep (s : State) (i : Nat) (j : EmitJob) : State :=
  match j.todo with
  | [] => s.finish i (.ok (j.off - j.start))
  | item :: items =>
    if j.compiling && s.bufferInFlight j.buf then s.raiseFault (.host i) .programMutatedInFlight
    else
      match j.cursor.callOf s.params.bjumpOrigin item with
      | none => s
      | some e =>
        match encBytes s.params.opc e with
        | .error err => s.finish i (.err err)
        | .ok bytes =>
          match (s.overwrite j).bufWrite j.buf j.off bytes with
          | (t, some r) => t.raiseFault (.host i) r
          | (t, none) =>
            let c := j.cursor.advance e bytes.length
            t.modifyHost i fun h =>
              { h with job := .emit { j with off := c.off, lr0 := c.lr0, lr1 := c.lr1, todo := items } }

end Sys2Proof.Machine
end

