-- ==== Sys2Proof/Machine/Compiler.lean ====
section
/-! DEFINITION. The program compiler (spec 43). -/
namespace Sys2Proof.Machine

/-- Every check of Compile, before any byte is written (R171): the CCR, the kind, the alignment. -/
def compileChecks (p : Params) (cfg : TransferConfig) : Except Err Word := do
  let ccr ← buildCcr p cfg
  checkDecompose cfg
  .ok ccr

/-- The emission sequence of R172. -/
def compileItems (p : Params) (cfg : TransferConfig) (ccr : Word) : List Emit :=
  [.call (.mov 1 ccr), .call (.mov 0 cfg.src), .call (.mov 2 cfg.dst)]
    ++ decomposeItems (burstCount cfg)
    ++ [.call (.sev p.completionEvent), .call .fin]

/-- The length Compile returns (R174). -/
def programLength (cfg : TransferConfig) : Nat := 21 + nestBytes (burstCount cfg)

/-- The bytes `Compile` writes (R170, R172), as a function; none where a check refuses. -/
def compileBytes (p : Params) (cfg : TransferConfig) : Option (List Byte) :=
  match compileChecks p cfg with
  | .error _ => none
  | .ok ccr => (emitAll p.opc p.bjumpOrigin (compileItems p cfg ccr) ⟨0, none, none⟩).map Prod.fst

/-- `Compile` is called (R170): a buffer whose program may still run is a fault (R177, R264), then the checks, then
the emission from offset 0. -/
def State.startCompile (s : State) (i : Nat) (buf : Buffer) (cfg : TransferConfig) : State :=
  if s.bufferInFlight buf then s.raiseFault (.host i) .programMutatedInFlight
  else
    match compileChecks s.params cfg with
    | .error e => s.finish i (.err e)
    | .ok ccr => s.beginEmission i buf 0 (programLength cfg) (compileItems s.params cfg ccr) true

/-- `Decompose` is called by itself (R150). -/
def State.startDecompose (s : State) (i : Nat) (buf : Buffer) (o : Nat) (cfg : TransferConfig) : State :=
  match checkDecompose cfg with
  | .error e => s.finish i (.err e)
  | .ok _ => s.beginEmission i buf o (nestBytes (burstCount cfg)) (decomposeItems (burstCount cfg)) false

/-- An encode operation is called by itself (R100). -/
def State.startEncode (s : State) (i : Nat) (buf : Buffer) (o : Nat) (c : EncCall) : State :=
  match encBytes s.params.opc c with
  | .error e => s.finish i (.err e)
  | .ok bytes => s.beginEmission i buf o bytes.length [.call c] false

end Sys2Proof.Machine
end

