-- ==== Sys2Proof/Machine/Submit.lean ====
section
/-! DEFINITION. The submission protocol (spec 44): argument checks, one DBGSTATUS read, DMAGO into the staging buffer,
two injection writes and the trigger write, one register access a step (log 19). -/
namespace Sys2Proof.Machine

/-- The context stands between its DBGSTATUS read and its DBGCMD write (R192, R268). DESIGN CHOICE (log 33): a context
that faulted there still does; the spec does not say whether a sequence that will never go on is in progress. -/
def HostCtx.onPath (h : HostCtx) : Bool :=
  match h.job with
  | .submit _ => true
  | _ => false

/-- Another context than `i` stands inside its submission (R268). -/
def State.pathTaken (s : State) (i : Nat) : Bool :=
  (List.range s.hosts.length).any fun k => k ≠ i && (s.hosts[k]?.any fun h => h.onPath)

/-- The argument checks of R182, before any register access. -/
def submitChecks (p : Params) (chan ns : Nat) : Except Err Unit := do
  check (decide (chan < p.nChannels)) .submitChan
  check (decide (ns ≤ 1)) .goNs

/-- `Submit` is called (R181 to R183): checks, then the one busy poll. -/
def State.startSubmit (s : State) (i chan : Nat) (addr : Word) (ns : Nat) : State :=
  match submitChecks s.params chan ns with
  | .error e => s.finish i (.err e)
  | .ok _ =>
    if s.pathTaken i then s.raiseFault (.host i) .concurrentSubmission
    else
      match s.regRead s.params.regs.dbgstatus with
      | .error r => s.raiseFault (.host i) r
      | .ok (v, t) =>
        if isBusy s.params.regs v then t.finish i (.err .deviceBusy)
        else t.modifyHost i fun h => { h with job := .submit ⟨chan, addr, ns, .inst0⟩ }

/-- The value of DBGINST0 for the staged DMAGO (R185). -/
def stagedInst0 (m : RegMap) (stage : List Byte) : Word := m.packInst0 (stage.getD 0 0) (stage.getD 1 0)

/-- The value of DBGINST1 for the staged DMAGO (R186). -/
def stagedInst1 (m : RegMap) (stage : List Byte) : Word :=
  m.packInst1 (stage.getD 2 0) (stage.getD 3 0) (stage.getD 4 0) (stage.getD 5 0)

/-- The next register write of host context `i`'s submission (R184 to R187). -/
def State.submitWrite (s : State) (i : Nat) (j : SubmitJob) : Except Fault State :=
  match j.phase with
  | .inst0 =>
    match encGo s.params.opc j.ns j.chan j.addr with
    | .error e => .ok (s.finish i (.err e))
    | .ok stage => do
      let t ← s.regWrite s.params.regs.dbginst0 (stagedInst0 s.params.regs stage)
      .ok (t.modifyHost i fun h => { h with stage := stage, job := .submit { j with phase := .inst1 } })
  | .inst1 => do
    let stage := (s.hosts[i]?.map HostCtx.stage).getD []
    let t ← s.regWrite s.params.regs.dbginst1 (stagedInst1 s.params.regs stage)
    .ok (t.modifyHost i fun h => { h with job := .submit { j with phase := .cmd } })
  | .cmd =>
    if s.allVisible (s.programAt j.addr.toNat) then do
      let t ← s.regWrite s.params.regs.dbgcmd s.params.regs.trigger
      .ok ({ t with flights := t.flights ++ [Flight.mk j.chan (s.programAt j.addr.toNat) false] }.finish i (.ok 0))
    else .error .programNotVisible

/-- One step of host context `i`'s submission. -/
def State.submitStep (s : State) (i : Nat) (j : SubmitJob) : State :=
  if s.pathTaken i then s.raiseFault (.host i) .concurrentSubmission
  else
    match s.submitWrite i j with
    | .ok t => t
    | .error r => s.raiseFault (.host i) r

end Sys2Proof.Machine
end

