-- ==== Sys2Proof/Machine/Host.lean ====
section
/-! DEFINITION. Host contexts: starting an operation, going on with one, and the external collaborators' interfaces
(spec 44 R195, R196; 60 R237; 70 R261 to R264). -/
namespace Sys2Proof.Machine

/-- A value the spec leaves unspecified, at draw `n`. -/
def freeAt (n : Nat) : Word := Config.freeWord n

/-- A Faulted status is never cleared (R245); otherwise the channel is Stopped. -/
def statusAfterReset : Status → Status
  | .stopped => .stopped
  | .executing => .stopped
  | .faulted r => .faulted r

/-- A channel after an external controller reset: as before any DMAGO, its pc unspecified (R261, U31). -/
def chanAfterReset (ch : Chan) (pc : Word) : Chan := { Chan.reset with pc := pc, status := statusAfterReset ch.status }

/-- External controller reset (R261, U31): every channel register ⊥, window registers unspecified (free values, log
21), programs in flight abandoned. The Faulted states of the model stay (R245). -/
def State.controllerReset (s : State) : State :=
  let n := s.drawCount
  { s with
    chans := Vector.ofFn fun k => chanAfterReset (s.chan k) (freeAt (n + k.val))
    dbgBusy := false
    dbginst0 := freeAt (n + 8)
    dbginst1 := freeAt (n + 9)
    dbgcmd := freeAt (n + 10)
    inten := freeAt (n + 11)
    irq := freeAt (n + 12)
    flights := s.flights.map fun f => { f with abandoned := true }
    drawCount := n + 13 }

/-- A submission to channel `chan` is in flight and not abandoned. -/
def State.awaited (s : State) (chan : Nat) : Bool :=
  s.flights.any fun f => f.chan == chan && !f.abandoned

/-- The run of channel `c` has ended (R215): Stopped after a DMAEND. A Faulted status is never an end. -/
def Chan.runEnded (ch : Chan) : Bool := decide (ch.status = .stopped) && ch.ended

/-- An injected DMAGO is still to start channel `chan` through the manager: the run that was submitted last has not begun
(R189). DESIGN CHOICE (log 17): so it stays after the manager faulted on that DMAGO; the runs that ended on that channel
before are then not observed any more. -/
def State.starting (s : State) (chan : Nat) : Bool :=
  s.dbgBusy && s.debugChannel.isNone &&
    match s.injected with
    | .ok (.dmago _ c _) => c == chan
    | _ => false

/-- The run that was submitted to channel `chan` has ended (R215; log 17). -/
def State.ended (s : State) (chan : Nat) : Bool :=
  if h : chan < 8 then (s.chan ⟨chan, h⟩).runEnded && !s.starting chan else false

/-- The completion observation (R195, R264): "has it finished". Once it has, its ranges are the host's again. DESIGN CHOICE
(log 17): each end is observed once, so a channel with no submission awaited answers 0, whatever its last run came to. -/
def State.observe (s : State) (i chan : Nat) : State :=
  if s.awaited chan && s.ended chan then
    { s with flights := s.flights.filter fun f => !(f.chan == chan && !f.abandoned) }.finish i (.ok 1)
  else s.finish i (.ok 0)

/-- A collaborator's register access, its value the operation's result. -/
def State.intenRead (s : State) (i : Nat) : State :=
  match s.regRead s.params.regs.inten with
  | .ok (v, t) => t.finish i (.ok v.toNat)
  | .error r => s.raiseFault (.host i) r

def State.intenWrite (s : State) (i : Nat) (v : Word) : State :=
  match s.regWrite s.params.regs.inten v with
  | .ok t => t.finish i (.ok 0)
  | .error r => s.raiseFault (.host i) r

/-- A host write of one byte of device memory (R264). -/
def State.writeByte (s : State) (i a : Nat) (v : Byte) : State :=
  match s.hostStore a v with
  | .ok t => t.finish i (.ok 0)
  | .error r => s.raiseFault (.host i) r

/-- A host read of one byte of device memory (R264). -/
def State.readByte (s : State) (i a : Nat) : State :=
  if s.hostReadBarred a then s.raiseFault (.host i) .programMutatedInFlight
  else s.finish i (.ok (Memory.read s.mem a).toNat)

/-- The channel allocator's answer, given to the caller unchanged (R195, R196). -/
def allocatorResult : Option Nat → OpResult
  | some chan => .ok chan
  | none => .err .resourceExhausted

/-- Host context `i` starts an operation; one that takes no further step returns at once. -/
def State.startOp (s : State) (i : Nat) : HostOp → State
  | .encode buf o c => s.startEncode i buf o c
  | .buildCcr cfg =>
    match buildCcr s.params cfg with
    | .ok ccr => s.finish i (.ok ccr.toNat)
    | .error e => s.finish i (.err e)
  | .decompose buf o cfg => s.startDecompose i buf o cfg
  | .compile buf cfg => s.startCompile i buf cfg
  | .submit chan addr ns => s.startSubmit i chan addr ns
  | .makeVisible range => { s with dirty := s.dirty.filter fun a => !range.has a }.finish i (.ok 0)
  | .hostWrite a v => s.writeByte i a.toNat v
  | .hostRead a => s.readByte i a.toNat
  | .observe chan => s.observe i chan
  | .allocate answer => s.finish i (allocatorResult answer)
  | .writeInten v => s.intenWrite i v
  | .readInten => s.intenRead i
  | .clearIrq n => { s with irq := clearIrqLine s.irq n }.finish i (.ok 0)
  | .resetController => s.controllerReset.finish i (.ok 0)
  | .quiesced => { s with flights := s.flights.filter fun f => !f.abandoned }.finish i (.ok 0)

/-- One step of host context `i`. A faulted context makes no step (R245); one with nothing to do waits. -/
def State.hostStep (s : State) (i : Nat) : State :=
  match s.hosts[i]? with
  | none => s
  | some h =>
    if h.fault.isSome then s
    else
      match h.job with
      | .emit j => s.emitStep i j
      | .submit j => s.submitStep i j
      | .idle =>
        match h.ops with
        | [] => s
        | op :: ops => (s.modifyHost i fun h => { h with ops := ops, result := none }).startOp i op

end Sys2Proof.Machine
end

