-- ==== Sys2Proof/Machine/Threads.lean ====
section
/-! DEFINITION. The threads of the controller and the order of the agents (spec 45 R214; 44 R189; 00 R8): what the
step does around exec. -/
namespace Sys2Proof.Machine

/-- An instruction's answer as the thread's step: a fault stops the thread (R12, R245), its state otherwise as before
the instruction (log 8). -/
def State.settle (s : State) (t : Thread) : Out → Out
  | .next s' => .next s'
  | .fault r => .next (s.raiseFault (.thread t) r)
  | .refused r => .refused r

/-- Run a fetched instruction on thread `cur`. -/
def State.runFetched (s : State) : Except Fault Instr → Out
  | .ok i => s.settle s.cur (exec i s)
  | .error r => .next (s.raiseFault (.thread s.cur) r)

/-- Thread `t` executes the injected instruction (R37, R189): exec of it on that thread, after which the busy bit of
DBGSTATUS returns to 0. After a fault it stays 1 (log 15). -/
def State.runInjected (s : State) (t : Thread) : Out :=
  let u : State := { s with cur := t }
  match u.injected with
  | .error r => .next (u.raiseFault (.thread t) r)
  | .ok i =>
    match exec i u with
    | .next s' => .next { s' with dbgBusy := false }
    | .fault r => .next (u.raiseFault (.thread t) r)
    | .refused r => .refused r

/-- Channel thread `c` is in its Faulted state. -/
def Chan.isFaulted (ch : Chan) : Bool :=
  match ch.status with
  | .faulted _ => true
  | _ => false

/-- An injected instruction waits for channel thread `c` (R38); a Faulted one makes no step (R245). -/
def State.debugFor (s : State) (c : Fin 8) : Bool :=
  s.dbgBusy && decide (s.debugChannel = some c.val) && decide (c.val < s.params.nChannels) && !(s.chan c).isFaulted

/-- A channel's step: an injected instruction that waits for it (R37, R38; log 14); else, while Executing, fetch, decode,
perform (R214). Otherwise it waits. -/
def State.channelStep (s : State) (c : Fin 8) : Out :=
  if s.debugFor c then s.runInjected (.channel c)
  else if (s.chan c).status = .executing then
    let t : State := { s with cur := .channel c }
    t.runFetched (t.fetch (s.chan c).pc)
  else .next s

/-- An injected instruction waits for the manager thread: it is the manager's, or for a channel the controller lacks, whose
error the manager then takes (R38, R246; log 14). -/
def State.debugForManager (s : State) : Bool :=
  s.dbgBusy && s.mgrFault.isNone && s.debugChannel.all fun c => decide (s.params.nChannels ≤ c)

/-- The manager's step (R189): execute the injected instruction. -/
def State.managerStep (s : State) : Out :=
  if s.debugForManager then
    match s.debugChannel with
    | none => s.runInjected .manager
    | some _ => .next (s.raiseFault (.thread .manager) .controllerFault)
  else .next s

/-- One step of an agent (R8). -/
def State.agentStep (s : State) : Agent → Out
  | .host i => .next (s.hostStep i)
  | .thread .manager => s.managerStep
  | .thread (.channel c) => s.channelStep c

/-- Host context with something to do. -/
def HostCtx.active (h : HostCtx) : Bool := h.fault.isNone && (decide (h.job ≠ .idle) || !h.ops.isEmpty)

/-- A channel thread has something to do. -/
def State.channelActive (s : State) (c : Fin 8) : Bool :=
  s.debugFor c || decide ((s.chan c).status = .executing)

/-- Who moves when `sched` says nothing: the manager if it has an instruction, else the first channel thread with
something to do, else the first active host context (DESIGN CHOICE: the order is free, R214; log 7). -/
def State.defaultAgent (s : State) : Agent :=
  if s.debugForManager then .thread .manager
  else
    match (List.finRange 8).find? s.channelActive with
    | some c => .thread (.channel c)
    | none => .host (s.hosts.findIdx HostCtx.active)

/-- Who moves next. -/
def State.mover (s : State) : Agent := s.sched.headD s.defaultAgent

/-- One step of the machine: the agent `sched` names next, and its step. -/
def State.schedStep (s : State) : Out := { s with sched := s.sched.tail }.agentStep s.mover

/-- Where withFetchWord puts an instruction for channel 0: at its pc, or at 0 where six bytes do not fit there. -/
def fetchPlace (pc : Word) : Word := if pc.toNat + maxInstrLen ≤ addrSpace then pc else 0

/-- An instruction for channel 0, loaded from outside: its bytes at the channel's pc, the channel executing and next to
move, nothing injected that it would execute first (log 6). -/
def State.placeForChannel (s : State) (bytes : List Byte) : State :=
  let pc := fetchPlace (s.chan 0).pc
  { s with
    mem := Memory.writeBytes s.mem pc.toNat bytes
    dbgBusy := s.dbgBusy && decide (s.debugChannel ≠ some 0)
    sched := [.thread (.channel 0)] }.setChan 0 { s.chan 0 with pc := pc, status := .executing }

/-- A manager instruction: its bytes in the injection registers, as after a trigger write, and the manager next to
move (R189; log 6). -/
def State.placeForManager (s : State) (bytes : List Byte) : State :=
  { s with
    dbginst0 := stagedInst0 s.params.regs bytes
    dbginst1 := stagedInst1 s.params.regs bytes
    dbgBusy := true
    mgrFault := none
    sched := [.thread .manager] }

/-- Place instruction bytes where the next step runs them: DMAGO on the manager, everything else on channel 0. -/
def State.place (s : State) (bytes : List Byte) : State :=
  match s.params.opc.headOf (bytes.headD 0) with
  | some (.go _) => s.placeForManager bytes
  | _ => s.placeForChannel bytes

end Sys2Proof.Machine
end

