-- ==== Sys2Proof/Machine/Step.lean ====
section
/-! DEFINITION. The step of the machine, and where an instruction stands that the next step runs. -/
namespace Sys2Proof.Machine

/-- One step: the next agent's (R8, R214). -/
def step (s : State) : Host.Outcome State Fault Refusal := s.schedStep

/-- The same state with an instruction of the opcode table stored where the next step takes it from (log 6). -/
def State.withFetchWord (s : State) (nbits w : Nat) : State := s.place (tableBytes nbits w)

end Sys2Proof.Machine
end

