-- ==== Sys2Proof/Safety.lean ====
section
/-! DEFINITION. What counts as a safe state and as the end of a run, in the terms the statements use. -/
namespace Sys2Proof.Machine

/-- What holds of every channel: the fifo within `MFIFO_BYTES` (R205), the event set within 0..31 and held rising
(R200). -/
structure Chan.Inv (p : Params) (ch : Chan) : Prop where
  fifo_fits : ch.fifo.length ≤ p.mfifoBytes
  events_rising : ch.events.Pairwise (· < ·)
  events_range : ∀ e ∈ ch.events, e ≤ 31

/-- What every step keeps: memory in canonical form inside the address space (R44, R213), the not-yet-visible
and the written addresses held rising, every channel as above, and the channels the controller lacks never started (R9, R189). -/
structure State.Inv (s : State) : Prop where
  mem_wf : Memory.wf s.mem = true
  mem_in_space : ∀ p ∈ s.mem, p.1 < addrSpace
  dirty_rising : s.dirty.Pairwise (· < ·)
  stored_rising : s.stored.Pairwise (· < ·)
  chan_inv : ∀ c, (s.chan c).Inv s.params
  absent_stopped : ∀ c : Fin 8, s.params.nChannels ≤ c.val → (s.chan c).status = .stopped

/-- Agent `a` is in its Faulted state, for reason `r` (R245). -/
def State.FaultedFor (s : State) (a : Agent) (r : Fault) : Prop :=
  match a with
  | .host i => (s.hosts[i]?).bind HostCtx.fault = some r
  | .thread .manager => s.mgrFault = some r
  | .thread (.channel c) => (s.chan c).status = .faulted r

/-- No agent is Faulted. -/
def State.FaultFree (s : State) : Prop := ∀ a r, ¬ s.FaultedFor a r

/-- The run of channel `c` has ended (R215): Stopped after a DMAEND, with no fault; a Faulted status is never an end. -/
def State.RunEnded (s : State) (c : Fin 8) : Prop := (s.chan c).status = .stopped ∧ (s.chan c).ended = true

/-- `n` steps of host context `i` with no other agent in between. -/
def State.hostRun (s : State) (i : Nat) : Nat → State
  | 0 => s
  | n + 1 => (s.hostStep i).hostRun i n

/-- Host context `i` is about to start operation `op` (R13): idle, not Faulted. -/
def State.aboutTo (s : State) (i : Nat) (op : HostOp) : Prop :=
  ∃ h ops, s.hosts[i]? = some h ∧ h.fault = none ∧ h.job = .idle ∧ h.ops = op :: ops

/-- What host context `i` last returned. -/
def State.returned (s : State) (i : Nat) : Option OpResult := (s.hosts[i]?).bind HostCtx.result

/-- A shape every check of the config builder accepts (R24, R133 to R135). -/
def Shape.Legal (p : Params) (sh : Shape) : Prop :=
  (∃ k, sh.burstSize = 2 ^ k) ∧ sh.burstSize ≤ p.maxBurstSize ∧ 1 ≤ sh.burstLen ∧ sh.burstLen ≤ p.maxBurstLen ∧
    sh.prot ≤ 7 ∧ sh.cache ≤ 7

/-- The address of beat `j` of a burst of `width`-byte beats from `base` (R205, R206). -/
def beatAddr (inc : Bool) (base width j : Nat) : Nat := if inc then base + j * width else base

end Sys2Proof.Machine
end

