-- ==== Sys2Proof/Certificates/Slice0/Obligations.lean ====
section
/-! DEFINITION. The statements for the provers, each from the numbered rules of spec/. -/
open Sys2Proof Sys2Proof.Machine

/-! ## Decoding and encoding (30_encoding) -/

/-- Decoding what the encoder writes for a well-formed instruction gives it back, whatever follows, for every opcode
table under which byte 0 selects the instruction (R71, R72, R77, R79). -/
def Obligations.DecodeOfEncodeGivesTheInstruction : Prop :=
  ∀ (o : Opc) (i : Instr) (rest : List Byte), o.legal → i.wf = true → decode o (encode o i ++ rest) = .ok (i, rest)

/-- Bytes that decode are exactly the encoding of the instruction they decode to, which is well-formed (R72, R77). -/
def Obligations.EncodeOfDecodeGivesTheBytes : Prop :=
  ∀ (o : Opc) (bytes : List Byte) (i : Instr) (rest : List Byte),
    decode o bytes = .ok (i, rest) → i.wf = true ∧ bytes = encode o i ++ rest

/-- Byte 0 alone tells the length (R76): it is the number of bytes decoding takes, and with that many bytes decoding
never asks for more. -/
def Obligations.FirstByteTellsTheLength : Prop :=
  ∀ (o : Opc) (b0 : Byte) (bytes : List Byte),
    (∀ i rest, decode o (b0 :: bytes) = .ok (i, rest) →
      instrLen o b0 = some (encode o i).length ∧ bytes.length + 1 = (encode o i).length + rest.length) ∧
    (instrLen o b0 = none → decode o (b0 :: bytes) = .error (.undecodable b0)) ∧
    (∀ n, instrLen o b0 = some n → (decode o (b0 :: bytes) = .error .truncated ↔ bytes.length + 1 < n))

/-- Reserved encodings are Undecodable: a byte 0 outside the subset (R78), and the reserved byte-1 forms of R77. -/
def Obligations.ReservedEncodingsAreUndecodable : Prop :=
  (∀ (b0 : Byte) (rest : List Byte),
    b0 ∉ [0x00#8, 0x04#8, 0x08#8, 0x12#8, 0x13#8, 0x20#8, 0x22#8, 0x34#8, 0x38#8, 0x39#8, 0x3B#8, 0x3C#8, 0x3D#8,
      0x3F#8, 0xA0#8, 0xA2#8, 0xBC#8] → decode Opc.spec (b0 :: rest) = .error (.undecodable b0)) ∧
  (∀ (b1 i0 i1 i2 i3 : Byte) (rest : List Byte), 3 ≤ b1.toNat →
    decode Opc.spec (0xBC#8 :: b1 :: i0 :: i1 :: i2 :: i3 :: rest) = .error (.undecodable 0xBC)) ∧
  (∀ (b0 b1 i0 i1 i2 i3 : Byte) (rest : List Byte), b0 = 0xA0#8 ∨ b0 = 0xA2#8 → 8 ≤ b1.toNat →
    decode Opc.spec (b0 :: b1 :: i0 :: i1 :: i2 :: i3 :: rest) = .error (.undecodable b0)) ∧
  (∀ (b1 : Byte) (rest : List Byte), b1.toNat % 8 ≠ 0 →
    decode Opc.spec (0x34#8 :: b1 :: rest) = .error (.undecodable 0x34))

/-- Words written out from R71 and R72 decode to what they stand for. -/
def Obligations.SampleWordsDecode : Prop :=
  decode Opc.spec [0x00] = .ok (.dmaend, []) ∧ decode Opc.spec [0x04] = .ok (.dmald, []) ∧
  decode Opc.spec [0x08] = .ok (.dmast, []) ∧ decode Opc.spec [0x22, 0x0F] = .ok (.dmalp .lc1 16, []) ∧
  decode Opc.spec [0x3C, 0x0A] = .ok (.dmalpend .lc1 10, []) ∧ decode Opc.spec [0x34, 0x28] = .ok (.dmasev 5, []) ∧
  decode Opc.spec [0xBC, 0x02, 0xEF, 0xBE, 0xAD, 0xDE] = .ok (.dmamov .dar 0xDEADBEEF, []) ∧
  decode Opc.spec [0xA2, 0x03, 0x78, 0x56, 0x34, 0x12] = .ok (.dmago true 3 0x12345678, [])

/-! ## The encoder (40_encoder) -/

/-- What an encode operation writes is the encoding of the instruction its arguments name (R101 to R111). -/
def Obligations.EncodeOperationsWriteTheEncoding : Prop :=
  ∀ (o : Opc) (c : EncCall) (bytes : List Byte), encBytes o c = .ok bytes →
    c.instr.wf = true ∧ bytes = encode o c.instr

/-- The arguments each encode operation accepts: the selector sets of R112 and the ranges of R79. -/
def Obligations.EncodeOperationsAcceptExactlyTheLegalArguments : Prop :=
  ∀ o : Opc,
    (∀ rd imm, (∃ bytes, encBytes o (.mov rd imm) = .ok bytes) ↔ rd ≤ 2) ∧
    (∀ lc count, (∃ bytes, encBytes o (.lp lc count) = .ok bytes) ↔ lc ≤ 1 ∧ 1 ≤ count ∧ count ≤ 256) ∧
    (∀ lc mode cond bjump, (∃ bytes, encBytes o (.lpend lc mode cond bjump) = .ok bytes) ↔
      lc ≤ 1 ∧ mode = 0 ∧ cond ≤ 2 ∧ 1 ≤ bjump ∧ bjump ≤ 255) ∧
    (∀ ns chan addr, (∃ bytes, encBytes o (.go ns chan addr) = .ok bytes) ↔ chan ≤ 7 ∧ ns ≤ 1) ∧
    (∀ ev, (∃ bytes, encBytes o (.sev ev) = .ok bytes) ↔ ev ≤ 31)

/-- The first failing check is the one reported (R233, the encode operations' line). -/
def Obligations.EncodeErrorsInCheckOrder : Prop :=
  ∀ o : Opc,
    (∀ lc count, 1 < lc → encBytes o (.lp lc count) = .error (.invalidField .lpSel)) ∧
    (∀ lc count, lc ≤ 1 → (count < 1 ∨ 256 < count) → encBytes o (.lp lc count) = .error (.invalidField .lpCount)) ∧
    (∀ lc mode cond bjump, 1 < lc → encBytes o (.lpend lc mode cond bjump) = .error (.invalidField .lpendSel)) ∧
    (∀ lc mode cond bjump, lc ≤ 1 → mode ≠ 0 →
      encBytes o (.lpend lc mode cond bjump) = .error (.invalidField .lpendMode)) ∧
    (∀ lc cond bjump, lc ≤ 1 → 2 < cond → encBytes o (.lpend lc 0 cond bjump) = .error (.invalidField .lpendCond)) ∧
    (∀ lc cond bjump, lc ≤ 1 → cond ≤ 2 → (bjump < 1 ∨ 255 < bjump) →
      encBytes o (.lpend lc 0 cond bjump) = .error (.invalidField .lpendBjump)) ∧
    (∀ ns chan addr, 7 < chan → encBytes o (.go ns chan addr) = .error (.invalidField .goChan)) ∧
    (∀ ns chan addr, chan ≤ 7 → 1 < ns → encBytes o (.go ns chan addr) = .error (.invalidField .goNs))

/-- Re-reading bytes 2 to 5 of an encoded DMAMOV or DMAGO gives the immediate, and that is the DBGINST1 word (R52). -/
def Obligations.ImmediateIsReadBack : Prop :=
  (∀ (o : Opc) (rd : Nat) (imm : Word) (bytes : List Byte), encBytes o (.mov rd imm) = .ok bytes →
    le32 (bytes.getD 2 0) (bytes.getD 3 0) (bytes.getD 4 0) (bytes.getD 5 0) = imm) ∧
  (∀ (o : Opc) (ns chan : Nat) (addr : Word) (bytes : List Byte), encBytes o (.go ns chan addr) = .ok bytes →
    le32 (bytes.getD 2 0) (bytes.getD 3 0) (bytes.getD 4 0) (bytes.getD 5 0) = addr ∧
    stagedInst1 RegMap.spec bytes = addr)

/-- An encode operation and a Decompose called by themselves, run step by step, write exactly their bytes from offset `o`
on, touch no other byte and no register, and return the count (R100, R150); the bytes then count as written (R60).
One instruction a step, and what counts as written, are the model's choice (log 19, log 16). -/
def Obligations.EncodeAndDecomposeRunsWriteTheirBytes : Prop :=
  ∀ (s : State) (i : Nat) (buf : Buffer) (o : Nat) (bytes : List Byte),
    o + bytes.length ≤ buf.cap →
    (∀ a, buf.base + o ≤ a → a < buf.base + o + bytes.length → s.hostWriteBarred a = false) →
    ((∃ c, s.aboutTo i (.encode buf o c) ∧ encBytes s.params.opc c = .ok bytes) ∨
      (∃ cfg cur, s.aboutTo i (.decompose buf o cfg) ∧ checkDecompose cfg = .ok () ∧
        emitAll s.params.opc s.params.bjumpOrigin (decomposeItems (burstCount cfg)) ⟨o, none, none⟩ =
          some (bytes, cur))) →
    ∃ n, ∃ t, t = s.hostRun i n ∧ t.returned i = some (.ok bytes.length) ∧
      t.mem = Memory.writeBytes s.mem (buf.base + o) bytes ∧ t.trace = s.trace ∧ t.chans = s.chans ∧
      t.dbgBusy = s.dbgBusy ∧
      ∀ a, a ∈ t.stored ↔ a ∈ s.stored ∨ (buf.base + o ≤ a ∧ a < buf.base + o + bytes.length)

/-! ## Typed errors (60_exceptions) -/

/-- An operation that returns a typed error has written nothing (R235): memory, the register window and the channels
are as before; a DeviceBusy has made its one DBGSTATUS read, which read 1 in the busy bit, any other error no access.
One register access a step is the model's choice (log 19). -/
def Obligations.TypedErrorsWriteNothing : Prop :=
  ∀ (s : State) (i : Nat) (op : HostOp) (e : Err), s.aboutTo i op → (s.hostStep i).returned i = some (.err e) →
    (∀ a, Memory.read (s.hostStep i).mem a = Memory.read s.mem a) ∧
    (∀ c, (s.hostStep i).chan c = s.chan c) ∧
    (s.hostStep i).dbginst0 = s.dbginst0 ∧ (s.hostStep i).dbginst1 = s.dbginst1 ∧
    (s.hostStep i).dbgcmd = s.dbgcmd ∧ (s.hostStep i).dbgBusy = s.dbgBusy ∧ (s.hostStep i).inten = s.inten ∧
    (s.hostStep i).irq = s.irq ∧ (s.hostStep i).dirty = s.dirty ∧ (s.hostStep i).stored = s.stored ∧
    (s.hostStep i).flights = s.flights ∧
    (e ≠ .deviceBusy → (s.hostStep i).trace = s.trace) ∧
    (e = .deviceBusy → ∃ v : Word, v.getLsbD s.params.regs.busyBit = true ∧
      (s.hostStep i).trace = s.trace ++ [.read s.params.regs.dbgstatus v])

/-! ## The config builder (41_config_builder) -/

/-- The preset's CCR value (R138), with the parameter values of R9. -/
def Obligations.PresetCcrValue : Prop :=
  ∀ src dst size : Word, buildCcr Params.spec (memToMemDefault Params.spec src dst size) = .ok 0x003E40F9

/-- Which shapes are accepted (R133 to R135, the invariant of R24). -/
def Obligations.BuildCcrAcceptsExactlyLegalShapes : Prop :=
  ∀ (p : Params) (cfg : TransferConfig),
    (∃ ccr, buildCcr p cfg = .ok ccr) ↔ cfg.srcShape.Legal p ∧ cfg.dstShape.Legal p

/-- With the layout of R131 the packed word holds each side's five fields at its positions and 0 in bits 31:28 (R136), so
neither side disturbs the other (R132). -/
def Obligations.CcrHoldsEachSidesFields : Prop :=
  ∀ (p : Params) (cfg : TransferConfig) (ccr : Word), p.legal → p.ccrLayout = CcrLayout.spec → buildCcr p cfg = .ok ccr →
    (ccr.getLsbD 0 = cfg.srcShape.inc ∧ 2 ^ (ccr.extractLsb' 1 3).toNat = cfg.srcShape.burstSize ∧
      (ccr.extractLsb' 4 4).toNat + 1 = cfg.srcShape.burstLen ∧ (ccr.extractLsb' 8 3).toNat = cfg.srcShape.prot ∧
      (ccr.extractLsb' 11 3).toNat = cfg.srcShape.cache) ∧
    (ccr.getLsbD 14 = cfg.dstShape.inc ∧ 2 ^ (ccr.extractLsb' 15 3).toNat = cfg.dstShape.burstSize ∧
      (ccr.extractLsb' 18 4).toNat + 1 = cfg.dstShape.burstLen ∧ (ccr.extractLsb' 22 3).toNat = cfg.dstShape.prot ∧
      (ccr.extractLsb' 25 3).toNat = cfg.dstShape.cache) ∧
    ccr.extractLsb' 28 4 = 0

/-- The fixed order of Compile's checks (R233), each with its sub-code (R231, R232): the source side's six, the
destination side's six, the kind, the size, the shape. -/
def Obligations.CompileReportsTheFirstFailingCheck : Prop :=
  ∀ (p : Params) (cfg : TransferConfig),
    let a := cfg.srcShape
    let b := cfg.dstShape
    let answers := fun (e : Err) => compileChecks p cfg = .error e
    let pow2 := fun n : Nat => ∃ k, n = 2 ^ k
    (¬ pow2 a.burstSize → answers (.invalidField .srcBsizePow2)) ∧
    (pow2 a.burstSize → p.maxBurstSize < a.burstSize → answers (.invalidField .srcBsizeMax)) ∧
    (pow2 a.burstSize → a.burstSize ≤ p.maxBurstSize → a.burstLen = 0 → answers (.invalidField .srcBlenZero)) ∧
    (pow2 a.burstSize → a.burstSize ≤ p.maxBurstSize → 0 < a.burstLen → p.maxBurstLen < a.burstLen →
      answers (.invalidField .srcBlenMax)) ∧
    (pow2 a.burstSize → a.burstSize ≤ p.maxBurstSize → 0 < a.burstLen → a.burstLen ≤ p.maxBurstLen → 7 < a.prot →
      answers (.invalidField .srcProt)) ∧
    (pow2 a.burstSize → a.burstSize ≤ p.maxBurstSize → 0 < a.burstLen → a.burstLen ≤ p.maxBurstLen → a.prot ≤ 7 →
      7 < a.cache → answers (.invalidField .srcCache)) ∧
    (a.Legal p →
      (¬ pow2 b.burstSize → answers (.invalidField .dstBsizePow2)) ∧
      (pow2 b.burstSize → p.maxBurstSize < b.burstSize → answers (.invalidField .dstBsizeMax)) ∧
      (pow2 b.burstSize → b.burstSize ≤ p.maxBurstSize → b.burstLen = 0 → answers (.invalidField .dstBlenZero)) ∧
      (pow2 b.burstSize → b.burstSize ≤ p.maxBurstSize → 0 < b.burstLen → p.maxBurstLen < b.burstLen →
        answers (.invalidField .dstBlenMax)) ∧
      (pow2 b.burstSize → b.burstSize ≤ p.maxBurstSize → 0 < b.burstLen → b.burstLen ≤ p.maxBurstLen → 7 < b.prot →
        answers (.invalidField .dstProt)) ∧
      (pow2 b.burstSize → b.burstSize ≤ p.maxBurstSize → 0 < b.burstLen → b.burstLen ≤ p.maxBurstLen → b.prot ≤ 7 →
        7 < b.cache → answers (.invalidField .dstCache)) ∧
      (b.Legal p →
        (cfg.kind ≠ .memToMem → answers .unsupportedTransferKind) ∧
        (cfg.kind = .memToMem → cfg.size.toNat % (a.burstSize * a.burstLen) ≠ 0 → answers (.alignmentError .size)) ∧
        (cfg.kind = .memToMem → cfg.size.toNat % (a.burstSize * a.burstLen) = 0 →
          b.burstSize * b.burstLen ≠ a.burstSize * a.burstLen → answers (.alignmentError .shape)))) ∧
    [InvalidSub.srcBsizePow2, .srcBsizeMax, .srcBlenZero, .srcBlenMax, .srcProt, .srcCache, .dstBsizePow2, .dstBsizeMax,
      .dstBlenZero, .dstBlenMax, .dstProt, .dstCache].map InvalidSub.code = [1, 2, 3, 4, 5, 6, 7, 8, 9, 10, 11, 12] ∧
    [AlignSub.size, .shape].map AlignSub.code = [1, 2]

/-! ## The decomposition engine (42_loop_decomposition) -/

/-- The iterations of all nests add up to the burst count, every count is in [1, 256] (R154, R164), and the nests are
bounded (R163): what full blocks leave is below 65536, exactly one nest comes from 256 or more of it, and there are at
most B div 65536 + 2 nests. -/
def Obligations.NestsRunTheBurstCount : Prop :=
  ∀ count : Nat, ((nests count).map fun n => n.1 * n.2).sum = count ∧
    (∀ n ∈ nests count, 1 ≤ n.1 ∧ n.1 ≤ 256 ∧ 1 ≤ n.2 ∧ n.2 ≤ 256) ∧
    count % 65536 < 65536 ∧ (nests count).length ≤ count / 65536 + 2 ∧
    (256 ≤ count % 65536 → ((remainderNests (count % 65536)).filter fun n => n.2 = 256).length = 1)

/-- The bytes of one nest at any offset, for both origins (R159, R160). -/
def Obligations.NestBytes : Prop :=
  ∀ (outer inner : Nat) (cur : Cursor), 1 ≤ outer → outer ≤ 256 → 1 ≤ inner → inner ≤ 256 →
    ∀ origin : BjumpOrigin, ∃ cur', emitAll Opc.spec origin (nestItems (outer, inner)) cur =
      some ((if 1 < outer then [0x22, BitVec.ofNat 8 (outer - 1)] else []) ++
        [0x20, BitVec.ofNat 8 (inner - 1), 0x04, 0x12, 0x08, 0x13, 0x38,
          if origin = .afterLpend then 6 else 4] ++
        (if 1 < outer then [0x3C, if origin = .afterLpend then 10 else 8] else []), cur') ∧
      cur'.off = cur.off + (if 1 < outer then 12 else 8)

/-- The engine's length (R161): from any cursor, for both origins, the emission succeeds with n(B) bytes. -/
def Obligations.DecomposeLength : Prop :=
  ∀ (o : Opc) (count : Nat) (origin : BjumpOrigin) (cur : Cursor), ∃ bytes cur',
    emitAll o origin (decomposeItems count) cur = some (bytes, cur') ∧ cur'.off = cur.off + bytes.length ∧
    bytes.length = 12 * (count / 65536)
      + (if 256 ≤ count % 65536 then (if 1 < count % 65536 / 256 then 12 else 8) else 0)
      + (if 0 < count % 256 then 8 else 0)

/-! ## The compiler (43_program_compiler) -/

/-- The program layout and length (R173, R174), its last byte (R175), and the burst count it is made for: the size divided
by the source side's bytes per burst (R151). -/
def Obligations.CompiledProgramLayout : Prop :=
  ∀ (p : Params) (cfg : TransferConfig) (ccr : Word), p.opc = Opc.spec → compileChecks p cfg = .ok ccr →
    p.completionEvent ≤ 31 →
    burstCount cfg = cfg.size.toNat / (cfg.srcShape.burstSize * cfg.srcShape.burstLen) ∧
    ∃ body : List Byte, body.length = nestBytes (burstCount cfg) ∧
      (∃ cur', emitAll p.opc p.bjumpOrigin (decomposeItems (burstCount cfg)) ⟨18, none, none⟩ = some (body, cur')) ∧
      compileBytes p cfg = some ([0xBC#8, 0x01#8] ++ bytesLe32 ccr ++ [0xBC#8, 0x00#8] ++ bytesLe32 cfg.src ++
        [0xBC#8, 0x02#8] ++ bytesLe32 cfg.dst ++ body ++ [0x34#8, BitVec.ofNat 8 p.completionEvent <<< 3, 0x00#8])

/-- Compile as it runs, step by step, writes exactly the compiled program into the buffer, returns its length, and
touches no register (R170, R172, R174, R177); then every byte of the program counts as written (R60).
One instruction a step, which buffer a flight bars and what counts as written are the model's choice (log 19, log 32,
log 16). -/
def Obligations.CompileRunWritesTheProgram : Prop :=
  ∀ (s : State) (i : Nat) (buf : Buffer) (cfg : TransferConfig) (bytes : List Byte),
    s.aboutTo i (.compile buf cfg) → s.bufferInFlight buf = false →
    (∀ a, buf.base ≤ a → a < buf.base + bytes.length → s.hostWriteBarred a = false) →
    compileBytes s.params cfg = some bytes → bytes.length ≤ buf.cap →
    ∃ n, ∃ t, t = s.hostRun i n ∧ t.returned i = some (.ok bytes.length) ∧
      t.mem = Memory.writeBytes s.mem buf.base bytes ∧ t.trace = s.trace ∧ t.chans = s.chans ∧
      ∀ a, a ∈ t.stored ↔ a ∈ s.stored ∨ (buf.base ≤ a ∧ a < buf.base + bytes.length)

/-- A write past the capacity is BufferOverrun, and no byte at or beyond it lands (R266).
That it is so also where the byte lies in a range in flight, where R264 names another fault, is the model's choice
(log 34). -/
def Obligations.NoByteLandsPastTheCapacity : Prop :=
  ∀ (s : State) (buf : Buffer) (o : Nat) (bytes : List Byte), Memory.wf s.mem = true →
    (∀ a, buf.base + buf.cap ≤ a → Memory.read (s.bufWrite buf o bytes).1.mem a = Memory.read s.mem a) ∧
    (bytes ≠ [] → buf.cap < o + bytes.length → (s.bufWrite buf o bytes).2 ≠ none) ∧
    (∀ b rest, bytes = b :: rest → buf.cap ≤ o → s.bufWrite buf o bytes = (s, some .bufferOverrun))

/-- A program that Compile wrote, read off its bytes wherever they stand: its range is L bytes long (R174, R211), and its
loads and stores reach the source range and the destination range of the transfer (R62, R264).
That a program is read off its bytes is the model's choice (log 16), and the ranges are as long as the transfer (log 29). -/
def Obligations.ProgramIsReadOffItsBytes : Prop :=
  ∀ (s : State) (cfg : TransferConfig) (bytes : List Byte) (base : Nat),
    s.params.legal → s.params.ccrLayout = CcrLayout.spec → compileBytes s.params cfg = some bytes →
    base + bytes.length ≤ addrSpace → Memory.readBytes s.mem base bytes.length = bytes →
    (s.programAt base).base = base ∧ (s.programAt base).len = bytes.length ∧
    (∀ a, (s.programAt base).inSrc a = true ↔ cfg.src.toNat ≤ a ∧ a < cfg.src.toNat + cfg.size.toNat) ∧
    (∀ a, (s.programAt base).inDst a = true ↔ cfg.dst.toNat ≤ a ∧ a < cfg.dst.toNat + cfg.size.toNat)

/-! ## Submission (44_submission, 70_reset_and_hazards) -/

/-- An accepted Submit makes exactly four register accesses in this order, with these values, and starts nothing but
the injection (R188, R185, R186, R187; its flight is recorded for R264), whatever DBGSTATUS answers but for bit 0.
The draw, the busy state, how the program is known and one access a step are the model's (log 5, log 16, log 19). -/
def Obligations.SubmitMakesFourAccesses : Prop :=
  ∀ (s : State) (i chan : Nat) (addr : Word) (ns : Nat),
    s.params.opc = Opc.spec → s.params.regs = RegMap.spec →
    s.aboutTo i (.submit chan addr ns) → s.pathTaken i = false → chan < s.params.nChannels → chan ≤ 7 → ns ≤ 1 →
    s.dbgBusy = false → s.draw.1.getLsbD 0 = false → s.allVisible (s.programAt addr.toNat) = true →
    ∃ t, t = s.hostRun i 4 ∧ t.returned i = some (.ok 0) ∧
      t.trace = s.trace ++ [.read 0xD00 s.draw.1,
        .write 0xD08 (BitVec.ofNat 32 (chan * 2 ^ 24 + (0xA0 + 2 * ns) * 2 ^ 16)), .write 0xD0C addr, .write 0xD04 0] ∧
      t.dbginst0 = BitVec.ofNat 32 (chan * 2 ^ 24 + (0xA0 + 2 * ns) * 2 ^ 16) ∧ t.dbginst1 = addr ∧ t.dbgcmd = 0 ∧
      t.dbgBusy = true ∧ t.inten = s.inten ∧ t.chans = s.chans ∧ t.mem = s.mem ∧
      t.flights = s.flights ++ [⟨chan, s.programAt addr.toNat, false⟩]

/-- Submit checks its arguments before any register access (R182), then reads DBGSTATUS once; busy is DeviceBusy with no
write (R183).
How a DBGSTATUS value comes about is the model's (log 5). -/
def Obligations.SubmitRejections : Prop :=
  ∀ (s : State) (i chan : Nat) (addr : Word) (ns : Nat), s.params.regs = RegMap.spec →
    s.aboutTo i (.submit chan addr ns) →
    (s.params.nChannels ≤ chan →
      (s.hostStep i).returned i = some (.err (.invalidField .submitChan)) ∧ (s.hostStep i).trace = s.trace) ∧
    (chan < s.params.nChannels → 1 < ns →
      (s.hostStep i).returned i = some (.err (.invalidField .goNs)) ∧ (s.hostStep i).trace = s.trace) ∧
    (chan < s.params.nChannels → ns ≤ 1 → s.pathTaken i = false →
      (dbgStatusValue RegMap.spec s.dbgBusy s.draw.1).getLsbD 0 = true →
      (s.hostStep i).returned i = some (.err .deviceBusy) ∧
      (s.hostStep i).trace = s.trace ++ [.read 0xD00 (dbgStatusValue RegMap.spec s.dbgBusy s.draw.1)] ∧
      (s.hostStep i).dbginst0 = s.dbginst0 ∧ (s.hostStep i).dbginst1 = s.dbginst1 ∧
      (s.hostStep i).dbgcmd = s.dbgcmd ∧ (s.hostStep i).dbgBusy = s.dbgBusy ∧ (s.hostStep i).chans = s.chans ∧
      (s.hostStep i).mem = s.mem)

/-- The window outside a Submit: a DBGSTATUS read has bit 0 set while an injected instruction executes, whatever the draw
(R36, R189), and changes no register (R57); INTEN reads as it was written (R40); the interrupt collaborator clears one
interrupt output (R237).
That the draw's bit is forced is the model's reading (log 5); one output word is its choice (log 26). -/
def Obligations.WindowAccesses : Prop :=
  ∀ s : State, s.params.regs = RegMap.spec →
    (∀ (v : Word) (t : State), s.regRead 0xD00 = .ok (v, t) → (s.dbgBusy = true → v.getLsbD 0 = true) ∧
      t.dbginst0 = s.dbginst0 ∧ t.dbginst1 = s.dbginst1 ∧ t.dbgcmd = s.dbgcmd ∧ t.inten = s.inten ∧
      t.dbgBusy = s.dbgBusy ∧ t.chans = s.chans ∧ t.mem = s.mem) ∧
    (∀ (i : Nat) (v : Word), s.aboutTo i (.writeInten v) →
      (s.hostStep i).returned i = some (.ok 0) ∧ (s.hostStep i).inten = v ∧
      (s.hostStep i).trace = s.trace ++ [.write 0x020 v] ∧ (s.hostStep i).irq = s.irq ∧
      (s.hostStep i).chans = s.chans ∧ (s.hostStep i).dbgBusy = s.dbgBusy) ∧
    (∀ i : Nat, s.aboutTo i .readInten →
      (s.hostStep i).returned i = some (.ok s.inten.toNat) ∧ (s.hostStep i).inten = s.inten ∧
      (s.hostStep i).trace = s.trace ++ [.read 0x020 s.inten]) ∧
    (∀ i n : Nat, s.aboutTo i (.clearIrq n) → (s.hostStep i).returned i = some (.ok 0) ∧
      ∀ k, k < 32 → (s.hostStep i).irq.getLsbD k = (s.irq.getLsbD k && decide (k ≠ n)))

/-- Interleaved submissions are ConcurrentSubmission, and the access is not made (R268).
That the accessing context stops is the model's reading (log 27); that a context which faulted inside its submission still
stands in it is the model's choice (log 33). -/
def Obligations.InterleavedSubmissionsFault : Prop :=
  ∀ (s : State) (i k chan : Nat) (addr : Word) (ns : Nat) (h : HostCtx) (j : SubmitJob),
    s.aboutTo i (.submit chan addr ns) → chan < s.params.nChannels → ns ≤ 1 →
    k ≠ i → s.hosts[k]? = some h → h.job = .submit j →
    (s.hostStep i).FaultedFor (.host i) .concurrentSubmission ∧ (s.hostStep i).trace = s.trace

/-- A trigger before every byte of the program is written and visible is ProgramNotVisible, and is not made (R60, R265).
How the model knows which bytes are the program's, and what counts as written, is its choice (log 16). -/
def Obligations.TriggerBeforeVisibilityFaults : Prop :=
  ∀ (s : State) (i : Nat) (h : HostCtx) (j : SubmitJob),
    s.hosts[i]? = some h → h.fault = none → h.job = .submit j → j.phase = .cmd → s.pathTaken i = false →
    (∃ a, (s.programAt j.addr.toNat).base ≤ a ∧
        a < (s.programAt j.addr.toNat).base + (s.programAt j.addr.toNat).len ∧ (a ∈ s.dirty ∨ a ∉ s.stored)) →
    (s.hostStep i).FaultedFor (.host i) .programNotVisible ∧ (s.hostStep i).trace = s.trace ∧
    (s.hostStep i).dbgBusy = s.dbgBusy ∧ (s.hostStep i).flights = s.flights

/-- In flight, a host write to the program, the source or the destination, a host read of the destination, a Compile on
the program's buffer and the next write of one that was under way there are ProgramMutatedInFlight and change no byte
(R264, R177).
Which bytes are a flight's, which buffer is the program's, and that the Compile faults before its own checks are the
model's (log 16, log 27, log 29, log 32). -/
def Obligations.NoHostAccessInFlight : Prop :=
  ∀ (s : State) (i : Nat) (f : Flight), f ∈ s.flights →
    (∀ (a : Word) (v : Byte), s.aboutTo i (.hostWrite a v) →
      ((f.prog.base ≤ a.toNat ∧ a.toNat < f.prog.base + f.prog.len) ∨
        (∃ r ∈ f.prog.src ++ f.prog.dst, r.base ≤ a.toNat ∧ a.toNat < r.base + r.size)) →
      (s.hostStep i).FaultedFor (.host i) .programMutatedInFlight ∧ (s.hostStep i).mem = s.mem) ∧
    (∀ a : Word, s.aboutTo i (.hostRead a) → (∃ r ∈ f.prog.dst, r.base ≤ a.toNat ∧ a.toNat < r.base + r.size) →
      (s.hostStep i).FaultedFor (.host i) .programMutatedInFlight ∧ (s.hostStep i).mem = s.mem) ∧
    (∀ (buf : Buffer) (cfg : TransferConfig), s.aboutTo i (.compile buf cfg) →
      (∃ a, f.prog.base ≤ a ∧ a < f.prog.base + f.prog.len ∧ buf.base ≤ a ∧ a < buf.base + buf.cap) →
      (s.hostStep i).FaultedFor (.host i) .programMutatedInFlight ∧ (s.hostStep i).mem = s.mem) ∧
    (∀ (h : HostCtx) (j : EmitJob), s.hosts[i]? = some h → h.fault = none → h.job = .emit j → j.compiling = true →
      j.todo ≠ [] →
      (∃ a, f.prog.base ≤ a ∧ a < f.prog.base + f.prog.len ∧ j.buf.base ≤ a ∧ a < j.buf.base + j.buf.cap) →
      (s.hostStep i).FaultedFor (.host i) .programMutatedInFlight ∧ (s.hostStep i).mem = s.mem)

/-- Outside the ranges in flight a host write lands, counts as written and is not visible to the controller until it is made
so (R60, R265); a host read answers the byte.
What counts as written is the model's choice (log 16). -/
def Obligations.HostAccessesAndVisibility : Prop :=
  ∀ (s : State) (i : Nat), Memory.wf s.mem = true →
    (∀ (a : Word) (v : Byte), s.aboutTo i (.hostWrite a v) → s.hostWriteBarred a.toNat = false →
      (s.hostStep i).returned i = some (.ok 0) ∧ a.toNat ∈ (s.hostStep i).dirty ∧
      (∀ x, x ∈ (s.hostStep i).stored ↔ x = a.toNat ∨ x ∈ s.stored) ∧
      ∀ x, Memory.read (s.hostStep i).mem x = if x = a.toNat then v else Memory.read s.mem x) ∧
    (∀ a : Word, s.aboutTo i (.hostRead a) → s.hostReadBarred a.toNat = false →
      (s.hostStep i).returned i = some (.ok (Memory.read s.mem a.toNat).toNat) ∧ (s.hostStep i).mem = s.mem) ∧
    (∀ r : AddrRange, s.aboutTo i (.makeVisible r) →
      (s.hostStep i).returned i = some (.ok 0) ∧ (s.hostStep i).mem = s.mem ∧ (s.hostStep i).stored = s.stored ∧
      ∀ a, a ∈ (s.hostStep i).dirty ↔ a ∈ s.dirty ∧ ¬ (r.base ≤ a ∧ a < r.base + r.size))

/-- The end of a flight: the completion observation sees it once the channel's run has ended (R195, R215), an external
controller reset abandons every flight, stops the controller and leaves every channel register ⊥ (R261, U31), and the
flights it abandoned are over when no channel can still read them (R261).
When completion is observed and what a reset leaves are the model's choice (log 17, log 21). -/
def Obligations.FlightsEnd : Prop :=
  ∀ (s : State) (i : Nat) (c : Fin 8),
    (s.aboutTo i (.observe c.val) → (∃ f ∈ s.flights, f.chan = c.val ∧ f.abandoned = false) → s.RunEnded c →
      s.starting c.val = false →
      (s.hostStep i).returned i = some (.ok 1) ∧
      ∀ f, f ∈ (s.hostStep i).flights ↔ f ∈ s.flights ∧ ¬ (f.chan = c.val ∧ f.abandoned = false)) ∧
    (s.aboutTo i (.observe c.val) → ¬ s.RunEnded c →
      (s.hostStep i).returned i = some (.ok 0) ∧ (s.hostStep i).flights = s.flights) ∧
    (s.aboutTo i .resetController →
      (s.hostStep i).flights = s.flights.map (fun f => { f with abandoned := true }) ∧
      ((s.hostStep i).chan c).status ≠ .executing ∧ ((s.hostStep i).chan c).sar = none ∧
      ((s.hostStep i).chan c).dar = none ∧ ((s.hostStep i).chan c).ccr = none ∧ ((s.hostStep i).chan c).lc0 = none ∧
      ((s.hostStep i).chan c).lc1 = none ∧ (s.hostStep i).dbgBusy = false ∧ (s.hostStep i).mem = s.mem) ∧
    (s.aboutTo i .quiesced → ∀ f, f ∈ (s.hostStep i).flights ↔ f ∈ s.flights ∧ f.abandoned = false)

/-- The trigger's effect: the manager's next step starts the channel at the program address in its security state,
registers ⊥, fifo and events empty, and DBGSTATUS bit 0 returns to 0 (R189, R200).
Who moves next, and fifo and events emptied each time, are the model's (log 7, log 13). -/
def Obligations.TriggerStartsTheChannel : Prop :=
  ∀ (s : State) (rest : List Agent) (c : Fin 8) (addr : Word) (ns : Bool),
    s.params.opc = Opc.spec → s.params.regs = RegMap.spec →
    s.sched = .thread .manager :: rest → s.dbgBusy = true → s.mgrFault = none →
    s.dbginst0 = BitVec.ofNat 32 (c.val * 2 ^ 24 + (0xA0 + 2 * ns.toNat) * 2 ^ 16) → s.dbginst1 = addr →
    c.val < s.params.nChannels → (s.chan c).status = .stopped → (s.params.refuseSecureGo = true → ns = true) →
    ∃ t, step s = .next t ∧ (t.chan c).pc = addr ∧ (t.chan c).status = .executing ∧ (t.chan c).ns = ns ∧
      (t.chan c).sar = none ∧ (t.chan c).dar = none ∧ (t.chan c).ccr = none ∧ (t.chan c).lc0 = none ∧
      (t.chan c).lc1 = none ∧ (t.chan c).fifo = [] ∧ (t.chan c).events = [] ∧ t.dbgBusy = false ∧
      (∀ d, d ≠ c → t.chan d = s.chan d) ∧ t.mem = s.mem

/-! ## Instructions: what each does where it completes (45_reference_executor) -/

/-- DMAMOV (R202). -/
def Obligations.MoveWritesItsRegister : Prop :=
  ∀ (s : State) (c : Fin 8) (rd : MovReg) (imm : Word),
    s.cur = .channel c → (s.chan c).pc.toNat + 6 < 2 ^ 32 →
    exec (.dmamov rd imm) s = .next (s.setChan c
      { s.chan c with
        pc := (s.chan c).pc + 6
        sar := if rd = .sar then some imm else (s.chan c).sar
        ccr := if rd = .ccr then some imm else (s.chan c).ccr
        dar := if rd = .dar then some imm else (s.chan c).dar })

/-- DMALP (R203): the counter holds count − 1. -/
def Obligations.LoopStartLoadsTheCounter : Prop :=
  ∀ (s : State) (c : Fin 8) (lc : LoopReg) (count : Nat),
    s.cur = .channel c → (s.chan c).pc.toNat + 2 < 2 ^ 32 → 1 ≤ count → count ≤ 256 →
    ∃ v : Byte, v.toNat = count - 1 ∧ exec (.dmalp lc count) s = .next (s.setChan c
      { s.chan c with
        pc := (s.chan c).pc + 2
        lc0 := if lc = .lc0 then some v else (s.chan c).lc0
        lc1 := if lc = .lc1 then some v else (s.chan c).lc1 })

/-- DMALPEND (R204): a counter that is not 0 is decremented and the pc goes back by the backjump from the origin; at 0
the pc goes on and the counter stays 0; a target below 0 is PcRange; a counter never written is UnwrittenRegister. -/
def Obligations.LoopEndDecrementsAndBranches : Prop :=
  ∀ (s : State) (c : Fin 8) (lc : LoopReg) (bjump : Nat), s.cur = .channel c →
    let ch := s.chan c
    let counter := if lc = .lc0 then ch.lc0 else ch.lc1
    let origin := if s.params.bjumpOrigin = .afterLpend then ch.pc.toNat + 2 else ch.pc.toNat
    (∀ v, counter = some v → v ≠ 0 → bjump ≤ origin → origin - bjump < 2 ^ 32 →
      exec (.dmalpend lc bjump) s = .next (s.setChan c
        { ch with
          pc := BitVec.ofNat 32 (origin - bjump)
          lc0 := if lc = .lc0 then some (v - 1) else ch.lc0
          lc1 := if lc = .lc1 then some (v - 1) else ch.lc1 })) ∧
    (counter = some 0 → ch.pc.toNat + 2 < 2 ^ 32 →
      exec (.dmalpend lc bjump) s = .next (s.setChan c { ch with pc := ch.pc + 2 })) ∧
    (∀ v, counter = some v → v ≠ 0 → origin < bjump → exec (.dmalpend lc bjump) s = .fault .pcRange) ∧
    (counter = none → exec (.dmalpend lc bjump) s = .fault .unwrittenRegister)

/-- DMALD (R205): with w = 2^CCR[3:1] and k = CCR[7:4] + 1 (the fields of the layout; R131 places them so), k beats of w
bytes enter the fifo in order, from consecutive addresses when CCR[0] is 1 and from one address otherwise; SAR moves on by
k × w in the first case.
Where SAR + k × w is 2^32, which no 32-bit register holds, the new SAR is a free value drawn from a counter, and bytes not
made visible are read as written; both are the model's choice (log 11, log 31). -/
def Obligations.LoadBringsOneBurst : Prop :=
  ∀ (s : State) (c : Fin 8) (ccr sar : Word),
    s.cur = .channel c → (s.chan c).ccr = some ccr → (s.chan c).sar = some sar →
    let ch := s.chan c
    let l := s.params.ccrLayout
    let w := 2 ^ (ccr.extractLsb' l.srcSize.lo l.srcSize.len).toNat
    let k := (ccr.extractLsb' l.srcLen.lo l.srcLen.len).toNat + 1
    let inc := ccr.getLsbD l.srcInc.lo
    (∀ j, j < k → s.params.access .load (beatAddr inc sar.toNat w j) w = .ok ()) →
    ch.fifo.length + k * w ≤ s.params.mfifoBytes → ch.pc.toNat + 1 < 2 ^ 32 →
    ∃ (v : Word) (n : Nat), exec .dmald s = .next ({ s with drawCount := n }.setChan c
        { ch with
          fifo := ch.fifo ++ (List.range k).flatMap fun j => Memory.readBytes s.mem (beatAddr inc sar.toNat w j) w
          sar := some v
          pc := ch.pc + 1 }) ∧
      (inc = false → v = sar ∧ n = s.drawCount) ∧
      (inc = true → sar.toNat + k * w < 2 ^ 32 → v = BitVec.ofNat 32 (sar.toNat + k * w) ∧ n = s.drawCount)

/-- DMAST (R206): with w = 2^CCR[17:15] and k = CCR[21:18] + 1 (the fields of the layout; R131 places them so), the first
k × w fifo bytes leave it; with CCR[14] = 1 they lie from DAR on and DAR moves on by k × w, otherwise the last beat's w
bytes remain at DAR.
Where DAR + k × w is 2^32, which no 32-bit register holds, the new DAR is a free value drawn from a counter; that, and that
the bytes count as written, are the model's choice (log 11, log 16). -/
def Obligations.StoreWritesOneBurst : Prop :=
  ∀ (s : State) (c : Fin 8) (ccr dar : Word), Memory.wf s.mem = true →
    s.cur = .channel c → (s.chan c).ccr = some ccr → (s.chan c).dar = some dar →
    let ch := s.chan c
    let l := s.params.ccrLayout
    let w := 2 ^ (ccr.extractLsb' l.dstSize.lo l.dstSize.len).toNat
    let k := (ccr.extractLsb' l.dstLen.lo l.dstLen.len).toNat + 1
    let inc := ccr.getLsbD l.dstInc.lo
    (∀ j, j < k → s.params.access .store (beatAddr inc dar.toNat w j) w = .ok () ∧
      (ch.progBase + ch.progLen ≤ beatAddr inc dar.toNat w j ∨ beatAddr inc dar.toNat w j + w ≤ ch.progBase)) →
    k * w ≤ ch.fifo.length → ch.pc.toNat + 1 < 2 ^ 32 →
    ∃ (m : Memory) (v : Word) (n : Nat) (stored : List Nat),
      exec .dmast s = .next ({ s with mem := m, stored := stored, drawCount := n }.setChan c
        { ch with fifo := ch.fifo.drop (k * w), dar := some v, pc := ch.pc + 1 }) ∧
      (inc = false → v = dar ∧ n = s.drawCount) ∧
      (inc = true → dar.toNat + k * w < 2 ^ 32 → v = BitVec.ofNat 32 (dar.toNat + k * w) ∧ n = s.drawCount) ∧
      (∀ a, a ∈ stored ↔ a ∈ s.stored ∨ (dar.toNat ≤ a ∧ a < dar.toNat + if inc = true then k * w else w)) ∧
      (inc = true → ∀ a, Memory.read m a =
        if dar.toNat ≤ a ∧ a < dar.toNat + k * w then ch.fifo.getD (a - dar.toNat) 0 else Memory.read s.mem a) ∧
      (inc = false → ∀ a, Memory.read m a =
        if dar.toNat ≤ a ∧ a < dar.toNat + w then ch.fifo.getD ((k - 1) * w + (a - dar.toNat)) 0
        else Memory.read s.mem a)

/-- DMARMB and DMAWMB (R207, R208): only the pc moves, by 1. -/
def Obligations.BarriersOnlyAdvance : Prop :=
  ∀ (s : State) (c : Fin 8), s.cur = .channel c → (s.chan c).pc.toNat + 1 < 2 ^ 32 →
    exec .dmarmb s = .next (s.setChan c { s.chan c with pc := (s.chan c).pc + 1 }) ∧
    exec .dmawmb s = .next (s.setChan c { s.chan c with pc := (s.chan c).pc + 1 })

/-- DMASEV (R209): the event is in the set, other events are as before, and its interrupt output is raised when INTEN
enables it.
One word for the 32 outputs is the model's choice (log 26). -/
def Obligations.SignalEventJoinsTheSet : Prop :=
  ∀ (s : State) (c : Fin 8) (ev : Nat), s.cur = .channel c → (s.chan c).pc.toNat + 2 < 2 ^ 32 → ev ≤ 31 →
    ∃ (events : List Nat) (irq : Word),
      exec (.dmasev ev) s = .next ({ s with irq := irq }.setChan c
        { s.chan c with events := events, pc := (s.chan c).pc + 2 }) ∧
      (∀ e, e ∈ events ↔ e = ev ∨ e ∈ (s.chan c).events) ∧
      (∀ n, n < 32 → irq.getLsbD n = (s.irq.getLsbD n || (decide (n = ev) && s.inten.getLsbD ev)))

/-- DMAEND (R210): with an empty fifo the thread stops, its pc where it was, and its run has ended (R215); with data left
it is FifoNotEmpty. -/
def Obligations.EndStopsTheThread : Prop :=
  ∀ (s : State) (c : Fin 8), s.cur = .channel c →
    ((s.chan c).fifo = [] →
      exec .dmaend s = .next (s.setChan c { s.chan c with status := .stopped, ended := true }) ∧
      (s.setChan c { s.chan c with status := .stopped, ended := true }).RunEnded c) ∧
    ((s.chan c).fifo ≠ [] → exec .dmaend s = .fault .fifoNotEmpty)

/-- DMAGO on the manager (R189, R200): the channel starts.
Fifo and events emptied each time, and how the program's length is known, are the model's (log 13, log 16). -/
def Obligations.GoStartsAStoppedChannel : Prop :=
  ∀ (s : State) (ns : Bool) (c : Fin 8) (addr : Word),
    s.cur = .manager → c.val < s.params.nChannels → (s.chan c).status = .stopped →
    (s.params.refuseSecureGo = true → ns = true) →
    exec (.dmago ns c.val addr) s = .next (s.setChan c
      { pc := addr, sar := none, dar := none, ccr := none, lc0 := none, lc1 := none, fifo := [], events := [],
        status := .executing, ended := false, ns := ns, progBase := addr.toNat,
        progLen := (s.programAt addr.toNat).len })

/-! ## Instructions: where they stop -/

/-- Where DMAGO and the qualified loop-ends stop. DMAGO that the controller does not accept is ControllerFault (R246): a
channel that is not Stopped, a channel it lacks, a secure DMAGO it refuses; on a channel thread DMAGO is Undecodable, and
the qualified loop-ends are refused in every state (R212).
That a channel the controller lacks counts among R246's other errors is the model's reading; what it refuses is a
parameter (log 4). -/
def Obligations.GoAndQualifiersStop : Prop :=
  ∀ (s : State) (ns : Bool) (chan : Nat) (addr : Word) (lc : LoopReg) (bjump : Nat),
    (s.cur = .manager →
      ((∀ c : Fin 8, c.val = chan → (s.chan c).status ≠ .stopped) ∨ s.params.nChannels ≤ chan ∨
        (s.params.refuseSecureGo = true ∧ ns = false)) →
      exec (.dmago ns chan addr) s = .fault .controllerFault) ∧
    (∀ c : Fin 8, s.cur = .channel c → exec (.dmago ns chan addr) s = .fault .undecodable) ∧
    exec (.dmalpends lc bjump) s = .refused .qualifierNotModelled ∧
    exec (.dmalpendb lc bjump) s = .refused .qualifierNotModelled

/-- A read of a register that holds ⊥ is UnwrittenRegister (R201), for DMALD, DMAST and DMALPEND. -/
def Obligations.UnwrittenRegistersFault : Prop :=
  ∀ (s : State) (c : Fin 8), s.cur = .channel c →
    let l := s.params.ccrLayout
    ((s.chan c).ccr = none ∨ (s.chan c).sar = none → exec .dmald s = .fault .unwrittenRegister) ∧
    ((s.chan c).ccr = none → exec .dmast s = .fault .unwrittenRegister) ∧
    (∀ ccr, (s.chan c).ccr = some ccr → (s.chan c).dar = none →
      ((ccr.extractLsb' l.dstLen.lo l.dstLen.len).toNat + 1) * 2 ^ (ccr.extractLsb' l.dstSize.lo l.dstSize.len).toNat ≤
        (s.chan c).fifo.length →
      exec .dmast s = .fault .unwrittenRegister) ∧
    (∀ bjump, (s.chan c).lc0 = none → exec (.dmalpend .lc0 bjump) s = .fault .unwrittenRegister) ∧
    (∀ bjump, (s.chan c).lc1 = none → exec (.dmalpend .lc1 bjump) s = .fault .unwrittenRegister)

/-- The fifo's bounds (R205, R206): a load that does not fit is FifoOverflow, a store with too little data is
FifoUnderrun.
That the accesses of the beats come first is the model's reading (log 12). -/
def Obligations.FifoBoundsFault : Prop :=
  ∀ (s : State) (c : Fin 8) (ccr : Word), s.cur = .channel c → (s.chan c).ccr = some ccr →
    let l := s.params.ccrLayout
    let w := 2 ^ (ccr.extractLsb' l.srcSize.lo l.srcSize.len).toNat
    let k := (ccr.extractLsb' l.srcLen.lo l.srcLen.len).toNat + 1
    (∀ sar : Word, (s.chan c).sar = some sar →
      (∀ j, j < k → s.params.access .load (beatAddr (ccr.getLsbD l.srcInc.lo) sar.toNat w j) w = .ok ()) →
      s.params.mfifoBytes < (s.chan c).fifo.length + k * w → exec .dmald s = .fault .fifoOverflow) ∧
    ((s.chan c).fifo.length <
        ((ccr.extractLsb' l.dstLen.lo l.dstLen.len).toNat + 1) * 2 ^ (ccr.extractLsb' l.dstSize.lo l.dstSize.len).toNat →
      exec .dmast s = .fault .fifoUnderrun)

/-- The first beat of a DMALD or DMAST that cannot be accessed: an address that does not fit below 2^32, or that the
platform refuses, is AddressError (R213); a bus error is ControllerFault (R246).
The beat order of the faults, and that the fifo's bound is asked beat by beat, are the model's reading (log 12); where bus
errors arise is its choice (log 24). -/
def Obligations.BeatsThatCannotBeAccessedFault : Prop :=
  ∀ (s : State) (c : Fin 8) (ccr : Word), s.cur = .channel c → (s.chan c).ccr = some ccr →
    let l := s.params.ccrLayout
    let sw := 2 ^ (ccr.extractLsb' l.srcSize.lo l.srcSize.len).toNat
    let sk := (ccr.extractLsb' l.srcLen.lo l.srcLen.len).toNat + 1
    let dw := 2 ^ (ccr.extractLsb' l.dstSize.lo l.dstSize.len).toNat
    let dk := (ccr.extractLsb' l.dstLen.lo l.dstLen.len).toNat + 1
    (∀ (sar : Word) (j : Nat), (s.chan c).sar = some sar → j < sk →
      let a := fun n => beatAddr (ccr.getLsbD l.srcInc.lo) sar.toNat sw n
      (∀ n, n < j → s.params.access .load (a n) sw = .ok ()) →
      (s.chan c).fifo.length + j * sw ≤ s.params.mfifoBytes →
      ((2 ^ 32 < a j + sw ∨ s.params.addrOk .load (a j) = false) → exec .dmald s = .fault .addressError) ∧
      (a j + sw ≤ 2 ^ 32 → s.params.addrOk .load (a j) = true →
        (∃ r ∈ s.params.busErrors, 0 < r.size ∧ a j < r.base + r.size ∧ r.base < a j + sw) →
        exec .dmald s = .fault .controllerFault)) ∧
    (∀ (dar : Word) (j : Nat), (s.chan c).dar = some dar → j < dk →
      let a := fun n => beatAddr (ccr.getLsbD l.dstInc.lo) dar.toNat dw n
      (∀ n, n < j → s.params.access .store (a n) dw = .ok () ∧
        ((s.chan c).progBase + (s.chan c).progLen ≤ a n ∨ a n + dw ≤ (s.chan c).progBase)) →
      dk * dw ≤ (s.chan c).fifo.length →
      ((2 ^ 32 < a j + dw ∨ s.params.addrOk .store (a j) = false) → exec .dmast s = .fault .addressError) ∧
      (a j + dw ≤ 2 ^ 32 → s.params.addrOk .store (a j) = true →
        (∃ r ∈ s.params.busErrors, 0 < r.size ∧ a j < r.base + r.size ∧ r.base < a j + dw) →
        exec .dmast s = .fault .controllerFault))

/-- A pc that would leave the address space is PcRange (R213, R204): the instructions that only advance it, DMALPEND that
falls through or jumps to 2^32 or above, DMALD and DMAST whose burst is good. -/
def Obligations.PcBeyondTheAddressSpaceFaults : Prop :=
  ∀ (s : State) (c : Fin 8), s.cur = .channel c →
    let ch := s.chan c
    let l := s.params.ccrLayout
    (2 ^ 32 ≤ ch.pc.toNat + 1 → exec .dmarmb s = .fault .pcRange ∧ exec .dmawmb s = .fault .pcRange) ∧
    (2 ^ 32 ≤ ch.pc.toNat + 2 → ∀ (lc : LoopReg) (count ev bjump : Nat),
      exec (.dmalp lc count) s = .fault .pcRange ∧ exec (.dmasev ev) s = .fault .pcRange ∧
      ((if lc = .lc0 then ch.lc0 else ch.lc1) = some 0 → exec (.dmalpend lc bjump) s = .fault .pcRange)) ∧
    (∀ (lc : LoopReg) (bjump : Nat) (v : Byte), (if lc = .lc0 then ch.lc0 else ch.lc1) = some v → v ≠ 0 →
      s.params.bjumpOrigin = .afterLpend → 2 ^ 32 + bjump ≤ ch.pc.toNat + 2 →
      exec (.dmalpend lc bjump) s = .fault .pcRange) ∧
    (2 ^ 32 ≤ ch.pc.toNat + 6 → ∀ (rd : MovReg) (imm : Word), exec (.dmamov rd imm) s = .fault .pcRange) ∧
    (∀ ccr sar : Word, ch.ccr = some ccr → ch.sar = some sar → 2 ^ 32 ≤ ch.pc.toNat + 1 →
      let w := 2 ^ (ccr.extractLsb' l.srcSize.lo l.srcSize.len).toNat
      let k := (ccr.extractLsb' l.srcLen.lo l.srcLen.len).toNat + 1
      (∀ j, j < k → s.params.access .load (beatAddr (ccr.getLsbD l.srcInc.lo) sar.toNat w j) w = .ok ()) →
      ch.fifo.length + k * w ≤ s.params.mfifoBytes → exec .dmald s = .fault .pcRange) ∧
    (∀ ccr dar : Word, ch.ccr = some ccr → ch.dar = some dar → 2 ^ 32 ≤ ch.pc.toNat + 1 →
      let w := 2 ^ (ccr.extractLsb' l.dstSize.lo l.dstSize.len).toNat
      let k := (ccr.extractLsb' l.dstLen.lo l.dstLen.len).toNat + 1
      (∀ j, j < k → s.params.access .store (beatAddr (ccr.getLsbD l.dstInc.lo) dar.toNat w j) w = .ok () ∧
        (ch.progBase + ch.progLen ≤ beatAddr (ccr.getLsbD l.dstInc.lo) dar.toNat w j ∨
          beatAddr (ccr.getLsbD l.dstInc.lo) dar.toNat w j + w ≤ ch.progBase)) →
      k * w ≤ ch.fifo.length → exec .dmast s = .fault .pcRange)

/-- A DMAST that completes leaves the program's own range as it was (R211, R63), and one whose first beat meets it is
ProgramOverwrite.
Which bytes are its own program is read off memory when it starts, the model's choice (log 16). -/
def Obligations.StoreNeverTouchesItsOwnProgram : Prop :=
  ∀ (s : State) (c : Fin 8), Memory.wf s.mem = true → s.cur = .channel c →
    let l := s.params.ccrLayout
    (∀ t, exec .dmast s = .next t → ∀ a, (s.chan c).progBase ≤ a → a < (s.chan c).progBase + (s.chan c).progLen →
      Memory.read t.mem a = Memory.read s.mem a) ∧
    (∀ ccr dar : Word, (s.chan c).ccr = some ccr → (s.chan c).dar = some dar →
      let w := 2 ^ (ccr.extractLsb' l.dstSize.lo l.dstSize.len).toNat
      ((ccr.extractLsb' l.dstLen.lo l.dstLen.len).toNat + 1) * w ≤ (s.chan c).fifo.length →
      s.params.access .store dar.toNat w = .ok () → 0 < (s.chan c).progLen →
      dar.toNat < (s.chan c).progBase + (s.chan c).progLen → (s.chan c).progBase < dar.toNat + w →
      exec .dmast s = .fault .programOverwrite)

/-! ## Frames -/

/-- What an instruction that completes leaves alone. On a channel thread: every other channel, every field of the machine
but memory and which of it is written, the interrupt outputs and the free-value counter; memory and which of it is written
unless it is DMAST, the interrupt outputs unless it is DMASEV, the counter unless it is DMALD or DMAST. DMAGO completes on
the manager only, and changes the channel it names and nothing else.
The counter and which bytes count as written are the model's own (log 11, log 16). -/
def Obligations.InstructionFrame : Prop :=
  ∀ (i : Instr) (s t : State), exec i s = .next t →
    (∀ c : Fin 8, s.cur = .channel c →
      (∀ d, d ≠ c → t.chan d = s.chan d) ∧
      t = { s with chans := t.chans, mem := t.mem, stored := t.stored, irq := t.irq, drawCount := t.drawCount } ∧
      (i ≠ .dmast → t.stored = s.stored ∧ ∀ a, Memory.read t.mem a = Memory.read s.mem a) ∧
      ((∀ ev, i ≠ .dmasev ev) → t.irq = s.irq) ∧
      (i ≠ .dmald → i ≠ .dmast → t.drawCount = s.drawCount)) ∧
    (s.cur = .manager → ∃ ns addr, ∃ c : Fin 8, i = .dmago ns c.val addr ∧ t = s.setChan c (t.chan c)) ∧
    (∀ ns chan addr, i = .dmago ns chan addr → s.cur = .manager)

/-- What it leaves alone in its own channel: all but the pc and, per instruction, the registers named. -/
def Obligations.ChannelRegisterFrame : Prop :=
  ∀ (i : Instr) (s t : State) (c : Fin 8), s.cur = .channel c → exec i s = .next t →
    match i with
    | .dmaend => t.chan c = { s.chan c with status := (t.chan c).status, ended := (t.chan c).ended }
    | .dmald => t.chan c = { s.chan c with pc := (t.chan c).pc, sar := (t.chan c).sar, fifo := (t.chan c).fifo }
    | .dmast => t.chan c = { s.chan c with pc := (t.chan c).pc, dar := (t.chan c).dar, fifo := (t.chan c).fifo }
    | .dmarmb => t.chan c = { s.chan c with pc := (t.chan c).pc }
    | .dmawmb => t.chan c = { s.chan c with pc := (t.chan c).pc }
    | .dmalp .lc0 _ => t.chan c = { s.chan c with pc := (t.chan c).pc, lc0 := (t.chan c).lc0 }
    | .dmalp .lc1 _ => t.chan c = { s.chan c with pc := (t.chan c).pc, lc1 := (t.chan c).lc1 }
    | .dmasev _ => t.chan c = { s.chan c with pc := (t.chan c).pc, events := (t.chan c).events }
    | .dmalpend .lc0 _ => t.chan c = { s.chan c with pc := (t.chan c).pc, lc0 := (t.chan c).lc0 }
    | .dmalpend .lc1 _ => t.chan c = { s.chan c with pc := (t.chan c).pc, lc1 := (t.chan c).lc1 }
    | .dmalpends _ _ => False
    | .dmalpendb _ _ => False
    | .dmago _ _ _ => False
    | .dmamov .sar _ => t.chan c = { s.chan c with pc := (t.chan c).pc, sar := (t.chan c).sar }
    | .dmamov .ccr _ => t.chan c = { s.chan c with pc := (t.chan c).pc, ccr := (t.chan c).ccr }
    | .dmamov .dar _ => t.chan c = { s.chan c with pc := (t.chan c).pc, dar := (t.chan c).dar }

/-- DMAST stores nowhere but in its beats: the address of beat j is DAR + j × w, or DAR when CCR[14] is 0 (R206). -/
def Obligations.StoreFrame : Prop :=
  ∀ (s t : State) (c : Fin 8) (ccr dar : Word), Memory.wf s.mem = true → s.cur = .channel c →
    (s.chan c).ccr = some ccr → (s.chan c).dar = some dar → exec .dmast s = .next t →
    let l := s.params.ccrLayout
    let w := 2 ^ (ccr.extractLsb' l.dstSize.lo l.dstSize.len).toNat
    ∀ a, (∀ j, j < (ccr.extractLsb' l.dstLen.lo l.dstLen.len).toNat + 1 →
        a < beatAddr (ccr.getLsbD l.dstInc.lo) dar.toNat w j ∨
        beatAddr (ccr.getLsbD l.dstInc.lo) dar.toNat w j + w ≤ a) →
      Memory.read t.mem a = Memory.read s.mem a

/-! ## The step -/

/-- When the bytes at an executing channel's pc are those of a well-formed instruction, and they can be fetched, the
step is exec of it on that channel; a fault marks the channel Faulted and changes nothing else (R214, R245).
The schedule, that an injected instruction comes first, and the missing partial effect are the model's (log 7, log 14,
log 8). -/
def Obligations.StepRunsTheFetchedInstruction : Prop :=
  ∀ (s : State) (c : Fin 8) (rest : List Agent) (i : Instr), s.params.opc.legal →
    s.sched = .thread (.channel c) :: rest → (s.chan c).status = .executing → s.debugFor c = false → i.wf = true →
    Memory.readBytes s.mem (s.chan c).pc.toNat (encode s.params.opc i).length = encode s.params.opc i →
    s.params.access .fetch (s.chan c).pc.toNat 1 = .ok () →
    ((encode s.params.opc i).length = 1 ∨
      s.params.access .fetch ((s.chan c).pc.toNat + 1) ((encode s.params.opc i).length - 1) = .ok ()) →
    let u : State := { s with sched := rest, cur := .channel c }
    step s = match exec i u with
      | .next t => .next t
      | .fault r => .next (u.setChan c { u.chan c with status := .faulted r })
      | .refused r => .refused r

/-- An injected instruction is executed by the thread that DBGINST0 selects (R37, R38): the manager where bit 0 is 0, else
the channel thread of bits 10:8. The step is exec of it on that thread, after which DBGSTATUS bit 0 is 0 (R189); a fault
marks the thread Faulted (R245).
The schedule, the busy bit after a fault, that an injected instruction has its whole effect on a channel that is Stopped
or Executing, and that a fault leaves no partial effect are the model's (log 7, log 15, log 14, log 8). -/
def Obligations.StepRunsTheInjectedInstruction : Prop :=
  ∀ (s : State) (rest : List Agent) (i : Instr) (more : List Byte),
    s.params.regs = RegMap.spec → s.dbgBusy = true → decode s.params.opc s.injectedBytes = .ok (i, more) →
    (s.sched = .thread .manager :: rest → s.mgrFault = none → s.dbginst0.getLsbD 0 = false →
      let u : State := { s with sched := rest, cur := .manager }
      step s = match exec i u with
        | .next t => .next { t with dbgBusy := false }
        | .fault r => .next { u with mgrFault := some r }
        | .refused r => .refused r) ∧
    (∀ c : Fin 8, s.sched = .thread (.channel c) :: rest → s.dbginst0.getLsbD 0 = true →
      (s.dbginst0.extractLsb' 8 3).toNat = c.val → c.val < s.params.nChannels →
      (∀ r, (s.chan c).status ≠ .faulted r) →
      let u : State := { s with sched := rest, cur := .channel c }
      step s = match exec i u with
        | .next t => .next { t with dbgBusy := false }
        | .fault r => .next (u.setChan c { u.chan c with status := .faulted r })
        | .refused r => .refused r)

/-- A fetch that fails marks the channel Faulted and leaves memory: Undecodable for a byte 0 outside the subset or a
reserved byte-1 form (R212, R77), AddressError where byte 0 or the remaining bytes do not fit below 2^32 or are refused
(R213), ControllerFault for a bus error (R246).
The schedule and where bus errors arise are the model's (log 7, log 24); a refusal is asked of an access's first address
(log 22). -/
def Obligations.StepFaultsOnAFailedFetch : Prop :=
  ∀ (s : State) (c : Fin 8) (rest : List Agent),
    s.sched = .thread (.channel c) :: rest → (s.chan c).status = .executing → s.debugFor c = false →
    let pc := (s.chan c).pc.toNat
    let b0 := Memory.read s.mem pc
    let ok := fun a n => s.params.access .fetch a n = .ok ()
    let faults := fun r => ∃ t, step s = .next t ∧ (t.chan c).status = .faulted r ∧ t.mem = s.mem
    let bus := fun a n => ∃ r ∈ s.params.busErrors, 0 < r.size ∧ a < r.base + r.size ∧ r.base < a + n
    (ok pc 1 → instrLen s.params.opc b0 = none → faults .undecodable) ∧
    (∀ n, ok pc 1 → instrLen s.params.opc b0 = some n → (n = 1 ∨ ok (pc + 1) (n - 1)) →
      decode s.params.opc (Memory.readBytes s.mem pc n) = .error (.undecodable b0) → faults .undecodable) ∧
    (s.params.addrOk .fetch pc = false → faults .addressError) ∧
    (∀ n, ok pc 1 → instrLen s.params.opc b0 = some n → 1 < n →
      (2 ^ 32 < pc + n ∨ s.params.addrOk .fetch (pc + 1) = false) → faults .addressError) ∧
    (s.params.addrOk .fetch pc = true → bus pc 1 → faults .controllerFault) ∧
    (∀ n, ok pc 1 → instrLen s.params.opc b0 = some n → 1 < n → pc + n ≤ 2 ^ 32 →
      s.params.addrOk .fetch (pc + 1) = true → bus (pc + 1) (n - 1) → faults .controllerFault)

/-- A channel that is not Executing fetches nothing (R214): with no injected instruction for it, nothing but the schedule
changes.
The schedule and the injected instruction's turn are the model's (log 7, log 14). -/
def Obligations.StoppedChannelsWait : Prop :=
  ∀ (s : State) (c : Fin 8) (rest : List Agent),
    s.sched = .thread (.channel c) :: rest → (s.chan c).status ≠ .executing → s.debugFor c = false →
    step s = .next { s with sched := rest }

/-! ## Whole-machine rules and invariants -/

/-- The invariant holds at reset.
The empty memory list and the empty written set are the model's choice (log 1, log 16). -/
def Obligations.ResetHasTheInvariant : Prop := State.reset.Inv

/-- Every step keeps it. -/
def Obligations.StepKeepsTheInvariant : Prop :=
  ∀ s t : State, s.Inv → step s = .next t → t.Inv

/-- A Faulted agent stays Faulted for the same reason whatever step follows (R245), and no step changes the parameters (R9).
That the parameter record stands in the state is the model's choice (log 4). -/
def Obligations.FaultsAreNeverCleared : Prop :=
  ∀ s t : State, step s = .next t →
    (∀ (a : Agent) (r : Fault), s.FaultedFor a r → t.FaultedFor a r) ∧ t.params = s.params

/-- Only an injected DMAGO, executed by the manager on a Stopped channel, starts a channel (R180, R189). -/
def Obligations.OnlyAnInjectedGoStartsAChannel : Prop :=
  ∀ (s t : State) (c : Fin 8), step s = .next t →
    (s.chan c).status ≠ .executing → (t.chan c).status = .executing →
    s.mover = .thread .manager ∧ s.dbgBusy = true ∧ s.mgrFault = none ∧ (s.chan c).status = .stopped ∧
    ∃ ns addr, s.injected = .ok (.dmago ns c.val addr) ∧ (t.chan c).pc = addr ∧ (t.chan c).ns = ns

/-- Only its own DMAEND, fetched or injected, with an empty fifo, or an external controller reset makes an executing channel
Stopped (R210, R215, R261).
What an external reset does and that a channel executes an injected instruction are the model's choice (log 21, log 14). -/
def Obligations.OnlyEndStopsAChannel : Prop :=
  ∀ (s t : State) (c : Fin 8), step s = .next t →
    (s.chan c).status = .executing → (t.chan c).status = .stopped →
    (s.mover = .thread (.channel c) ∧
      (s.fetch (s.chan c).pc = .ok .dmaend ∨ (s.debugFor c = true ∧ s.injected = .ok .dmaend)) ∧
      (s.chan c).fifo = [] ∧ (t.chan c).pc = (s.chan c).pc ∧ t.RunEnded c) ∨
    ∃ i h, s.mover = .host i ∧ s.hosts[i]? = some h ∧ h.job = .idle ∧ h.ops.head? = some .resetController

/-- A byte of memory changes only by a beat of the moving channel's DMAST, by the instruction the moving host context emits
next, or by its host write of that byte (R8, R58).
What the agents are and what one step does are the model's choice (log 7, log 14, log 19). -/
def Obligations.OnlyStoresAndHostWritesChangeMemory : Prop :=
  ∀ (s t : State) (a : Nat), s.Inv → step s = .next t → Memory.read t.mem a ≠ Memory.read s.mem a →
    (∃ (c : Fin 8) (ccr dar : Word), s.mover = .thread (.channel c) ∧
      (((s.chan c).status = .executing ∧ s.fetch (s.chan c).pc = .ok .dmast) ∨
        (s.debugFor c = true ∧ s.injected = .ok .dmast)) ∧
      (s.chan c).ccr = some ccr ∧ (s.chan c).dar = some dar ∧
      let l := s.params.ccrLayout
      let w := 2 ^ (ccr.extractLsb' l.dstSize.lo l.dstSize.len).toNat
      ∃ j, j < (ccr.extractLsb' l.dstLen.lo l.dstLen.len).toNat + 1 ∧
        beatAddr (ccr.getLsbD l.dstInc.lo) dar.toNat w j ≤ a ∧
        a < beatAddr (ccr.getLsbD l.dstInc.lo) dar.toNat w j + w) ∨
    (∃ (i : Nat) (h : HostCtx) (j : EmitJob) (item : Emit) (rest : List Emit) (e : EncCall) (bytes : List Byte),
      s.mover = .host i ∧ s.hosts[i]? = some h ∧ h.fault = none ∧ h.job = .emit j ∧ j.todo = item :: rest ∧
      j.cursor.callOf s.params.bjumpOrigin item = some e ∧ encBytes s.params.opc e = .ok bytes ∧
      j.buf.base + j.off ≤ a ∧ a < j.buf.base + j.off + bytes.length ∧ a < j.buf.base + j.buf.cap) ∨
    (∃ (i : Nat) (w : Word) (v : Byte), s.mover = .host i ∧ s.aboutTo i (.hostWrite w v) ∧ w.toNat = a ∧
      Memory.read t.mem a = v)

/-- The state before any submission (R47, R200): every channel Stopped, every register ⊥, fifo and event set empty, no
operation under way, no result, nothing in flight.
The idle host contexts are the model's choice (log 18). -/
def Obligations.ResetStateOfTheSpec : Prop :=
  (∀ c : Fin 8, (State.reset.chan c).status = .stopped ∧ (State.reset.chan c).sar = none ∧
    (State.reset.chan c).dar = none ∧ (State.reset.chan c).ccr = none ∧ (State.reset.chan c).lc0 = none ∧
    (State.reset.chan c).lc1 = none ∧ (State.reset.chan c).fifo = [] ∧ (State.reset.chan c).events = [] ∧
    ¬ State.reset.RunEnded c) ∧
  (∀ h ∈ State.reset.hosts, h.job = .idle ∧ h.result = none ∧ h.fault = none) ∧ State.reset.flights = []
end

