-- ==== Sys2Proof/Laws/Decode.lean ====
section
/-! SUPPORT. Byte 0: what a table makes of it, for every legal table and for the table of the spec. -/
namespace Sys2Proof

theorem Head.mem_all (h : Head) : h ∈ Head.all := by
  cases h with
  | lp lc => cases lc <;> decide
  | lpend lc q => cases lc <;> cases q <;> decide
  | go ns => cases ns <;> decide
  | _ => decide

/-- A byte 0 that says something is that head's byte 0. -/
theorem Opc.byte0_of_headOf {o : Opc} {b0 : Byte} {h : Head} (hh : o.headOf b0 = some h) : o.byte0 h = b0 := by
  simpa using List.find?_some hh

/-- Under a legal table byte 0 alone selects the instruction (R72). -/
theorem Opc.headOf_byte0 {o : Opc} (ho : o.legal) (h : Head) : o.headOf (o.byte0 h) = some h := by
  cases hf : o.headOf (o.byte0 h) with
  | none =>
    have := List.find?_eq_none.mp hf h h.mem_all
    simp at this
  | some k => rw [List.inj_on_of_nodup_map ho.1 k.mem_all h.mem_all (byte0_of_headOf hf)]

/-- Under a legal table byte 1 of DMAMOV selects the register (R74). -/
theorem Opc.movRegOf_movCode {o : Opc} (ho : o.legal) (rd : MovReg) : o.movRegOf (o.movCode rd) = some rd := by
  have h := ho.2
  simp only [List.nodup_cons, List.mem_cons, List.not_mem_nil, or_false, not_or] at h
  obtain ⟨⟨h1, h2⟩, h3, -⟩ := h
  cases rd <;> simp [Opc.movRegOf, Opc.movCode, Ne.symm h1, Ne.symm h2, Ne.symm h3]

theorem Opc.movCode_of_movRegOf {o : Opc} {b : Byte} {rd : MovReg} (h : o.movRegOf b = some rd) : o.movCode rd = b := by
  unfold Opc.movRegOf at h
  split at h
  · next e => obtain rfl : MovReg.sar = rd := by simpa using h
              exact e.symm
  · split at h
    · next e => obtain rfl : MovReg.ccr = rd := by simpa using h
                exact e.symm
    · split at h
      · next e => obtain rfl : MovReg.dar = rd := by simpa using h
                  exact e.symm
      · simp at h

theorem Opc.spec_legal : Opc.spec.legal := by decide

@[simp] theorem length_bytesLe32 (v : Word) : (bytesLe32 v).length = 4 := rfl

/-- The length of an encoding is that of its format (R70). -/
theorem length_encode (o : Opc) (i : Instr) : (encode o i).length = i.head.len := by
  cases i <;> rfl

/-- Byte 0 of an encoding tells its length (R76). -/
theorem instrLen_encode {o : Opc} (ho : o.legal) (i : Instr) :
    ((encode o i).head?).bind (instrLen o) = some (encode o i).length := by
  rw [length_encode]
  simp [encode, instrLen, Opc.headOf_byte0 ho]

theorem le32_bytesLe32 (v : Word) :
    le32 (v.extractLsb' 0 8) (v.extractLsb' 8 8) (v.extractLsb' 16 8) (v.extractLsb' 24 8) = v := by
  apply BitVec.eq_of_getLsbD_eq
  intro i hi
  simp only [le32, BitVec.getLsbD_append, BitVec.getLsbD_extractLsb']
  have : i < 8 ∨ (8 ≤ i ∧ i < 16) ∨ (16 ≤ i ∧ i < 24) ∨ 24 ≤ i := by omega
  rcases this with h | ⟨h, h'⟩ | ⟨h, h'⟩ | h
  · simp [h]
  · simp [show ¬ i < 8 by omega, show i - 8 < 8 by omega, show 8 + (i - 8) = i by omega]
  · simp [show ¬ i < 8 by omega, show ¬ i - 8 < 8 by omega, show i - 8 - 8 < 8 by omega,
      show 16 + (i - 8 - 8) = i by omega]
  · simp [show ¬ i < 8 by omega, show ¬ i - 8 < 8 by omega, show ¬ i - 8 - 8 < 8 by omega,
      show 24 + (i - 8 - 8 - 8) = i by omega]
    intro; omega

end Sys2Proof
end

