-- ==== Sys2Proof/Laws/Memory.lean ====
section
/-! SUPPORT. Memory: reading after writing, and the canonical form. -/
namespace Sys2Proof.Machine

/-- The canonical form, stated over the whole list. -/
theorem Memory.wf_cons {a : Nat} {b : Byte} {m : Memory} :
    Memory.wf ((a, b) :: m) = true ↔ b ≠ emptyByte ∧ (∀ p ∈ m.head?, a < p.1) ∧ Memory.wf m = true := by
  cases m with
  | nil => simp [Memory.wf]
  | cons p m => obtain ⟨a', b'⟩ := p; simp [Memory.wf, and_assoc]

/-- In a canonical memory every later cell has a higher address. -/
theorem Memory.wf_lt {a : Nat} {b : Byte} {m : Memory} (h : Memory.wf ((a, b) :: m) = true) :
    ∀ p ∈ m, a < p.1 := by
  induction m generalizing a b with
  | nil => simp
  | cons q m ih =>
    obtain ⟨a', b'⟩ := q
    obtain ⟨-, hlt, hm⟩ := Memory.wf_cons.mp h
    have h0 : a < a' := hlt (a', b') rfl
    intro p hp
    rcases List.mem_cons.mp hp with rfl | hp
    · exact h0
    · exact Nat.lt_trans h0 (ih hm p hp)

theorem Memory.read_of_not_mem {m : Memory} {x : Nat} (h : ∀ p ∈ m, x ≠ p.1) : Memory.read m x = emptyByte := by
  induction m with
  | nil => rfl
  | cons p m ih =>
    obtain ⟨a, b⟩ := p
    have h1 := h (a, b) List.mem_cons_self
    simp only [Memory.read, h1, if_false]
    exact ih fun p hp => h p (List.mem_cons_of_mem _ hp)

/-- Reading a byte after a write of one byte. -/
theorem Memory.read_write {m : Memory} (hm : Memory.wf m = true) (x y : Nat) (v : Byte) :
    Memory.read (Memory.write m x v) y = if y = x then v else Memory.read m y := by
  induction m with
  | nil =>
    by_cases hv : v = emptyByte <;> by_cases hy : y = x <;> simp [Memory.write, Memory.read, hv, hy]
  | cons p m ih =>
    obtain ⟨a, b⟩ := p
    obtain ⟨hb, hlt, hm'⟩ := Memory.wf_cons.mp hm
    have habove := Memory.wf_lt hm
    simp only [Memory.write]
    by_cases hxa : x < a
    · have hnone : Memory.read ((a, b) :: m) x = emptyByte := by
        apply Memory.read_of_not_mem
        intro p hp
        rcases List.mem_cons.mp hp with rfl | hp
        · exact Nat.ne_of_lt hxa
        · exact Nat.ne_of_lt (Nat.lt_trans hxa (habove p hp))
      simp only [hxa, if_true]
      by_cases hv : v = emptyByte
      · by_cases hy : y = x
        · subst hy; simp [hv, hnone]
        · simp [hv, hy]
      · by_cases hy : y = x
        · subst hy; simp [hv, Memory.read]
        · simp [hv, Memory.read, hy]
    · by_cases hxe : x = a
      · subst hxe
        have hnone : Memory.read m x = emptyByte := by
          apply Memory.read_of_not_mem
          intro p hp
          exact Nat.ne_of_lt (habove p hp)
        by_cases hv : v = emptyByte
        · by_cases hy : y = x
          · subst hy; simp [hv, hnone]
          · simp [hv, hy, Memory.read]
        · by_cases hy : y = x <;> simp [hv, hy, Memory.read]
      · simp only [hxa, hxe, if_false, Memory.read, ih hm']
        by_cases hya : y = a
        · subst hya; simp [Ne.symm hxe]
        · simp [hya]

theorem Memory.mem_write {m : Memory} {x : Nat} {v : Byte} {p : Host.Cell} (h : p ∈ Memory.write m x v) :
    p ∈ m ∨ p.1 = x := by
  induction m with
  | nil =>
    by_cases hv : v = emptyByte <;> simp [Memory.write, hv] at h
    subst h; exact .inr rfl
  | cons q m ih =>
    obtain ⟨a, b⟩ := q
    simp only [Memory.write] at h
    split at h
    · split at h
      · exact .inl h
      · rcases List.mem_cons.mp h with rfl | h
        · exact .inr rfl
        · exact .inl h
    · split at h
      · next hxa =>
        split at h
        · exact .inl (List.mem_cons_of_mem _ h)
        · rcases List.mem_cons.mp h with rfl | h
          · exact .inr rfl
          · exact .inl (List.mem_cons_of_mem _ h)
      · rcases List.mem_cons.mp h with rfl | h
        · exact .inl List.mem_cons_self
        · exact (ih h).imp (List.mem_cons_of_mem _) id

/-- Writing a byte keeps the canonical form. -/
theorem Memory.wf_write {m : Memory} (hm : Memory.wf m = true) (x : Nat) (v : Byte) :
    Memory.wf (Memory.write m x v) = true := by
  induction m with
  | nil => by_cases hv : v = emptyByte <;> simp [Memory.write, Memory.wf, hv]
  | cons p m ih =>
    obtain ⟨a, b⟩ := p
    obtain ⟨hb, hlt, hm'⟩ := Memory.wf_cons.mp hm
    have habove := Memory.wf_lt hm
    simp only [Memory.write]
    split
    · next hxa =>
      split
      · exact hm
      · next hv => exact Memory.wf_cons.mpr ⟨hv, by simpa using hxa, hm⟩
    · split
      · next hxa =>
        split
        · exact hm'
        · next hv => exact Memory.wf_cons.mpr ⟨hv, by subst hxa; exact hlt, hm'⟩
      · refine Memory.wf_cons.mpr ⟨hb, ?_, ih hm'⟩
        intro p hp
        have hp' : p ∈ Memory.write m x v := List.mem_of_mem_head? hp
        rcases Memory.mem_write hp' with h | h
        · exact habove p h
        · omega

theorem Memory.wf_writeBytes {m : Memory} (hm : Memory.wf m = true) (a : Nat) (bs : List Byte) :
    Memory.wf (Memory.writeBytes m a bs) = true := by
  induction bs generalizing m a with
  | nil => exact hm
  | cons b bs ih => exact ih (Memory.wf_write hm a b) (a + 1)

theorem Memory.mem_writeBytes {m : Memory} {a : Nat} {bs : List Byte} {p : Host.Cell}
    (h : p ∈ Memory.writeBytes m a bs) : p ∈ m ∨ (a ≤ p.1 ∧ p.1 < a + bs.length) := by
  induction bs generalizing m a with
  | nil => exact .inl h
  | cons b bs ih =>
    rcases ih h with h | h
    · rcases Memory.mem_write h with h | h
      · exact .inl h
      · exact .inr ⟨by omega, by simp; omega⟩
    · exact .inr ⟨by omega, by simp; omega⟩

/-- Outside the bytes stored, memory reads as before. -/
theorem Memory.read_writeBytes_outside {m : Memory} (hm : Memory.wf m = true) {a x : Nat} {bs : List Byte}
    (h : x < a ∨ a + bs.length ≤ x) : Memory.read (Memory.writeBytes m a bs) x = Memory.read m x := by
  induction bs generalizing m a with
  | nil => rfl
  | cons b bs ih =>
    simp only [List.length_cons] at h
    rw [Memory.writeBytes, ih (Memory.wf_write hm a b) (by omega), Memory.read_write hm]
    simp [show x ≠ a by omega]

/-- Inside the bytes stored, memory reads as they say. -/
theorem Memory.read_writeBytes_inside {m : Memory} (hm : Memory.wf m = true) {a : Nat} {bs : List Byte} {k : Nat}
    (h : k < bs.length) : Memory.read (Memory.writeBytes m a bs) (a + k) = bs[k] := by
  induction bs generalizing m a k with
  | nil => simp at h
  | cons b bs ih =>
    cases k with
    | zero =>
      rw [Memory.writeBytes, Memory.read_writeBytes_outside (Memory.wf_write hm a b) (by omega),
        Memory.read_write hm]
      simp
    | succ k =>
      have := ih (Memory.wf_write hm a b) (a := a + 1) (k := k) (by simpa using h)
      rw [Memory.writeBytes, show a + (k + 1) = a + 1 + k by omega, this]
      rfl

@[simp] theorem Memory.length_readBytes (m : Memory) (a n : Nat) : (Memory.readBytes m a n).length = n := by
  induction n generalizing a with
  | zero => rfl
  | succ n ih => simp [Memory.readBytes, ih]

theorem Memory.readBytes_add (m : Memory) (a n k : Nat) :
    Memory.readBytes m a (n + k) = Memory.readBytes m a n ++ Memory.readBytes m (a + n) k := by
  induction n generalizing a with
  | zero => simp [Memory.readBytes]
  | succ n ih =>
    rw [show n + 1 + k = (n + k) + 1 by omega]
    simp [Memory.readBytes, ih, show a + 1 + n = a + (n + 1) by omega]

theorem Memory.writeBytes_append (m : Memory) (a : Nat) (xs ys : List Byte) :
    Memory.writeBytes m a (xs ++ ys) = Memory.writeBytes (Memory.writeBytes m a xs) (a + xs.length) ys := by
  induction xs generalizing m a with
  | nil => rfl
  | cons x xs ih => simp [Memory.writeBytes, ih, show a + 1 + xs.length = a + (xs.length + 1) by omega]

end Sys2Proof.Machine
end

