-- ==== Sys2Proof/Laws/State.lean ====
section
/-! SUPPORT. One lemma per field for each shared update of State, so that no proof unfolds a record update. -/
namespace Sys2Proof.Machine

/-! ## setChan -/

@[simp] theorem chan_setChan_same (s : State) (c : Fin 8) (ch : Chan) : (s.setChan c ch).chan c = ch := by
  simp [State.chan, State.setChan]

theorem chan_setChan_other (s : State) {c d : Fin 8} (ch : Chan) (h : d ≠ c) :
    (s.setChan c ch).chan d = s.chan d := by
  simp only [State.chan, State.setChan, Fin.getElem_fin]
  exact Vector.getElem_set_ne _ _ (fun e => h (Fin.ext e.symm))

theorem chan_setChan (s : State) (c d : Fin 8) (ch : Chan) :
    (s.setChan c ch).chan d = if d = c then ch else s.chan d := by
  split
  · next h => subst h; exact chan_setChan_same s d ch
  · next h => exact chan_setChan_other s ch h

/-- Two states with the same channels, by index. -/
theorem chans_eq_of_chan {s t : State} (h : ∀ c, s.chan c = t.chan c) : s.chans = t.chans := by
  apply Vector.ext
  intro k hk
  exact h ⟨k, hk⟩

@[simp] theorem setChan_chan_self (s : State) (c : Fin 8) : s.setChan c (s.chan c) = s := by
  have h : (s.setChan c (s.chan c)).chans = s.chans := by
    apply chans_eq_of_chan
    intro d
    rw [chan_setChan]
    split
    · next e => rw [e]
    · rfl
  have e : s.setChan c (s.chan c) = { s with chans := (s.setChan c (s.chan c)).chans } := rfl
  rw [e, h]

@[simp] theorem params_setChan (s : State) (c : Fin 8) (ch : Chan) : (s.setChan c ch).params = s.params := rfl
@[simp] theorem mgrFault_setChan (s : State) (c : Fin 8) (ch : Chan) : (s.setChan c ch).mgrFault = s.mgrFault := rfl
@[simp] theorem dbgBusy_setChan (s : State) (c : Fin 8) (ch : Chan) : (s.setChan c ch).dbgBusy = s.dbgBusy := rfl
@[simp] theorem dbginst0_setChan (s : State) (c : Fin 8) (ch : Chan) : (s.setChan c ch).dbginst0 = s.dbginst0 := rfl
@[simp] theorem dbginst1_setChan (s : State) (c : Fin 8) (ch : Chan) : (s.setChan c ch).dbginst1 = s.dbginst1 := rfl
@[simp] theorem dbgcmd_setChan (s : State) (c : Fin 8) (ch : Chan) : (s.setChan c ch).dbgcmd = s.dbgcmd := rfl
@[simp] theorem inten_setChan (s : State) (c : Fin 8) (ch : Chan) : (s.setChan c ch).inten = s.inten := rfl
@[simp] theorem irq_setChan (s : State) (c : Fin 8) (ch : Chan) : (s.setChan c ch).irq = s.irq := rfl
@[simp] theorem mem_setChan (s : State) (c : Fin 8) (ch : Chan) : (s.setChan c ch).mem = s.mem := rfl
@[simp] theorem dirty_setChan (s : State) (c : Fin 8) (ch : Chan) : (s.setChan c ch).dirty = s.dirty := rfl
@[simp] theorem stored_setChan (s : State) (c : Fin 8) (ch : Chan) : (s.setChan c ch).stored = s.stored := rfl
@[simp] theorem flights_setChan (s : State) (c : Fin 8) (ch : Chan) : (s.setChan c ch).flights = s.flights := rfl
@[simp] theorem hosts_setChan (s : State) (c : Fin 8) (ch : Chan) : (s.setChan c ch).hosts = s.hosts := rfl
@[simp] theorem cur_setChan (s : State) (c : Fin 8) (ch : Chan) : (s.setChan c ch).cur = s.cur := rfl
@[simp] theorem sched_setChan (s : State) (c : Fin 8) (ch : Chan) : (s.setChan c ch).sched = s.sched := rfl
@[simp] theorem draws_setChan (s : State) (c : Fin 8) (ch : Chan) : (s.setChan c ch).draws = s.draws := rfl
@[simp] theorem drawCount_setChan (s : State) (c : Fin 8) (ch : Chan) : (s.setChan c ch).drawCount = s.drawCount := rfl
@[simp] theorem trace_setChan (s : State) (c : Fin 8) (ch : Chan) : (s.setChan c ch).trace = s.trace := rfl

/-! ## modifyHost and finish -/

@[simp] theorem chan_modifyHost (s : State) (i : Nat) (f : HostCtx → HostCtx) (c : Fin 8) :
    (s.modifyHost i f).chan c = s.chan c := rfl
@[simp] theorem params_modifyHost (s : State) (i : Nat) (f : HostCtx → HostCtx) : (s.modifyHost i f).params = s.params := rfl
@[simp] theorem chans_modifyHost (s : State) (i : Nat) (f : HostCtx → HostCtx) : (s.modifyHost i f).chans = s.chans := rfl
@[simp] theorem mgrFault_modifyHost (s : State) (i : Nat) (f : HostCtx → HostCtx) : (s.modifyHost i f).mgrFault = s.mgrFault := rfl
@[simp] theorem dbgBusy_modifyHost (s : State) (i : Nat) (f : HostCtx → HostCtx) : (s.modifyHost i f).dbgBusy = s.dbgBusy := rfl
@[simp] theorem dbginst0_modifyHost (s : State) (i : Nat) (f : HostCtx → HostCtx) : (s.modifyHost i f).dbginst0 = s.dbginst0 := rfl
@[simp] theorem dbginst1_modifyHost (s : State) (i : Nat) (f : HostCtx → HostCtx) : (s.modifyHost i f).dbginst1 = s.dbginst1 := rfl
@[simp] theorem dbgcmd_modifyHost (s : State) (i : Nat) (f : HostCtx → HostCtx) : (s.modifyHost i f).dbgcmd = s.dbgcmd := rfl
@[simp] theorem inten_modifyHost (s : State) (i : Nat) (f : HostCtx → HostCtx) : (s.modifyHost i f).inten = s.inten := rfl
@[simp] theorem irq_modifyHost (s : State) (i : Nat) (f : HostCtx → HostCtx) : (s.modifyHost i f).irq = s.irq := rfl
@[simp] theorem mem_modifyHost (s : State) (i : Nat) (f : HostCtx → HostCtx) : (s.modifyHost i f).mem = s.mem := rfl
@[simp] theorem dirty_modifyHost (s : State) (i : Nat) (f : HostCtx → HostCtx) : (s.modifyHost i f).dirty = s.dirty := rfl
@[simp] theorem stored_modifyHost (s : State) (i : Nat) (f : HostCtx → HostCtx) : (s.modifyHost i f).stored = s.stored := rfl
@[simp] theorem flights_modifyHost (s : State) (i : Nat) (f : HostCtx → HostCtx) : (s.modifyHost i f).flights = s.flights := rfl
@[simp] theorem cur_modifyHost (s : State) (i : Nat) (f : HostCtx → HostCtx) : (s.modifyHost i f).cur = s.cur := rfl
@[simp] theorem sched_modifyHost (s : State) (i : Nat) (f : HostCtx → HostCtx) : (s.modifyHost i f).sched = s.sched := rfl
@[simp] theorem draws_modifyHost (s : State) (i : Nat) (f : HostCtx → HostCtx) : (s.modifyHost i f).draws = s.draws := rfl
@[simp] theorem drawCount_modifyHost (s : State) (i : Nat) (f : HostCtx → HostCtx) : (s.modifyHost i f).drawCount = s.drawCount := rfl
@[simp] theorem trace_modifyHost (s : State) (i : Nat) (f : HostCtx → HostCtx) : (s.modifyHost i f).trace = s.trace := rfl
@[simp] theorem hosts_modifyHost (s : State) (i : Nat) (f : HostCtx → HostCtx) :
    (s.modifyHost i f).hosts = s.hosts.modify i f := rfl

theorem host_modifyHost_same (s : State) (i : Nat) (f : HostCtx → HostCtx) :
    (s.modifyHost i f).hosts[i]? = (s.hosts[i]?).map f := by
  simp

theorem host_modifyHost_other (s : State) {i k : Nat} (f : HostCtx → HostCtx) (h : k ≠ i) :
    (s.modifyHost i f).hosts[k]? = s.hosts[k]? := by
  rw [hosts_modifyHost, List.getElem?_modify]
  simp [Ne.symm h]

@[simp] theorem chan_finish (s : State) (i : Nat) (r : OpResult) (c : Fin 8) :
    (s.finish i r).chan c = s.chan c := rfl
@[simp] theorem params_finish (s : State) (i : Nat) (r : OpResult) : (s.finish i r).params = s.params := rfl
@[simp] theorem chans_finish (s : State) (i : Nat) (r : OpResult) : (s.finish i r).chans = s.chans := rfl
@[simp] theorem mgrFault_finish (s : State) (i : Nat) (r : OpResult) : (s.finish i r).mgrFault = s.mgrFault := rfl
@[simp] theorem dbgBusy_finish (s : State) (i : Nat) (r : OpResult) : (s.finish i r).dbgBusy = s.dbgBusy := rfl
@[simp] theorem dbginst0_finish (s : State) (i : Nat) (r : OpResult) : (s.finish i r).dbginst0 = s.dbginst0 := rfl
@[simp] theorem dbginst1_finish (s : State) (i : Nat) (r : OpResult) : (s.finish i r).dbginst1 = s.dbginst1 := rfl
@[simp] theorem dbgcmd_finish (s : State) (i : Nat) (r : OpResult) : (s.finish i r).dbgcmd = s.dbgcmd := rfl
@[simp] theorem inten_finish (s : State) (i : Nat) (r : OpResult) : (s.finish i r).inten = s.inten := rfl
@[simp] theorem irq_finish (s : State) (i : Nat) (r : OpResult) : (s.finish i r).irq = s.irq := rfl
@[simp] theorem mem_finish (s : State) (i : Nat) (r : OpResult) : (s.finish i r).mem = s.mem := rfl
@[simp] theorem dirty_finish (s : State) (i : Nat) (r : OpResult) : (s.finish i r).dirty = s.dirty := rfl
@[simp] theorem stored_finish (s : State) (i : Nat) (r : OpResult) : (s.finish i r).stored = s.stored := rfl
@[simp] theorem flights_finish (s : State) (i : Nat) (r : OpResult) : (s.finish i r).flights = s.flights := rfl
@[simp] theorem cur_finish (s : State) (i : Nat) (r : OpResult) : (s.finish i r).cur = s.cur := rfl
@[simp] theorem sched_finish (s : State) (i : Nat) (r : OpResult) : (s.finish i r).sched = s.sched := rfl
@[simp] theorem draws_finish (s : State) (i : Nat) (r : OpResult) : (s.finish i r).draws = s.draws := rfl
@[simp] theorem drawCount_finish (s : State) (i : Nat) (r : OpResult) : (s.finish i r).drawCount = s.drawCount := rfl
@[simp] theorem trace_finish (s : State) (i : Nat) (r : OpResult) : (s.finish i r).trace = s.trace := rfl

/-! ## raiseFault: what taking a fault leaves alone -/

@[simp] theorem params_raiseFault (s : State) (a : Agent) (r : Fault) : (s.raiseFault a r).params = s.params := by
  cases a with
  | host i => rfl
  | thread t => cases t <;> rfl
@[simp] theorem dbgBusy_raiseFault (s : State) (a : Agent) (r : Fault) : (s.raiseFault a r).dbgBusy = s.dbgBusy := by
  cases a with
  | host i => rfl
  | thread t => cases t <;> rfl
@[simp] theorem dbginst0_raiseFault (s : State) (a : Agent) (r : Fault) : (s.raiseFault a r).dbginst0 = s.dbginst0 := by
  cases a with
  | host i => rfl
  | thread t => cases t <;> rfl
@[simp] theorem dbginst1_raiseFault (s : State) (a : Agent) (r : Fault) : (s.raiseFault a r).dbginst1 = s.dbginst1 := by
  cases a with
  | host i => rfl
  | thread t => cases t <;> rfl
@[simp] theorem dbgcmd_raiseFault (s : State) (a : Agent) (r : Fault) : (s.raiseFault a r).dbgcmd = s.dbgcmd := by
  cases a with
  | host i => rfl
  | thread t => cases t <;> rfl
@[simp] theorem inten_raiseFault (s : State) (a : Agent) (r : Fault) : (s.raiseFault a r).inten = s.inten := by
  cases a with
  | host i => rfl
  | thread t => cases t <;> rfl
@[simp] theorem irq_raiseFault (s : State) (a : Agent) (r : Fault) : (s.raiseFault a r).irq = s.irq := by
  cases a with
  | host i => rfl
  | thread t => cases t <;> rfl
@[simp] theorem mem_raiseFault (s : State) (a : Agent) (r : Fault) : (s.raiseFault a r).mem = s.mem := by
  cases a with
  | host i => rfl
  | thread t => cases t <;> rfl
@[simp] theorem dirty_raiseFault (s : State) (a : Agent) (r : Fault) : (s.raiseFault a r).dirty = s.dirty := by
  cases a with
  | host i => rfl
  | thread t => cases t <;> rfl
@[simp] theorem stored_raiseFault (s : State) (a : Agent) (r : Fault) : (s.raiseFault a r).stored = s.stored := by
  cases a with
  | host i => rfl
  | thread t => cases t <;> rfl
@[simp] theorem flights_raiseFault (s : State) (a : Agent) (r : Fault) : (s.raiseFault a r).flights = s.flights := by
  cases a with
  | host i => rfl
  | thread t => cases t <;> rfl
@[simp] theorem cur_raiseFault (s : State) (a : Agent) (r : Fault) : (s.raiseFault a r).cur = s.cur := by
  cases a with
  | host i => rfl
  | thread t => cases t <;> rfl
@[simp] theorem sched_raiseFault (s : State) (a : Agent) (r : Fault) : (s.raiseFault a r).sched = s.sched := by
  cases a with
  | host i => rfl
  | thread t => cases t <;> rfl
@[simp] theorem draws_raiseFault (s : State) (a : Agent) (r : Fault) : (s.raiseFault a r).draws = s.draws := by
  cases a with
  | host i => rfl
  | thread t => cases t <;> rfl
@[simp] theorem drawCount_raiseFault (s : State) (a : Agent) (r : Fault) : (s.raiseFault a r).drawCount = s.drawCount := by
  cases a with
  | host i => rfl
  | thread t => cases t <;> rfl
@[simp] theorem trace_raiseFault (s : State) (a : Agent) (r : Fault) : (s.raiseFault a r).trace = s.trace := by
  cases a with
  | host i => rfl
  | thread t => cases t <;> rfl

@[simp] theorem raiseFault_host (s : State) (i : Nat) (r : Fault) :
    s.raiseFault (.host i) r = s.modifyHost i fun h => { h with fault := some r } := rfl

@[simp] theorem raiseFault_manager (s : State) (r : Fault) :
    s.raiseFault (.thread .manager) r = { s with mgrFault := some r } := rfl

@[simp] theorem raiseFault_channel (s : State) (c : Fin 8) (r : Fault) :
    s.raiseFault (.thread (.channel c)) r = s.setChan c { s.chan c with status := .faulted r } := rfl

/-! ## setMov, setLc: a register is written, the others keep their values -/

@[simp] theorem mov_setMov_same (ch : Chan) (rd : MovReg) (v : Word) : (ch.setMov rd v).mov rd = some v := by
  cases rd <;> rfl

theorem mov_setMov_other (ch : Chan) {rd rx : MovReg} (v : Word) (h : rx ≠ rd) :
    (ch.setMov rd v).mov rx = ch.mov rx := by
  cases rd <;> cases rx <;> first | rfl | exact absurd rfl h

@[simp] theorem lc_setLc_same (ch : Chan) (lc : LoopReg) (v : Byte) : (ch.setLc lc v).lc lc = some v := by
  cases lc <;> rfl

theorem lc_setLc_other (ch : Chan) {lc lx : LoopReg} (v : Byte) (h : lx ≠ lc) :
    (ch.setLc lc v).lc lx = ch.lc lx := by
  cases lc <;> cases lx <;> first | rfl | exact absurd rfl h

@[simp] theorem pc_setMov (ch : Chan) (rd : MovReg) (v : Word) : (ch.setMov rd v).pc = ch.pc := by cases rd <;> rfl
@[simp] theorem lc0_setMov (ch : Chan) (rd : MovReg) (v : Word) : (ch.setMov rd v).lc0 = ch.lc0 := by cases rd <;> rfl
@[simp] theorem lc1_setMov (ch : Chan) (rd : MovReg) (v : Word) : (ch.setMov rd v).lc1 = ch.lc1 := by cases rd <;> rfl
@[simp] theorem fifo_setMov (ch : Chan) (rd : MovReg) (v : Word) : (ch.setMov rd v).fifo = ch.fifo := by cases rd <;> rfl
@[simp] theorem events_setMov (ch : Chan) (rd : MovReg) (v : Word) : (ch.setMov rd v).events = ch.events := by cases rd <;> rfl
@[simp] theorem status_setMov (ch : Chan) (rd : MovReg) (v : Word) : (ch.setMov rd v).status = ch.status := by cases rd <;> rfl
@[simp] theorem ended_setMov (ch : Chan) (rd : MovReg) (v : Word) : (ch.setMov rd v).ended = ch.ended := by cases rd <;> rfl
@[simp] theorem ns_setMov (ch : Chan) (rd : MovReg) (v : Word) : (ch.setMov rd v).ns = ch.ns := by cases rd <;> rfl
@[simp] theorem progBase_setMov (ch : Chan) (rd : MovReg) (v : Word) : (ch.setMov rd v).progBase = ch.progBase := by cases rd <;> rfl
@[simp] theorem progLen_setMov (ch : Chan) (rd : MovReg) (v : Word) : (ch.setMov rd v).progLen = ch.progLen := by cases rd <;> rfl
@[simp] theorem pc_setLc (ch : Chan) (lc : LoopReg) (v : Byte) : (ch.setLc lc v).pc = ch.pc := by cases lc <;> rfl
@[simp] theorem sar_setLc (ch : Chan) (lc : LoopReg) (v : Byte) : (ch.setLc lc v).sar = ch.sar := by cases lc <;> rfl
@[simp] theorem dar_setLc (ch : Chan) (lc : LoopReg) (v : Byte) : (ch.setLc lc v).dar = ch.dar := by cases lc <;> rfl
@[simp] theorem ccr_setLc (ch : Chan) (lc : LoopReg) (v : Byte) : (ch.setLc lc v).ccr = ch.ccr := by cases lc <;> rfl
@[simp] theorem fifo_setLc (ch : Chan) (lc : LoopReg) (v : Byte) : (ch.setLc lc v).fifo = ch.fifo := by cases lc <;> rfl
@[simp] theorem events_setLc (ch : Chan) (lc : LoopReg) (v : Byte) : (ch.setLc lc v).events = ch.events := by cases lc <;> rfl
@[simp] theorem status_setLc (ch : Chan) (lc : LoopReg) (v : Byte) : (ch.setLc lc v).status = ch.status := by cases lc <;> rfl
@[simp] theorem ended_setLc (ch : Chan) (lc : LoopReg) (v : Byte) : (ch.setLc lc v).ended = ch.ended := by cases lc <;> rfl
@[simp] theorem ns_setLc (ch : Chan) (lc : LoopReg) (v : Byte) : (ch.setLc lc v).ns = ch.ns := by cases lc <;> rfl
@[simp] theorem progBase_setLc (ch : Chan) (lc : LoopReg) (v : Byte) : (ch.setLc lc v).progBase = ch.progBase := by cases lc <;> rfl
@[simp] theorem progLen_setLc (ch : Chan) (lc : LoopReg) (v : Byte) : (ch.setLc lc v).progLen = ch.progLen := by cases lc <;> rfl

end Sys2Proof.Machine
end

