-- ==== Sys2Proof/Laws/Ops.lean ====
section
/-! SUPPORT. One lemma per shared operation that says what it can answer. -/
namespace Sys2Proof.Machine

/-! ## Channel instructions -/

/-- An instruction that completes through onChannel ran on a channel thread. -/
theorem onChannel_next {s t : State} {f : Fin 8 → Except Fault State} (h : s.onChannel f = .next t) :
    ∃ c, s.cur = .channel c ∧ f c = .ok t := by
  unfold State.onChannel at h
  split at h
  · exact absurd h (by simp)
  · next c hc =>
    split at h
    · next u hu => exact ⟨c, hc, by rw [hu]; simpa using h⟩
    · exact absurd h (by simp)

theorem onChannel_channel {s : State} {c : Fin 8} (f : Fin 8 → Except Fault State) (h : s.cur = .channel c) :
    s.onChannel f = match f c with
      | .ok t => .next t
      | .error r => .fault r := by
  cases hf : f c <;> simp [State.onChannel, h, hf]

theorem onChannel_ok {s t : State} {c : Fin 8} {f : Fin 8 → Except Fault State} (h : s.cur = .channel c)
    (hf : f c = .ok t) : s.onChannel f = .next t := by
  rw [onChannel_channel f h, hf]

theorem onChannel_error {s : State} {c : Fin 8} {f : Fin 8 → Except Fault State} {r : Fault}
    (h : s.cur = .channel c) (hf : f c = .error r) : s.onChannel f = .fault r := by
  rw [onChannel_channel f h, hf]

/-- The result of a two-part computation that succeeds. -/
theorem except_bind_ok {ε α β : Type} {x : Except ε α} {f : α → Except ε β} {b : β} (h : (x >>= f) = .ok b) :
    ∃ a, x = .ok a ∧ f a = .ok b := by
  cases x with
  | error e => exact absurd h (by simp [bind, Except.bind])
  | ok a => exact ⟨a, rfl, h⟩

@[simp] theorem except_ok_bind {ε α β : Type} (a : α) (f : α → Except ε β) :
    ((Except.ok a : Except ε α) >>= f) = f a := rfl

@[simp] theorem except_error_bind {ε α β : Type} (e : ε) (f : α → Except ε β) :
    ((Except.error e : Except ε α) >>= f) = .error e := rfl

@[simp] theorem written_some {α : Type} (v : α) : written (some v) = .ok v := rfl

@[simp] theorem written_none {α : Type} : written (none : Option α) = .error .unwrittenRegister := rfl

theorem written_eq_ok {α : Type} {r : Option α} {v : α} : written r = .ok v ↔ r = some v := by
  cases r <;> simp [written]

theorem advancePc_eq_ok {pc pc' : Word} {n : Nat} :
    advancePc pc n = .ok pc' ↔ pc.toNat + n < addrSpace ∧ pc' = BitVec.ofNat 32 (pc.toNat + n) := by
  unfold advancePc
  split <;> simp_all [eq_comm]

theorem advancePc_ok {pc : Word} {n : Nat} (h : pc.toNat + n < addrSpace) :
    advancePc pc n = .ok (BitVec.ofNat 32 (pc.toNat + n)) := by
  simp [advancePc, h]

theorem jumpBack_ok {o : BjumpOrigin} {pc : Word} {b : Nat} (h : b ≤ jumpOrigin o pc)
    (h' : jumpOrigin o pc - b < addrSpace) :
    jumpBack o pc b = .ok (BitVec.ofNat 32 (jumpOrigin o pc - b)) := by
  simp [jumpBack, h, h']

theorem jumpBack_error {o : BjumpOrigin} {pc : Word} {b : Nat} (h : jumpOrigin o pc < b) :
    jumpBack o pc b = .error .pcRange := by
  simp [jumpBack, Nat.not_le.mpr h]

/-- A fixed address register stays, and draws no free value. -/
theorem bump_fixed (s : State) {b : Burst} (a : Word) (h : b.inc = false) :
    s.bumpAddr b a = a ∧ s.bumpCount b a = s.drawCount := by
  simp [State.bumpAddr, State.bumpCount, Burst.endsAtTop, h]

/-- A moving one is moved on by the burst while that fits in 32 bits. -/
theorem bump_inc (s : State) {b : Burst} {a : Word} (h : b.inc = true) (hlt : a.toNat + b.bytes < addrSpace) :
    s.bumpAddr b a = BitVec.ofNat 32 (a.toNat + b.bytes) ∧ s.bumpCount b a = s.drawCount := by
  simp [State.bumpAddr, State.bumpCount, Burst.endsAtTop, h, hlt]

/-! ## Accesses -/

theorem access_eq_ok {p : Params} {u : Purpose} {a n : Nat} (h : p.access u a n = .ok ()) :
    a + n ≤ addrSpace ∧ p.addrOk u a = true ∧ p.busErrors.any (fun r => r.meets a n) = false := by
  unfold Params.access at h
  split at h
  · simp at h
  · next h1 =>
    split at h
    · simp at h
    · next h2 =>
      refine ⟨by omega, ?_, by simpa using h2⟩
      cases hk : p.addrOk u a with
      | true => rfl
      | false => exact absurd (.inr hk) h1

theorem memRead_eq_ok {s : State} {u : Purpose} {a n : Nat} {bs : List Byte} (h : s.memRead u a n = .ok bs) :
    s.params.access u a n = .ok () ∧ bs = Memory.readBytes s.mem a n := by
  obtain ⟨x, hx, h⟩ := except_bind_ok h
  exact ⟨hx, by simpa using h.symm⟩

theorem memRead_ok {s : State} {u : Purpose} {a n : Nat} (h : s.params.access u a n = .ok ()) :
    s.memRead u a n = .ok (Memory.readBytes s.mem a n) := by
  simp [State.memRead, h]

/-- A load that completes brings its beats' bytes, and the fifo stays within MFIFO_BYTES. -/
theorem loadBeats_eq_ok {s : State} {b : Burst} {k a held : Nat} {bs : List Byte}
    (h : s.loadBeats b k a held = .ok bs) (hfit : held ≤ s.params.mfifoBytes) :
    bs.length = k * b.width ∧ held + bs.length ≤ s.params.mfifoBytes := by
  induction k generalizing a held bs with
  | zero => simp [State.loadBeats] at h; subst h; simpa using hfit
  | succ k ih =>
    simp only [State.loadBeats] at h
    obtain ⟨x, hx, h⟩ := except_bind_ok h
    obtain ⟨-, rfl⟩ := memRead_eq_ok hx
    split at h
    · simp at h
    · next hroom =>
      obtain ⟨rest, hr, h⟩ := except_bind_ok h
      obtain ⟨h1, h2⟩ := ih hr (by omega)
      obtain rfl : _ = bs := by simpa using h
      constructor
      · simp [h1, Nat.succ_mul]; omega
      · simp; omega

/-- A store that completes keeps the canonical form, stays inside the address space, and leaves the program's own
range as it was. -/
theorem storeBeats_eq_ok {p : Params} {own : AddrRange} {b : Burst} {k a : Nat} {bytes : List Byte} {m m' : Memory}
    (h : p.storeBeats own b k a bytes m = .ok m') (hm : Memory.wf m = true) :
    Memory.wf m' = true ∧ (∀ q ∈ m', q ∈ m ∨ q.1 < addrSpace) ∧
      ∀ x, own.has x = true → Memory.read m' x = Memory.read m x := by
  induction k generalizing a bytes m with
  | zero =>
    obtain rfl : m = m' := by simpa [Params.storeBeats] using h
    exact ⟨hm, fun q hq => .inl hq, fun _ _ => rfl⟩
  | succ k ih =>
    simp only [Params.storeBeats] at h
    obtain ⟨u, hacc, h⟩ := except_bind_ok h
    split at h
    · simp at h
    · next hown =>
      obtain ⟨hle, -, -⟩ := access_eq_ok (by simpa using hacc)
      have hlen : (bytes.take b.width).length ≤ b.width := by simp
      obtain ⟨h1, h2, h3⟩ := ih h (Memory.wf_writeBytes hm _ _)
      refine ⟨h1, ?_, ?_⟩
      · intro q hq
        rcases h2 q hq with hq | hq
        · rcases Memory.mem_writeBytes hq with hq | hq
          · exact .inl hq
          · exact .inr (by omega)
        · exact .inr hq
      · intro x hx
        rw [h3 x hx, Memory.read_writeBytes_outside hm]
        simp only [AddrRange.meets, decide_eq_true_eq, not_and_or, Nat.not_lt] at hown
        simp only [AddrRange.has, decide_eq_true_eq] at hx
        omega

/-! ## Sets of naturals -/

theorem mem_setInsert {n k : Nat} {l : List Nat} : k ∈ setInsert n l ↔ k = n ∨ k ∈ l := by
  induction l with
  | nil => simp [setInsert]
  | cons m ms ih =>
    simp only [setInsert]
    split
    · simp
    · split
      · next h => subst h; simp
      · simp [ih, or_left_comm]

theorem setInsert_rising {n : Nat} {l : List Nat} (h : l.Pairwise (· < ·)) : (setInsert n l).Pairwise (· < ·) := by
  induction l with
  | nil => simp [setInsert]
  | cons m ms ih =>
    obtain ⟨h1, h2⟩ := List.pairwise_cons.mp h
    simp only [setInsert]
    split
    · next hnm =>
      refine List.pairwise_cons.mpr ⟨?_, h⟩
      intro k hk
      rcases List.mem_cons.mp hk with rfl | hk
      · exact hnm
      · exact Nat.lt_trans hnm (h1 k hk)
    · split
      · exact h
      · refine List.pairwise_cons.mpr ⟨?_, ih h2⟩
        intro k hk
        rcases mem_setInsert.mp hk with rfl | hk
        · omega
        · exact h1 k hk

theorem mem_setInsertRange {a n k : Nat} {l : List Nat} :
    k ∈ setInsertRange a n l ↔ (a ≤ k ∧ k < a + n) ∨ k ∈ l := by
  induction n generalizing a l with
  | zero => simp [setInsertRange]
  | succ n ih => rw [setInsertRange, ih, mem_setInsert, ← or_assoc]; exact or_congr_left (by omega)

theorem setInsertRange_rising {a n : Nat} {l : List Nat} (h : l.Pairwise (· < ·)) :
    (setInsertRange a n l).Pairwise (· < ·) := by
  induction n generalizing a l with
  | zero => exact h
  | succ n ih => exact ih (setInsert_rising h)

/-! ## Host writes -/

/-- Memory is canonical and inside the address space, the sets of addresses about it are held rising. -/
structure State.MemOk (s : State) : Prop where
  wf : Memory.wf s.mem = true
  in_space : ∀ p ∈ s.mem, p.1 < addrSpace
  dirty_rising : s.dirty.Pairwise (· < ·)
  stored_rising : s.stored.Pairwise (· < ·)

theorem hostStore_eq_ok {s t : State} {a : Nat} {v : Byte} (h : s.hostStore a v = .ok t) :
    s.hostWriteBarred a = false ∧
      t = { s with
        mem := Memory.write s.mem a v
        dirty := setInsert a s.dirty
        stored := setInsert a s.stored } := by
  unfold State.hostStore at h
  split at h
  · simp at h
  · next h2 => exact ⟨by simpa using h2, by simpa using h.symm⟩

theorem hostStore_memOk {s t : State} {a : Nat} {v : Byte} (h : s.hostStore a v = .ok t) (ha : a < addrSpace)
    (hs : s.MemOk) : t.MemOk := by
  obtain ⟨-, rfl⟩ := hostStore_eq_ok h
  refine ⟨Memory.wf_write hs.wf _ _, fun p hp => ?_, setInsert_rising hs.dirty_rising, setInsert_rising hs.stored_rising⟩
  rcases Memory.mem_write hp with hp | hp
  · exact hs.in_space p hp
  · omega

/-- What a buffer write changes: memory, the not-yet-visible and the written addresses, nothing else. -/
theorem bufWrite_frame {s : State} {buf : Buffer} {o : Nat} {bs : List Byte} :
    (s.bufWrite buf o bs).1 =
      { s with
        mem := (s.bufWrite buf o bs).1.mem
        dirty := (s.bufWrite buf o bs).1.dirty
        stored := (s.bufWrite buf o bs).1.stored } := by
  induction bs generalizing s o with
  | nil => rfl
  | cons b bs ih =>
    simp only [State.bufWrite]
    split
    · rfl
    · split
      · rfl
      · next t ht =>
        obtain ⟨-, rfl⟩ := hostStore_eq_ok ht
        rw [ih]

/-- A buffer write keeps memory and the sets about it well formed: a buffer lies in the address space. -/
theorem bufWrite_memOk {s : State} {buf : Buffer} {o : Nat} {bs : List Byte} (hs : s.MemOk) :
    (s.bufWrite buf o bs).1.MemOk := by
  induction bs generalizing s o with
  | nil => exact hs
  | cons b bs ih =>
    simp only [State.bufWrite]
    split
    · exact hs
    · next ho =>
      split
      · exact hs
      · next t ht =>
        have hfit := buf.fits
        exact ih (hostStore_memOk ht (by omega) hs)

/-! ## The register window -/

/-- A field holds what was put into it. -/
theorem BitField.get_put {f : BitField} {n : Nat} (hf : f.lo + f.len ≤ 32) (hn : n < 2 ^ f.len) :
    f.get (f.put n) = n := by
  have hle : 2 ^ f.len * 2 ^ f.lo ≤ 2 ^ 32 := by
    rw [← Nat.pow_add]; exact Nat.pow_le_pow_right (by decide) (by omega)
  have hlt : n * 2 ^ f.lo < 2 ^ 32 :=
    Nat.lt_of_lt_of_le (Nat.mul_lt_mul_of_pos_right hn (Nat.two_pow_pos _)) hle
  have hn' : n < 2 ^ 32 :=
    Nat.lt_of_le_of_lt (Nat.le_mul_of_pos_right _ (Nat.two_pow_pos _)) hlt
  simp only [BitField.get, BitField.put, BitVec.extractLsb'_toNat, BitVec.toNat_shiftLeft, BitVec.toNat_ofNat,
    Nat.mod_eq_of_lt hn', Nat.shiftLeft_eq, Nat.mod_eq_of_lt hlt, Nat.shiftRight_eq_div_pow,
    Nat.mul_div_cancel _ (Nat.two_pow_pos _), Nat.mod_eq_of_lt hn]

theorem RegMap.spec_legal : RegMap.spec.legal := by decide

theorem regRead_dbgstatus (s : State) : s.regRead s.params.regs.dbgstatus =
    .ok (dbgStatusValue s.params.regs s.dbgBusy s.draw.1,
      { s.draw.2 with trace := s.trace ++ [.read s.params.regs.dbgstatus
        (dbgStatusValue s.params.regs s.dbgBusy s.draw.1)] }) := by
  simp [State.regRead]

theorem regRead_inten (s : State) (h : s.params.regs.legal) : s.regRead s.params.regs.inten =
    .ok (s.inten, { s with trace := s.trace ++ [.read s.params.regs.inten s.inten] }) := by
  have hn := h.1
  simp only [List.nodup_cons, List.mem_cons, List.not_mem_nil, or_false, not_or] at hn
  simp [State.regRead, Ne.symm hn.1.2.2.2]

theorem regWrite_dbginst0 (s : State) (v : Word) : s.regWrite s.params.regs.dbginst0 v =
    .ok { s with dbginst0 := v, trace := s.trace ++ [.write s.params.regs.dbginst0 v] } := by
  simp [State.regWrite, State.regStore]

theorem regWrite_dbginst1 (s : State) (v : Word) (h : s.params.regs.legal) : s.regWrite s.params.regs.dbginst1 v =
    .ok { s with dbginst1 := v, trace := s.trace ++ [.write s.params.regs.dbginst1 v] } := by
  have hn := h.1
  simp only [List.nodup_cons, List.mem_cons, List.not_mem_nil, or_false, not_or] at hn
  simp [State.regWrite, State.regStore, Ne.symm hn.2.2.1.1]

theorem regWrite_trigger (s : State) (h : s.params.regs.legal) :
    s.regWrite s.params.regs.dbgcmd s.params.regs.trigger =
      .ok { s with
        dbgcmd := s.params.regs.trigger
        dbgBusy := true
        trace := s.trace ++ [.write s.params.regs.dbgcmd s.params.regs.trigger] } := by
  obtain ⟨hn, -, -, hc, he, -⟩ := h
  simp only [List.nodup_cons, List.mem_cons, List.not_mem_nil, or_false, not_or] at hn
  simp [State.regWrite, State.regStore, hn.2.1.1, hn.2.1.2.1, RegMap.trigger, BitField.get_put hc he]

theorem regWrite_inten (s : State) (v : Word) (h : s.params.regs.legal) : s.regWrite s.params.regs.inten v =
    .ok { s with inten := v, trace := s.trace ++ [.write s.params.regs.inten v] } := by
  have hn := h.1
  simp only [List.nodup_cons, List.mem_cons, List.not_mem_nil, or_false, not_or] at hn
  simp [State.regWrite, State.regStore, Ne.symm hn.2.1.2.2, Ne.symm hn.2.2.1.2, Ne.symm hn.2.2.2.1]

/-- A draw changes the answers left and the counter, nothing else. -/
theorem draw_frame (s : State) : s.draw.2 = { s with draws := s.draw.2.draws, drawCount := s.drawCount + 1 } := by
  unfold State.draw
  split <;> rfl

/-! ## The step around exec -/

/-- What a step of a fetched instruction can be: exec's answer, or the thread's fault. -/
theorem settle_next {s t : State} {th : Thread} {o : Out} (h : s.settle th o = .next t) :
    o = .next t ∨ ∃ r, o = .fault r ∧ t = s.raiseFault (.thread th) r := by
  cases o with
  | next u => exact .inl h
  | fault r => exact .inr ⟨r, rfl, by simpa [State.settle] using h.symm⟩
  | refused r => exact absurd h (by simp [State.settle])

theorem runFetched_next {s t : State} {f : Except Fault Instr} (h : s.runFetched f = .next t) :
    (∃ i, f = .ok i ∧ exec i s = .next t) ∨ ∃ r, t = s.raiseFault (.thread s.cur) r := by
  cases f with
  | error r => exact .inr ⟨r, by simpa [State.runFetched] using h.symm⟩
  | ok i =>
    rcases settle_next h with h | ⟨r, -, h⟩
    · exact .inl ⟨i, rfl, h⟩
    · exact .inr ⟨r, h⟩

@[simp] theorem injected_withCur (s : State) (t : Thread) : ({ s with cur := t } : State).injected = s.injected := rfl

/-- What a step of an injected instruction can be: exec's answer with the busy bit cleared, or the thread's fault. -/
theorem runInjected_next {s t : State} {th : Thread} (h : s.runInjected th = .next t) :
    (∃ i u, s.injected = .ok i ∧ exec i { s with cur := th } = .next u ∧ t = { u with dbgBusy := false }) ∨
      ∃ r, t = ({ s with cur := th } : State).raiseFault (.thread th) r := by
  unfold State.runInjected at h
  simp only [injected_withCur] at h
  split at h
  · next r _ => exact .inr ⟨r, by simpa using h.symm⟩
  · next i hi =>
    split at h
    · next u hu => exact .inl ⟨i, u, hi, hu, by simpa using h.symm⟩
    · next r _ => exact .inr ⟨r, by simpa using h.symm⟩
    · simp at h

end Sys2Proof.Machine
end

