-- ==== Sys2Proof/Laws/Host.lean ====
section
/-! SUPPORT. What a step of a host context can change, said once. -/
namespace Sys2Proof.Machine

/-- From `s` to `t`, context `i` and memory aside, the controller's threads and the parameters are as before. -/
structure HostFrame (i : Nat) (s t : State) : Prop where
  params : t.params = s.params
  chans : t.chans = s.chans
  mgrFault : t.mgrFault = s.mgrFault
  hosts : ∃ f, t.hosts = s.hosts.modify i f

/-- Memory and the sets of addresses about it stay well formed from `s` to `t`. -/
def MemKept (s t : State) : Prop := s.MemOk → t.MemOk

theorem HostFrame.refl (i : Nat) (s : State) : HostFrame i s s :=
  ⟨rfl, rfl, rfl, id, by simp⟩

theorem HostFrame.trans {i : Nat} {s t u : State} (h : HostFrame i s t) (h' : HostFrame i t u) : HostFrame i s u := by
  obtain ⟨f, hf⟩ := h.hosts
  obtain ⟨g, hg⟩ := h'.hosts
  exact ⟨h'.params.trans h.params, h'.chans.trans h.chans, h'.mgrFault.trans h.mgrFault, g ∘ f,
    by rw [hg, hf, List.modify_modify_eq]⟩

theorem HostFrame.modifyHost (i : Nat) (s : State) (f : HostCtx → HostCtx) : HostFrame i s (s.modifyHost i f) :=
  ⟨rfl, rfl, rfl, f, rfl⟩

theorem HostFrame.finish (i : Nat) (s : State) (r : OpResult) : HostFrame i s (s.finish i r) :=
  HostFrame.modifyHost i s _

theorem HostFrame.raiseFault (i : Nat) (s : State) (r : Fault) : HostFrame i s (s.raiseFault (.host i) r) :=
  HostFrame.modifyHost i s _

/-- What agrees in the four fields the frame speaks of. -/
theorem HostFrame.of_eq {i : Nat} {s t : State} (hp : t.params = s.params) (hc : t.chans = s.chans)
    (hm : t.mgrFault = s.mgrFault) (hh : t.hosts = s.hosts) : HostFrame i s t :=
  ⟨hp, hc, hm, id, by simp [hh]⟩

theorem MemKept.of_eq {s t : State} (hm : t.mem = s.mem) (hd : t.dirty = s.dirty) (hs : t.stored = s.stored) :
    MemKept s t :=
  fun h => ⟨hm ▸ h.wf, hm ▸ h.in_space, hd ▸ h.dirty_rising, hs ▸ h.stored_rising⟩

theorem hostFrame_bufWrite (i : Nat) (s : State) (buf : Buffer) (o : Nat) (bs : List Byte) :
    HostFrame i s (s.bufWrite buf o bs).1 := by
  rw [bufWrite_frame]
  exact HostFrame.of_eq rfl rfl rfl rfl

theorem memKept_bufWrite (s : State) (buf : Buffer) (o : Nat) (bs : List Byte) :
    MemKept s (s.bufWrite buf o bs).1 :=
  fun h => bufWrite_memOk h

/-- The beginning of an emission changes context `i` only. -/
theorem beginEmission_frame (s : State) (i : Nat) (buf : Buffer) (o n : Nat) (items : List Emit) (compiling : Bool) :
    HostFrame i s (s.beginEmission i buf o n items compiling) ∧ MemKept s (s.beginEmission i buf o n items compiling) ∧
      (s.beginEmission i buf o n items compiling).mem = s.mem :=
  ⟨.modifyHost _ _ _, .of_eq rfl rfl rfl, rfl⟩

/-- Overwriting takes addresses out of the written ones and does nothing else. -/
theorem overwrite_eq (s : State) (j : EmitJob) :
    s.overwrite j = s ∨ s.overwrite j = { s with stored := s.stored.filter fun a => !j.part.has a } := by
  unfold State.overwrite
  split
  · exact .inr rfl
  · exact .inl rfl

theorem overwrite_frame (i : Nat) (s : State) (j : EmitJob) :
    HostFrame i s (s.overwrite j) ∧ MemKept s (s.overwrite j) ∧ (s.overwrite j).mem = s.mem := by
  rcases overwrite_eq s j with h | h <;> rw [h]
  · exact ⟨.refl _ _, .of_eq rfl rfl rfl, rfl⟩
  · exact ⟨.of_eq rfl rfl rfl rfl, fun h => ⟨h.wf, h.in_space, h.dirty_rising, h.stored_rising.filter _⟩, rfl⟩

theorem emitStep_frame (s : State) (i : Nat) (j : EmitJob) :
    HostFrame i s (s.emitStep i j) ∧ MemKept s (s.emitStep i j) := by
  unfold State.emitStep
  split
  · exact ⟨.finish _ _ _, .of_eq rfl rfl rfl⟩
  · split
    · exact ⟨.raiseFault _ _ _, .of_eq rfl rfl rfl⟩
    · split
      · exact ⟨.refl _ _, .of_eq rfl rfl rfl⟩
      · split
        · exact ⟨.finish _ _ _, .of_eq rfl rfl rfl⟩
        · next bytes _ =>
          obtain ⟨ho, hm, -⟩ := overwrite_frame i s j
          have hf := ho.trans (hostFrame_bufWrite i (s.overwrite j) j.buf j.off bytes)
          have hk : MemKept s _ := fun h => memKept_bufWrite (s.overwrite j) j.buf j.off bytes (hm h)
          split
          · next t r he =>
            rw [he] at hf hk
            exact ⟨hf.trans (.raiseFault _ _ _), fun h => ⟨(hk h).1, (hk h).2, (hk h).3, (hk h).4⟩⟩
          · next t he =>
            rw [he] at hf hk
            exact ⟨hf.trans (.modifyHost _ _ _), fun h => ⟨(hk h).1, (hk h).2, (hk h).3, (hk h).4⟩⟩

theorem regWrite_frame {i : Nat} {s t : State} {off : Nat} {v : Word} (h : s.regWrite off v = .ok t) :
    HostFrame i s t ∧ t.mem = s.mem ∧ t.dirty = s.dirty ∧ t.stored = s.stored ∧ t.hosts = s.hosts := by
  obtain ⟨u, hu, h⟩ := except_bind_ok h
  obtain rfl : _ = t := by simpa using h
  have : u.params = s.params ∧ u.chans = s.chans ∧ u.mgrFault = s.mgrFault ∧ u.hosts = s.hosts ∧ u.mem = s.mem ∧
      u.dirty = s.dirty ∧ u.stored = s.stored := by
    unfold State.regStore at hu
    repeat' split at hu
    all_goals first
      | simp at hu; done
      | (obtain rfl : _ = u := by simpa using hu
         exact ⟨rfl, rfl, rfl, rfl, rfl, rfl, rfl⟩)
  obtain ⟨h1, h2, h3, h4, h5, h6, h7⟩ := this
  exact ⟨.of_eq h1 h2 h3 h4, h5, h6, h7, h4⟩

theorem regRead_frame {i : Nat} {s t : State} {off : Nat} {v : Word} (h : s.regRead off = .ok (v, t)) :
    HostFrame i s t ∧ t.mem = s.mem ∧ t.dirty = s.dirty ∧ t.stored = s.stored := by
  unfold State.regRead at h
  split at h
  · simp only [Except.ok.injEq, Prod.mk.injEq] at h
    obtain ⟨-, rfl⟩ := h
    rw [draw_frame]
    exact ⟨.of_eq rfl rfl rfl rfl, rfl, rfl, rfl⟩
  · split at h
    · simp only [Except.ok.injEq, Prod.mk.injEq] at h
      obtain ⟨-, rfl⟩ := h
      exact ⟨.of_eq rfl rfl rfl rfl, rfl, rfl, rfl⟩
    · simp at h

theorem submitStep_frame (s : State) (i : Nat) (j : SubmitJob) :
    HostFrame i s (s.submitStep i j) ∧ (s.submitStep i j).mem = s.mem ∧ (s.submitStep i j).dirty = s.dirty ∧
      (s.submitStep i j).stored = s.stored := by
  unfold State.submitStep
  split
  · exact ⟨.raiseFault _ _ _, rfl, rfl, rfl⟩
  · split
    · next t ht =>
      unfold State.submitWrite at ht
      split at ht
      · split at ht
        · obtain rfl : _ = t := by simpa using ht
          exact ⟨.finish _ _ _, rfl, rfl, rfl⟩
        · obtain ⟨u, hu, ht⟩ := except_bind_ok ht
          obtain rfl : _ = t := by simpa using ht
          obtain ⟨h1, h2, h3, h4, -⟩ := regWrite_frame hu
          exact ⟨h1.trans (.modifyHost _ _ _), h2, h3, h4⟩
      · obtain ⟨u, hu, ht⟩ := except_bind_ok ht
        obtain rfl : _ = t := by simpa using ht
        obtain ⟨h1, h2, h3, h4, -⟩ := regWrite_frame hu
        exact ⟨h1.trans (.modifyHost _ _ _), h2, h3, h4⟩
      · split at ht
        · obtain ⟨u, hu, ht⟩ := except_bind_ok ht
          obtain rfl : _ = t := by simpa using ht
          obtain ⟨h1, h2, h3, h4, -⟩ := regWrite_frame (i := i) hu
          exact ⟨h1.trans (HostFrame.trans (t := { u with
            flights := u.flights ++ [Flight.mk j.chan (s.programAt j.addr.toNat) false] })
            (.of_eq rfl rfl rfl rfl) (.finish _ _ _)), h2, h3, h4⟩
        · simp at ht
    · exact ⟨.raiseFault _ _ _, rfl, rfl, rfl⟩

/-- Starting an operation, an external reset apart, leaves the controller's threads alone; memory changes by a host
write only. -/
theorem startOp_frame (s : State) (i : Nat) (op : HostOp) (hop : op ≠ .resetController) :
    HostFrame i s (s.startOp i op) ∧ MemKept s (s.startOp i op) ∧
      ((∀ a v, op ≠ .hostWrite a v) → (s.startOp i op).mem = s.mem) := by
  cases op with
  | encode buf o c =>
    simp only [State.startOp, State.startEncode]
    split
    · exact ⟨.finish _ _ _, .of_eq rfl rfl rfl, fun _ => rfl⟩
    · exact ⟨(beginEmission_frame ..).1, (beginEmission_frame ..).2.1, fun _ => rfl⟩
  | buildCcr cfg =>
    simp only [State.startOp]
    split <;> exact ⟨.finish _ _ _, .of_eq rfl rfl rfl, fun _ => rfl⟩
  | decompose buf o cfg =>
    simp only [State.startOp, State.startDecompose]
    split
    · exact ⟨.finish _ _ _, .of_eq rfl rfl rfl, fun _ => rfl⟩
    · exact ⟨(beginEmission_frame ..).1, (beginEmission_frame ..).2.1, fun _ => rfl⟩
  | compile buf cfg =>
    simp only [State.startOp, State.startCompile]
    split
    · exact ⟨.raiseFault _ _ _, .of_eq rfl rfl rfl, fun _ => rfl⟩
    · split
      · exact ⟨.finish _ _ _, .of_eq rfl rfl rfl, fun _ => rfl⟩
      · exact ⟨(beginEmission_frame ..).1, (beginEmission_frame ..).2.1, fun _ => rfl⟩
  | submit chan addr ns =>
    simp only [State.startOp, State.startSubmit]
    split
    · exact ⟨.finish _ _ _, .of_eq rfl rfl rfl, fun _ => rfl⟩
    · split
      · exact ⟨.raiseFault _ _ _, .of_eq rfl rfl rfl, fun _ => rfl⟩
      · rw [regRead_dbgstatus, draw_frame]
        simp only
        split
        · exact ⟨⟨rfl, rfl, rfl, _, rfl⟩, .of_eq rfl rfl rfl, fun _ => rfl⟩
        · exact ⟨⟨rfl, rfl, rfl, _, rfl⟩, .of_eq rfl rfl rfl, fun _ => rfl⟩
  | makeVisible range =>
    refine ⟨⟨rfl, rfl, rfl, _, rfl⟩, fun h => ⟨h.wf, h.in_space, h.dirty_rising.filter _, h.stored_rising⟩, fun _ => rfl⟩
  | hostWrite a v =>
    simp only [State.startOp, State.writeByte]
    split
    · next t ht =>
      have hk : MemKept s (t.finish i (.ok 0)) := fun h =>
        let h := hostStore_memOk ht a.isLt h
        ⟨h.wf, h.in_space, h.dirty_rising, h.stored_rising⟩
      obtain ⟨-, rfl⟩ := hostStore_eq_ok ht
      exact ⟨⟨rfl, rfl, rfl, _, rfl⟩, hk, fun h => absurd rfl (h a v)⟩
    · exact ⟨.raiseFault _ _ _, .of_eq rfl rfl rfl, fun _ => rfl⟩
  | hostRead a =>
    simp only [State.startOp, State.readByte]
    split
    · exact ⟨.raiseFault _ _ _, .of_eq rfl rfl rfl, fun _ => rfl⟩
    · exact ⟨.finish _ _ _, .of_eq rfl rfl rfl, fun _ => rfl⟩
  | observe chan =>
    simp only [State.startOp, State.observe]
    split
    · exact ⟨⟨rfl, rfl, rfl, _, rfl⟩, .of_eq rfl rfl rfl, fun _ => rfl⟩
    · exact ⟨.finish _ _ _, .of_eq rfl rfl rfl, fun _ => rfl⟩
  | allocate answer => exact ⟨.finish _ _ _, .of_eq rfl rfl rfl, fun _ => rfl⟩
  | writeInten v =>
    simp only [State.startOp, State.intenWrite]
    split
    · next t ht =>
      obtain ⟨h1, h2, h3, h4, -⟩ := regWrite_frame (i := i) ht
      exact ⟨h1.trans (.finish _ _ _), .of_eq h2 h3 h4, fun _ => h2⟩
    · exact ⟨.raiseFault _ _ _, .of_eq rfl rfl rfl, fun _ => rfl⟩
  | readInten =>
    simp only [State.startOp, State.intenRead]
    split
    · next v t ht =>
      obtain ⟨h1, h2, h3, h4⟩ := regRead_frame (i := i) ht
      exact ⟨h1.trans (.finish _ _ _), .of_eq h2 h3 h4, fun _ => h2⟩
    · exact ⟨.raiseFault _ _ _, .of_eq rfl rfl rfl, fun _ => rfl⟩
  | clearIrq n =>
    exact ⟨⟨rfl, rfl, rfl, _, rfl⟩,
      .of_eq rfl rfl rfl, fun _ => rfl⟩
  | resetController => exact absurd rfl hop
  | quiesced =>
    exact ⟨⟨rfl, rfl, rfl, _, rfl⟩, .of_eq rfl rfl rfl, fun _ => rfl⟩

/-- A host context's step: it waits, it goes on with an emission or a submission, or it starts its next operation. -/
theorem hostStep_cases (s : State) (i : Nat) :
    s.hostStep i = s ∨ ∃ h, s.hosts[i]? = some h ∧ h.fault = none ∧
      ((∃ j, h.job = .emit j ∧ s.hostStep i = s.emitStep i j) ∨
       (∃ j, h.job = .submit j ∧ s.hostStep i = s.submitStep i j) ∨
       ∃ op ops, h.job = .idle ∧ h.ops = op :: ops ∧
         s.hostStep i = (s.modifyHost i fun h => { h with ops := ops, result := none }).startOp i op) := by
  cases hh : s.hosts[i]? with
  | none => exact .inl (by simp [State.hostStep, hh])
  | some h =>
    cases hf : h.fault with
    | some r => exact .inl (by simp [State.hostStep, hh, hf])
    | none =>
      cases hj : h.job with
      | emit j => exact .inr ⟨h, rfl, hf, .inl ⟨j, hj, by simp [State.hostStep, hh, hf, hj]⟩⟩
      | submit j => exact .inr ⟨h, rfl, hf, .inr (.inl ⟨j, hj, by simp [State.hostStep, hh, hf, hj]⟩)⟩
      | idle =>
        cases ho : h.ops with
        | nil => exact .inl (by simp [State.hostStep, hh, hf, hj, ho])
        | cons op ops => exact .inr ⟨h, rfl, hf, .inr (.inr ⟨op, ops, hj, ho, by simp [State.hostStep, hh, hf, hj, ho]⟩)⟩

end Sys2Proof.Machine
end

