-- ==== Sys2Proof/Laws/PerInstr.lean ====
section
/-! SUPPORT. Statements made once per instruction, about it as syntax. Family `EncodeLen`: byte 0 of a well-formed
instruction's encoding tells the encoding's length (spec 30 R76). -/
namespace Sys2Proof.Laws.EncodeLen

def Statement (i : Instr) : Prop :=
  ∀ o : Opc, o.legal → i.wf = true → ((encode o i).head?).bind (instrLen o) = some (encode o i).length

theorem dmaend : Statement .dmaend := fun _ h _ => instrLen_encode h _
theorem dmald : Statement .dmald := fun _ h _ => instrLen_encode h _
theorem dmast : Statement .dmast := fun _ h _ => instrLen_encode h _
theorem dmarmb : Statement .dmarmb := fun _ h _ => instrLen_encode h _
theorem dmawmb : Statement .dmawmb := fun _ h _ => instrLen_encode h _
theorem dmalp (lc : LoopReg) (count : Nat) : Statement (.dmalp lc count) := fun _ h _ => instrLen_encode h _
theorem dmasev (event : Nat) : Statement (.dmasev event) := fun _ h _ => instrLen_encode h _
theorem dmalpend (lc : LoopReg) (bjump : Nat) : Statement (.dmalpend lc bjump) := fun _ h _ => instrLen_encode h _
theorem dmalpends (lc : LoopReg) (bjump : Nat) : Statement (.dmalpends lc bjump) := fun _ h _ => instrLen_encode h _
theorem dmalpendb (lc : LoopReg) (bjump : Nat) : Statement (.dmalpendb lc bjump) := fun _ h _ => instrLen_encode h _
theorem dmago (ns : Bool) (chan : Nat) (addr : Word) : Statement (.dmago ns chan addr) := fun _ h _ => instrLen_encode h _
theorem dmamov (rd : MovReg) (imm : Word) : Statement (.dmamov rd imm) := fun _ h _ => instrLen_encode h _

end Sys2Proof.Laws.EncodeLen
end

