-- ==== Sys2Proof/Laws/Programs.lean ====
section
/-! SUPPORT. Emitting a list of items piece by piece, and reading a program off memory instruction by instruction. -/
namespace Sys2Proof.Machine

/-- Emitting two lists of items is emitting the one, then the other from the cursor the first leaves. -/
theorem emitAll_append (o : Opc) (origin : BjumpOrigin) (xs ys : List Emit) (c : Cursor) :
    emitAll o origin (xs ++ ys) c =
      match emitAll o origin xs c with
      | none => none
      | some (bytes, c') =>
        match emitAll o origin ys c' with
        | none => none
        | some (rest, c'') => some (bytes ++ rest, c'') := by
  induction xs generalizing c with
  | nil => simp only [List.nil_append, emitAll]; cases emitAll o origin ys c <;> rfl
  | cons item xs ih =>
    simp only [List.cons_append, emitAll]
    cases c.callOf origin item with
    | none => rfl
    | some e =>
      simp only
      cases encBytes o e with
      | error _ => rfl
      | ok bytes =>
        simp only [ih]
        cases emitAll o origin xs (c.advance e bytes.length) with
        | none => rfl
        | some p =>
          simp only
          cases emitAll o origin ys p.2 <;> simp

/-- The bytes at `pc` are those of an instruction, followed by whatever stands there. -/
theorem readBytes_encode {o : Opc} {m : Memory} {pc : Nat} {i : Instr}
    (hb : Memory.readBytes m pc (encode o i).length = encode o i) :
    ∃ rest, Memory.readBytes m pc maxInstrLen = encode o i ++ rest := by
  have hl : (encode o i).length ≤ maxInstrLen := by
    rw [length_encode]; cases i <;> simp [Instr.head, Head.len, maxInstrLen]
  obtain ⟨k, hk⟩ := Nat.exists_eq_add_of_le hl
  exact ⟨_, by rw [hk, Memory.readBytes_add, hb]⟩

/-- The walk over a program stops behind its DMAEND. -/
theorem instrsAt_dmaend {o : Opc} {m : Memory} {fuel pc : Nat} (hpc : pc < addrSpace)
    (hd : ∀ rest, decode o (encode o .dmaend ++ rest) = .ok (.dmaend, rest))
    (hb : Memory.readBytes m pc 1 = encode o .dmaend) : instrsAt o m (fuel + 1) pc = ([.dmaend], pc + 1) := by
  obtain ⟨rest, hr⟩ := readBytes_encode (i := .dmaend) hb
  simp [instrsAt, Nat.not_le.2 hpc, hr, hd]

/-- At any other instruction it goes on behind it. -/
theorem instrsAt_cons {o : Opc} {m : Memory} {fuel pc : Nat} {i : Instr} (hpc : pc < addrSpace) (hi : i ≠ .dmaend)
    (hd : ∀ rest, decode o (encode o i ++ rest) = .ok (i, rest))
    (hb : Memory.readBytes m pc (encode o i).length = encode o i) :
    instrsAt o m (fuel + 1) pc =
      (i :: (instrsAt o m fuel (pc + (encode o i).length)).1, (instrsAt o m fuel (pc + (encode o i).length)).2) := by
  obtain ⟨rest, hr⟩ := readBytes_encode hb
  simp [instrsAt, Nat.not_le.2 hpc, hr, hd, hi]

/-- What the walk knows after a load, after a store, with every register written. -/
theorem Reach.load_some (l : CcrLayout) (r : Reach) {ccr : Word} {a : Nat} (hc : r.ccr = some ccr) (ha : r.sar = some a) :
    r.load l = { r with
      sar := some (a + r.times * (srcBurst l ccr).bytes)
      src := r.src ++ [⟨a, r.times * (srcBurst l ccr).bytes⟩] } := by
  simp [Reach.load, hc, ha]

theorem Reach.store_some (l : CcrLayout) (r : Reach) {ccr : Word} {a : Nat} (hc : r.ccr = some ccr) (ha : r.dar = some a) :
    r.store l = { r with
      dar := some (a + r.times * (dstBurst l ccr).bytes)
      dst := r.dst ++ [⟨a, r.times * (dstBurst l ccr).bytes⟩] } := by
  simp [Reach.store, hc, ha]

end Sys2Proof.Machine
end

