-- ==== Sys2Proof/Laws/Step.lean ====
section
/-! SUPPORT. What a step can be, said once: whose step it was, and what each kind of agent can change. -/
namespace Sys2Proof.Machine

/-- A step is a step of the agent whose turn it is. -/
theorem step_eq_agentStep (s : State) : step s = ({ s with sched := s.sched.tail } : State).agentStep s.mover := rfl

/-- A channel's step: nothing, an instruction that completed, fetched at its pc or injected, or its fault. -/
theorem channelStep_next {s t : State} {c : Fin 8} (h : s.channelStep c = .next t) :
    (s.debugFor c = false ∧ (s.chan c).status ≠ .executing ∧ t = s) ∨
    (s.debugFor c = false ∧ (s.chan c).status = .executing ∧
      ∃ i, ({ s with cur := .channel c } : State).fetch (s.chan c).pc = .ok i ∧
        exec i { s with cur := .channel c } = .next t) ∨
    (s.debugFor c = true ∧ ∃ i u, s.injected = .ok i ∧ exec i { s with cur := .channel c } = .next u ∧
      t = { u with dbgBusy := false }) ∨
    ((s.debugFor c = true ∨ (s.chan c).status = .executing) ∧
      ∃ r, t = ({ s with cur := .channel c } : State).setChan c { s.chan c with status := .faulted r }) := by
  unfold State.channelStep at h
  split at h
  · next hd =>
    rcases runInjected_next h with hi | hr
    · exact .inr (.inr (.inl ⟨hd, hi⟩))
    · exact .inr (.inr (.inr ⟨.inl hd, hr⟩))
  · next hd =>
    have hd : s.debugFor c = false := by simpa using hd
    split at h
    · next he =>
      rcases runFetched_next h with hi | hr
      · exact .inr (.inl ⟨hd, he, hi⟩)
      · exact .inr (.inr (.inr ⟨.inr he, hr⟩))
    · next he => exact .inl ⟨hd, he, by simpa using h.symm⟩

/-- The manager's step: nothing, an injected instruction that completed, or its fault. -/
theorem managerStep_next {s t : State} (h : s.managerStep = .next t) :
    t = s ∨
    (s.dbgBusy = true ∧ s.mgrFault = none ∧
      ((s.debugChannel = none ∧ ∃ i u, s.injected = .ok i ∧ exec i { s with cur := .manager } = .next u ∧
          t = { u with dbgBusy := false }) ∨
        ∃ th r, t = { s with cur := th, mgrFault := some r })) := by
  unfold State.managerStep at h
  split at h
  · next hb =>
    simp only [State.debugForManager, Bool.and_eq_true, Option.isNone_iff_eq_none] at hb
    refine .inr ⟨hb.1.1, hb.1.2, ?_⟩
    split at h
    · next hn =>
      rcases runInjected_next h with hi | ⟨r, hr⟩
      · exact .inl ⟨hn, hi⟩
      · exact .inr ⟨.manager, r, hr⟩
    · exact .inr ⟨s.cur, .controllerFault, by simpa using h.symm⟩
  · exact .inl (by simpa using h.symm)

/-- An instruction other than DMAGO completes on a channel thread only; DMAGO completes on the manager only. -/
theorem exec_next_cur {i : Instr} {s t : State} (h : exec i s = .next t) :
    (∃ c, s.cur = .channel c) ∨ (s.cur = .manager ∧ ∃ ns chan addr, i = .dmago ns chan addr) := by
  have onChan : ∀ {f : Fin 8 → Except Fault State}, s.onChannel f = .next t → ∃ c, s.cur = .channel c :=
    fun h => (onChannel_next h).imp fun _ hc => hc.1
  cases i with
  | dmalpends lc bjump => simp [exec, execDmalpends] at h
  | dmalpendb lc bjump => simp [exec, execDmalpendb] at h
  | dmago ns chan addr =>
    cases hc : s.cur with
    | manager => exact .inr ⟨rfl, ns, chan, addr, rfl⟩
    | channel c => exact .inl ⟨c, rfl⟩
  | dmaend => exact .inl (onChan h)
  | dmald => exact .inl (onChan h)
  | dmast => exact .inl (onChan h)
  | dmarmb => exact .inl (onChan h)
  | dmawmb => exact .inl (onChan h)
  | dmalp lc count => exact .inl (onChan h)
  | dmasev event => exact .inl (onChan h)
  | dmalpend lc bjump => exact .inl (onChan h)
  | dmamov rd imm => exact .inl (onChan h)

/-- DMAGO that completes starts one stopped channel that the controller has. -/
theorem exec_dmago_next {s t : State} {ns : Bool} {chan : Nat} {addr : Word}
    (h : exec (.dmago ns chan addr) s = .next t) :
    s.cur = .manager ∧ ∃ c : Fin 8, c.val = chan ∧ chan < s.params.nChannels ∧ (s.chan c).status = .stopped ∧
      t = s.setChan c (s.started ns addr) := by
  simp only [exec, execDmago] at h
  split at h
  · simp at h
  · next hc =>
    refine ⟨hc, ?_⟩
    unfold State.go at h
    split at h
    · next u hu =>
      split at hu
      · next h8 =>
        split at hu
        · next hh =>
          obtain rfl : _ = u := by simpa using hu
          exact ⟨⟨chan, h8⟩, rfl, hh.1, hh.2.1, by simpa using h.symm⟩
        · simp at hu
      · simp at hu
    · simp at h

/-- The bytes of an instruction that a fetch gives start with the byte at the pc. -/
theorem fetch_eq_ok {s : State} {pc : Word} {i : Instr} (h : s.fetch pc = .ok i) :
    ∃ bytes rest, decode s.params.opc (Memory.read s.mem pc.toNat :: bytes) = .ok (i, rest) := by
  unfold State.fetch at h
  obtain ⟨head, hh, h⟩ := except_bind_ok h
  obtain ⟨-, rfl⟩ := memRead_eq_ok hh
  split at h
  · simp at h
  · obtain ⟨rest, -, h⟩ := except_bind_ok h
    unfold decodeOrFault at h
    split at h
    · next j r hj =>
      obtain rfl : j = i := by simpa using h
      exact ⟨rest, r, hj⟩
    · simp at h

end Sys2Proof.Machine
end

