-- ==== Sys2Proof/Tests/Slice0.lean ====
section
/-! SUPPORT. Tests. The expected values are those of spec 95 (the section stands in each part's heading) or worked out
by hand from the rule named; the last part shows, for each statement, a state and operands that meet its premises. -/
namespace Sys2Proof.Tests
open Sys2Proof.Machine

/-! ## Well-formedness: one ill-formed term for each check (30 R79) -/

theorem test_wf_lp_zero : (Instr.dmalp .lc0 0).wf = false := by decide
theorem test_wf_lp_257 : (Instr.dmalp .lc1 257).wf = false := by decide
theorem test_wf_sev_32 : (Instr.dmasev 32).wf = false := by decide
theorem test_wf_lpend_256 : (Instr.dmalpend .lc0 256).wf = false := by decide
theorem test_wf_lpends_256 : (Instr.dmalpends .lc0 256).wf = false := by decide
theorem test_wf_lpendb_256 : (Instr.dmalpendb .lc1 256).wf = false := by decide
theorem test_wf_go_chan_8 : (Instr.dmago false 8 0).wf = false := by decide
theorem test_wf_boundaries : ((Instr.dmalp .lc1 256).wf && (Instr.dmasev 31).wf && (Instr.dmalpend .lc0 255).wf &&
    (Instr.dmalpends .lc0 255).wf && (Instr.dmalpendb .lc1 255).wf && (Instr.dmago true 7 0xFFFFFFFC).wf &&
    (Instr.dmamov .dar 0xFFFFFFFF).wf) = true := by decide

/-! ## Decoding: words written out from 30 R71 to R75 and 95 §2.2 -/

/-- What a byte string decodes to, the bytes behind it dropped. -/
def read? (bytes : List Byte) : Option Instr :=
  match decode Opc.spec bytes with
  | .ok (i, _) => some i
  | .error _ => none

theorem test_decode_dmaend : read? [0x00] = some .dmaend := by decide
theorem test_decode_dmald : read? [0x04] = some .dmald := by decide
theorem test_decode_dmast : read? [0x08] = some .dmast := by decide
theorem test_decode_dmarmb : read? [0x12] = some .dmarmb := by decide
theorem test_decode_dmawmb : read? [0x13] = some .dmawmb := by decide
theorem test_decode_dmalp_lc0 : read? [0b00100000, 0xFF] = some (.dmalp .lc0 256) := by decide
theorem test_decode_dmalp_lc1 : read? [0b00100010, 0x00] = some (.dmalp .lc1 1) := by decide
theorem test_decode_dmasev : read? [0b00110100, 0b00101000] = some (.dmasev 5) := by decide
theorem test_decode_dmalpend_lc0 : read? [0b00111000, 6] = some (.dmalpend .lc0 6) := by decide
theorem test_decode_dmalpend_lc1 : read? [0b00111100, 10] = some (.dmalpend .lc1 10) := by decide
theorem test_decode_dmalpends : read? [0b00111001, 6] = some (.dmalpends .lc0 6) := by decide
theorem test_decode_dmalpendb : read? [0b00111011, 6] = some (.dmalpendb .lc0 6) := by decide
theorem test_decode_dmago : read? [0b10100010, 3, 0x78, 0x56, 0x34, 0x12] = some (.dmago true 3 0x12345678) := by decide
theorem test_decode_dmamov : read? [0b10111100, 2, 0xEF, 0xBE, 0xAD, 0xDE] = some (.dmamov .dar 0xDEADBEEF) := by decide
theorem test_decode_reserved : ([[0x3A, 6], [0x3E, 6], [0x28, 0], [0x2F, 0], [0x01], [0x34, 1],
    [0xBC, 3, 0, 0, 0, 0], [0xBC, 8, 0, 0, 0, 0], [0xA0, 8, 0, 0, 0, 0]].map read?).all Option.isNone = true := by decide
/-- The same words as opcode_table.json numbers them: byte 1 in bits 15..8. -/
theorem test_table_word_dmalp : decodeTableWord 16 0x0F22 = some (.dmalp .lc1 16) := by decide
theorem test_table_word_dmago : decodeTableWord 48 0x1234567803A2 = some (.dmago true 3 0x12345678) := by decide

/-! ## The encode operations (95 §2.1) -/

def enc (c : EncCall) : Option (List Byte) := (encBytes Opc.spec c).toOption

/-- The sub-code of the typed error, 0 where there is none. -/
def encSub (c : EncCall) : Nat :=
  match encBytes Opc.spec c with
  | .error e => e.subCode
  | .ok _ => 0

theorem test_enc_mov : enc (.mov 1 0x003E40F9) = some [0xBC, 0x01, 0xF9, 0x40, 0x3E, 0x00] := by decide
theorem test_enc_lp : enc (.lp 1 16) = some [0x22, 0x0F] ∧ enc (.lp 0 256) = some [0x20, 0xFF] := by decide
theorem test_enc_lpend : enc (.lpend 0 0 0 6) = some [0x38, 0x06] ∧ enc (.lpend 1 0 0 10) = some [0x3C, 0x0A] := by
  decide
theorem test_enc_lpend_single : enc (.lpend 0 0 1 1) = some [0x39, 0x01] ∧ enc (.lpend 1 0 1 10) = some [0x3D, 0x0A] := by
  decide
theorem test_enc_lpend_burst : enc (.lpend 0 0 2 6) = some [0x3B, 0x06] ∧ enc (.lpend 1 0 2 255) = some [0x3F, 0xFF] := by
  decide
theorem test_enc_go : enc (.go 1 7 0xFFFFFFFC) = some [0xA2, 0x07, 0xFC, 0xFF, 0xFF, 0xFF] ∧
    enc (.go 0 0 0x80000000) = some [0xA0, 0x00, 0x00, 0x00, 0x00, 0x80] := by decide
theorem test_enc_sev : enc (.sev 31) = some [0x34, 0xF8] ∧ enc (.sev 5) = some [0x34, 0x28] := by decide
theorem test_enc_errors : [EncCall.mov 3 0, .lp 2 0, .lp 0 0, .lp 0 257, .lpend 2 1 3 0, .lpend 0 1 0 6, .lpend 0 0 3 6,
    .lpend 0 0 0 0, .lpend 0 0 0 256, .go 2 8 0, .go 2 0 0, .sev 32].map encSub =
    [13, 14, 15, 15, 16, 17, 18, 19, 19, 20, 21, 22] := by decide

/-! ## The CCR word (95 §2.3) -/

/-- A mem-to-mem transfer from 0x1000 to 0x2000. -/
def cfgOf (src dst : Shape) (size : Word) : TransferConfig := ⟨0x1000, 0x2000, size, .memToMem, src, dst⟩

/-- The value of BuildCCR, or the sub-code of its error. -/
def ccrOf (src dst : Shape) : Nat × Nat :=
  match buildCcr Params.spec (cfgOf src dst 0) with
  | .ok v => (v.toNat, 0)
  | .error e => (0, e.subCode)

theorem test_ccr_one_side : ccrOf ⟨16, 16, true, 0, 0⟩ ⟨1, 1, false, 0, 0⟩ = (0x000000F9, 0) ∧
    ccrOf ⟨1, 1, false, 0, 0⟩ ⟨16, 16, true, 0, 0⟩ = (0x003E4000, 0) := by decide
theorem test_ccr_prot_cache : ccrOf ⟨1, 1, false, 5, 3⟩ ⟨1, 1, false, 0, 0⟩ = (0x00001D00, 0) ∧
    ccrOf ⟨1, 1, false, 0, 0⟩ ⟨1, 1, false, 5, 3⟩ = (0x07400000, 0) := by decide
theorem test_ccr_mixed : ccrOf ⟨2, 8, true, 0, 0⟩ ⟨4, 4, true, 0, 0⟩ = (0x000D4073, 0) ∧
    ccrOf ⟨16, 16, true, 7, 7⟩ ⟨16, 16, true, 7, 7⟩ = (0x0FFE7FF9, 0) := by decide
theorem test_ccr_source_errors : ([(3, 1, 0, 0), (0, 1, 0, 0), (24, 1, 0, 0), (32, 1, 0, 0), (4, 0, 0, 0), (4, 17, 0, 0),
    (4, 1, 8, 0), (4, 1, 0, 9)].map fun (a, b, c, d) => (ccrOf ⟨a, b, true, c, d⟩ ⟨1, 1, false, 0, 0⟩).2) =
    [1, 1, 1, 2, 3, 4, 5, 6] := by decide
theorem test_ccr_destination_errors : ([(3, 1, 0, 0), (64, 1, 0, 0), (4, 0, 0, 0), (4, 20, 0, 0), (4, 1, 8, 0),
    (4, 1, 0, 8)].map fun (a, b, c, d) => (ccrOf ⟨4, 1, true, 0, 0⟩ ⟨a, b, true, c, d⟩).2) =
    [7, 8, 9, 10, 11, 12] := by decide

/-! ## Decomposition and compilation (95 §2.4, §2.5, §3) -/

theorem test_nests : nests 513 = [(2, 256), (1, 1)] ∧ nests 65535 = [(255, 256), (1, 255)] ∧
    nests 65792 = [(256, 256), (1, 256)] ∧ nests 0 = [] := by decide
theorem test_nest_bytes : (emitAll Opc.spec .atLpend (decomposeItems 513) ⟨18, none, none⟩).map Prod.fst =
    some [0x22, 0x01, 0x20, 0xFF, 0x04, 0x12, 0x08, 0x13, 0x38, 0x04, 0x3C, 0x08,
      0x20, 0x00, 0x04, 0x12, 0x08, 0x13, 0x38, 0x04] := by decide

def cfgP1 : TransferConfig := cfgOf ⟨16, 1, true, 0, 0⟩ ⟨16, 1, true, 0, 0⟩ 16

theorem test_compile_p1 : compileBytes Params.spec cfgP1 = some
    [0xBC, 0x01, 0x09, 0x40, 0x02, 0x00, 0xBC, 0x00, 0x00, 0x10, 0x00, 0x00, 0xBC, 0x02, 0x00, 0x20, 0x00, 0x00,
      0x20, 0x00, 0x04, 0x12, 0x08, 0x13, 0x38, 0x06, 0x34, 0x00, 0x00] := by decide
theorem test_compile_p3 : compileBytes Params.spec (memToMemDefault Params.spec 0x00100000 0x00200000 1048576) = some
    [0xBC, 0x01, 0xF9, 0x40, 0x3E, 0x00, 0xBC, 0x00, 0x00, 0x00, 0x10, 0x00, 0xBC, 0x02, 0x00, 0x00, 0x20, 0x00,
      0x22, 0x0F, 0x20, 0xFF, 0x04, 0x12, 0x08, 0x13, 0x38, 0x06, 0x3C, 0x0A, 0x34, 0x00, 0x00] := by decide
theorem test_compile_lengths : programLength (memToMemDefault Params.spec 0 0 0xFFFFFF00) = 3101 ∧
    programLength (cfgOf ⟨1, 1, true, 0, 0⟩ ⟨1, 1, true, 0, 0⟩ 0xFFFFFFFF) = 786461 := by decide

/-- Code and sub-code of Compile's error. -/
def compileErr (cfg : TransferConfig) : Nat × Nat :=
  match compileChecks Params.spec cfg with
  | .error e => (e.code, e.subCode)
  | .ok _ => (0, 0)

theorem test_compile_errors :
    compileErr (memToMemDefault Params.spec 0 0 100) = (2, 1) ∧
    compileErr (cfgOf ⟨16, 16, true, 0, 0⟩ ⟨8, 16, true, 0, 0⟩ 4096) = (2, 2) ∧
    compileErr { cfgOf ⟨3, 1, true, 0, 0⟩ ⟨1, 1, true, 0, 0⟩ 100 with kind := .devToMem } = (1, 1) ∧
    compileErr { memToMemDefault Params.spec 0 0 100 with kind := .memToDev } = (3, 0) := by decide

/-! ## Submission (95 §2.6) -/

/-- Reset, the first host context asked to do `op`, DBGSTATUS about to answer `draws`. -/
def hostState (op : HostOp) (draws : List Word) : State :=
  { State.reset with hosts := [{ HostCtx.reset with ops := [op] }, HostCtx.reset], draws := draws }

/-- 95 §2.6 takes a program at 0x12345678 as written: here it is one DMAEND. -/
theorem test_submit_trace :
    ({ hostState (.submit 3 0x12345678 1) [0xFFFFFFFE] with stored := [0x12345678] }.hostRun 0 4).trace =
    [.read 0xD00 0xFFFFFFFE, .write 0xD08 0x03A20000, .write 0xD0C 0x12345678, .write 0xD04 0] := by decide
theorem test_submit_busy : ((hostState (.submit 3 0x12345678 1) [3]).hostRun 0 1).trace = [.read 0xD00 3] ∧
    ((hostState (.submit 3 0x12345678 1) [3]).hostRun 0 1).returned 0 = some (.err .deviceBusy) := by decide
theorem test_submit_channel_first : ((hostState (.submit 9 0x1000 5) []).hostRun 0 1).returned 0 =
    some (.err (.invalidField .submitChan)) := by decide

/-! ## The executor (95 §2.7), the instruction at p = 0x1000 -/

/-- An executing channel at `pc`, with CCR, SAR and DAR as given. -/
def chanAt (pc : Word) (ccr sar dar : Option Word) : Chan :=
  { Chan.reset with pc := pc, ccr := ccr, sar := sar, dar := dar, status := .executing }

/-- Reset, with `ch` as channel 0, whose instruction is asked about, and `mem` as memory. -/
def onChan (ch : Chan) (mem : List Host.Cell) : State :=
  { State.reset with mem := mem, cur := .channel 0 }.setChan 0 ch

/-- Channel 0 after an instruction that completes. -/
def chanOf (o : Out) : Option Chan :=
  match o with
  | .next t => some (t.chan 0)
  | _ => none

/-- Memory after an instruction that completes. -/
def memOf (o : Out) : Option (List Host.Cell) :=
  match o with
  | .next t => some t.mem
  | _ => none

def faultOf (o : Out) : Option Fault :=
  match o with
  | .fault r => some r
  | _ => none

/-- A channel at p with no register written. -/
def bare : Chan := chanAt 0x1000 none none none

/-- CCR of 95 P2: one 4-byte beat each side, both addresses moving. -/
def small : Chan := chanAt 0x1000 (some 0x00014005) (some 0x1000) (some 0x2000)

/-- Four bytes at 0x1000. -/
def fourBytes : List Host.Cell := [(0x1000, 1), (0x1001, 2), (0x1002, 3), (0x1003, 4)]

theorem test_dmamov : (chanOf (exec (.dmamov .dar 0xDEADBEEF) (onChan bare []))).map (fun c => (c.dar, c.sar, c.pc)) =
    some (some 0xDEADBEEF, none, 0x1006) := by decide
theorem test_dmalp : (chanOf (exec (.dmalp .lc1 16) (onChan bare []))).map (fun c => (c.lc1, c.lc0, c.pc)) =
    some (some 15, none, 0x1002) := by decide
theorem test_dmalpend : (chanOf (exec (.dmalpend .lc0 6) (onChan { bare with lc0 := some 3 } []))).map
      (fun c => (c.lc0, c.pc)) = some (some 2, 0x0FFC) ∧
    (chanOf (exec (.dmalpend .lc0 6) (onChan { bare with lc0 := some 0 } []))).map
      (fun c => (c.lc0, c.pc)) = some (some 0, 0x1002) := by decide
theorem test_dmalpend_at_lpend : (chanOf (exec (.dmalpend .lc0 6)
    { onChan { bare with lc0 := some 3 } [] with params := { Params.spec with bjumpOrigin := .atLpend } })).map
    (fun c => (c.lc0, c.pc)) = some (some 2, 0x0FFA) ∧
    faultOf (exec (.dmalpend .lc0 255) (onChan { bare with pc := 0x10, lc0 := some 1 } [])) = some .pcRange := by decide
theorem test_dmald : (chanOf (exec .dmald (onChan small fourBytes))).map (fun c => (c.fifo, c.sar, c.pc)) =
    some ([1, 2, 3, 4], some 0x1004, 0x1001) := by decide
/-- A load and a store of the last four bytes of the address space run (R213: a + n = 2^32 is in range); the address
register's new value is a free value. -/
theorem test_burst_at_top :
    (chanOf (exec .dmald (onChan { small with sar := some 0xFFFFFFFC } [(0xFFFFFFFF, 9)]))).map (fun c => (c.fifo, c.pc)) =
      some ([0, 0, 0, 9], 0x1001) ∧
    memOf (exec .dmast (onChan { small with dar := some 0xFFFFFFFC, fifo := [0, 0, 0, 9] } [])) =
      some [(0xFFFFFFFF, 9)] := by decide
theorem test_dmald_fixed : (chanOf (exec .dmald (onChan { small with ccr := some 0x00014014 } fourBytes))).map
    (fun c => (c.fifo, c.sar)) = some ([1, 2, 3, 4, 1, 2, 3, 4], some 0x1000) := by decide
theorem test_dmast : memOf (exec .dmast (onChan { small with fifo := [1, 2, 3, 4] } [])) =
    some [(0x2000, 1), (0x2001, 2), (0x2002, 3), (0x2003, 4)] := by decide
theorem test_dmast_overwrite : faultOf (exec .dmast (onChan { small with
    fifo := [1, 2, 3, 4], progBase := 0x2003, progLen := 1 } [])) = some .programOverwrite := by decide
theorem test_dmarmb : (chanOf (exec .dmarmb (onChan small []))).map Chan.pc = some 0x1001 := by decide
theorem test_dmawmb : (chanOf (exec .dmawmb (onChan small []))).map Chan.pc = some 0x1001 := by decide
theorem test_dmasev : (chanOf (exec (.dmasev 31) (onChan bare []))).map (fun c => (c.events, c.pc)) =
    some ([31], 0x1002) := by decide
theorem test_dmaend : (chanOf (exec .dmaend (onChan bare []))).map (fun c => (c.status, c.pc)) =
    some (.stopped, 0x1000) := by decide
theorem test_dmaend_fifo : faultOf (exec .dmaend (onChan { bare with fifo := [0] } [])) = some .fifoNotEmpty := by decide
theorem test_dmago_on_channel : faultOf (exec (.dmago false 0 0x1000) (onChan bare [])) = some .undecodable := by decide
/-- A whole step: the bytes of DMAGO 2, 0x8000, ns through the injection registers. -/
theorem test_step_dmago : (match step (State.reset.withFetchWord 48 0x0000800002A2) with
    | .next t => ((t.chan 2).pc, (t.chan 2).status, (t.chan 2).ns, t.dbgBusy)
    | _ => (0, .stopped, false, true)) = (0x8000, .executing, true, false) := by decide
/-- A whole step: DMAMOV SAR, 0x12345678 at channel 0's pc. -/
theorem test_step_dmamov : (chanOf (step (State.reset.withFetchWord 48 0x1234567800BC))).map (fun c => (c.sar, c.pc)) =
    some (some 0x12345678, 6) := by decide
theorem test_reset_waits : (match step State.reset with
    | .next t => decide (t = State.reset)
    | _ => false) = true := by decide

/-! ## Programs in memory (20 R62, 45 R211), worked out from the bytes of P1 and P3 of 95 §3 -/

/-- Reset with bytes at 0x8000, written and visible. -/
def holding (bytes : List Byte) : State :=
  { State.reset with mem := Memory.writeBytes [] 0x8000 bytes, stored := setInsertRange 0x8000 bytes.length [] }

def bytesP1 : List Byte := (compileBytes Params.spec cfgP1).getD []
def bytesP3 : List Byte := (compileBytes Params.spec (memToMemDefault Params.spec 0x00100000 0x00200000 1048576)).getD []

theorem test_program_p1 : (holding bytesP1).programAt 0x8000 = ⟨0x8000, 29, [⟨0x1000, 16⟩], [⟨0x2000, 16⟩]⟩ := by
  decide +kernel
theorem test_program_p3 : (holding bytesP3).programAt 0x8000 =
    ⟨0x8000, 33, [⟨0x00100000, 1048576⟩], [⟨0x00200000, 1048576⟩]⟩ := by decide +kernel

/-- A reserved byte-1 form is read whole before it faults (30 R76, 45 R214): BC 03 takes six bytes, 34 01 two. -/
theorem test_program_reserved : ((holding [0xBC, 3]).programAt 0x8000).len = 6 ∧
    ((holding [0x34, 1]).programAt 0x8000).len = 2 ∧ ((holding [0x3A]).programAt 0x8000).len = 1 := by decide +kernel
/-- No byte of a program lies at 2^32 or above (10_state R44). -/
theorem test_program_at_top : ({ State.reset with mem := [(0xFFFFFFFE, 0xBC)] }.programAt 0xFFFFFFFE).len = 2 := by
  decide +kernel

/-! ## A build under way (20 R60): P1 being compiled over an older program, 0x8004 in a range in flight -/

def rebuilding : State :=
  { State.reset with stored := [0x8000, 0x8004, 0x801C, 0x9000], flights := [⟨0, ⟨0x9100, 1, [⟨0x8004, 1⟩], []⟩, false⟩] }

/-- With its first byte none of the old bytes counts any more; an emission none of whose bytes lands leaves them. -/
theorem test_overwrite : (rebuilding.overwrite (newEmission ⟨0x8000, 29, by decide⟩ 0 29 [] true)).stored = [0x9000] ∧
    (rebuilding.overwrite (newEmission ⟨0x8004, 25, by decide⟩ 0 25 [] true)).stored = rebuilding.stored := by decide

/-! ## An instruction injected into a channel thread (10_state R37, R38) -/

/-- DMASEV 5 (bytes 34 28) for channel thread 3: bits 31:24 and 23:16 the bytes, bits 10:8 the channel, bit 0 the select. -/
def injecting : State :=
  { State.reset with dbginst0 := 0x28340301, dbgBusy := true, sched := [.thread (.channel 3)] }

theorem test_injected_dmasev : (match step injecting with
    | .next t => ((t.chan 3).events, (t.chan 3).pc, (t.chan 3).status, t.dbgBusy)
    | _ => ([], 0, .executing, true)) = ([5], 2, .stopped, false) := by decide

/-! ## Witnesses: for each statement with premises, a state and operands that meet them -/

theorem witness_legal : Opc.spec.legal ∧ RegMap.spec.legal ∧ CcrLayout.spec.legal ∧ Params.spec.legal := by decide

/-- A table other than R72's, as `OPC` may be given: DMALD and DMAST exchanged. -/
theorem witness_other_table : Opc.legal { Opc.spec with ld := 0x08, st := 0x04 } := by decide

theorem witness_DecodeOfEncode : (Instr.dmago true 7 0xFFFFFFFC).wf = true ∧ (Instr.dmalpend .lc1 0).wf = true := by decide

theorem witness_EncodeOfDecode : decode Opc.spec [0x22, 0xFF, 0x00] = .ok (.dmalp .lc1 256, [0x00]) := rfl

theorem witness_FirstByteTellsTheLength : decode Opc.spec [0xBC, 2, 1, 0, 0, 0, 7] = .ok (.dmamov .dar 1, [7]) ∧
    instrLen Opc.spec 0x3A = none ∧ instrLen Opc.spec 0xBC = some 6 := ⟨rfl, by decide, by decide⟩

theorem witness_ReservedEncodings : (0x3A#8 ∉ [0x00#8, 0x04#8, 0x08#8, 0x12#8, 0x13#8, 0x20#8, 0x22#8, 0x34#8, 0x38#8,
      0x39#8, 0x3B#8, 0x3C#8, 0x3D#8, 0x3F#8, 0xA0#8, 0xA2#8, 0xBC#8]) ∧
    3 ≤ (3 : Byte).toNat ∧ 3 ≤ (255 : Byte).toNat ∧ 8 ≤ (8 : Byte).toNat ∧ (1 : Byte).toNat % 8 ≠ 0 := by decide

theorem witness_EncodeOperationsWrite : encBytes Opc.spec (.lpend 1 0 2 255) = .ok [0x3F, 0xFF] := rfl

theorem witness_EncodeErrors : 1 < 2 ∧ (0 < 1 ∨ 256 < 0) ∧ (257 < 1 ∨ 256 < 257) ∧ (1 : Nat) ≠ 0 ∧ 2 < 3 ∧
    (256 < 1 ∨ 255 < 256) ∧ 7 < 8 := by decide

theorem witness_ImmediateIsReadBack : encBytes Opc.spec (.mov 2 0xDEADBEEF) = .ok [0xBC, 0x02, 0xEF, 0xBE, 0xAD, 0xDE] ∧
    encBytes Opc.spec (.go 1 7 0x12345678) = .ok [0xA2, 0x07, 0x78, 0x56, 0x34, 0x12] := ⟨rfl, rfl⟩

theorem about (op : HostOp) (draws : List Word) : (hostState op draws).aboutTo 0 op :=
  ⟨_, _, rfl, rfl, rfl, rfl⟩

/-- Nothing is in flight at reset, so nothing is barred. -/
theorem free (op : HostOp) (a : Nat) : (hostState op []).hostWriteBarred a = false ∧ (hostState op []).hostReadBarred a = false :=
  ⟨rfl, rfl⟩

/-- A six-byte DMAMOV in the last bytes of a buffer; the eight bytes of one nest in a buffer of eight. -/
theorem witness_EncodeRun : (hostState (.encode ⟨0x8000, 8, by decide⟩ 2 (.mov 1 5)) []).aboutTo 0 (.encode ⟨0x8000, 8, by decide⟩ 2 (.mov 1 5)) ∧
    encBytes Opc.spec (.mov 1 5) = .ok [0xBC, 1, 5, 0, 0, 0] ∧ 2 + 6 ≤ (⟨0x8000, 8, by decide⟩ : Buffer).cap := ⟨about _ _, rfl, by decide⟩
theorem witness_DecomposeRun : (hostState (.decompose ⟨0xFFFFFFF8, 8, by decide⟩ 0 cfgP1) []).aboutTo 0
      (.decompose ⟨0xFFFFFFF8, 8, by decide⟩ 0 cfgP1) ∧ checkDecompose cfgP1 = .ok () ∧
    (∃ bytes cur, emitAll Opc.spec .afterLpend (decomposeItems (burstCount cfgP1)) ⟨0, none, none⟩ = some (bytes, cur) ∧
      0 + bytes.length ≤ (⟨0xFFFFFFF8, 8, by decide⟩ : Buffer).cap) :=
  ⟨about _ _, rfl, _, _, rfl, by decide⟩

theorem witness_TypedErrors :
    (hostState (.compile ⟨0x8000, 4096, by decide⟩ { cfgP1 with size := 100 }) []).aboutTo 0
      (.compile ⟨0x8000, 4096, by decide⟩ { cfgP1 with size := 100 }) ∧
    ((hostState (.compile ⟨0x8000, 4096, by decide⟩ { cfgP1 with size := 100 }) []).hostStep 0).returned 0 =
      some (.err (.alignmentError .size)) := ⟨about _ _, by decide⟩

theorem witness_TypedErrors_busy : (hostState (.submit 3 0 1) [1]).aboutTo 0 (.submit 3 0 1) ∧
    ((hostState (.submit 3 0 1) [1]).hostStep 0).returned 0 = some (.err .deviceBusy) := ⟨about _ _, by decide⟩

theorem witness_CcrFields : Params.spec.legal ∧ Params.spec.ccrLayout = CcrLayout.spec ∧
    buildCcr Params.spec (cfgOf ⟨16, 16, true, 7, 7⟩ ⟨2, 8, false, 0, 0⟩ 0) = .ok 0x001CBFF9 := ⟨by decide, rfl, rfl⟩

theorem legal_small : Shape.Legal Params.spec ⟨16, 16, true, 7, 7⟩ ∧ Shape.Legal Params.spec ⟨1, 1, false, 0, 0⟩ :=
  ⟨⟨⟨4, rfl⟩, by decide⟩, ⟨⟨0, rfl⟩, by decide⟩⟩

/-- One side's checks, each failing first: burst size 3, 32, burst length 0, 17, protection 8, cache 8. -/
theorem witness_CompileChecks_sides : (¬ ∃ k, 3 = 2 ^ k) ∧ (∃ k, 32 = 2 ^ k) ∧ Params.spec.maxBurstSize < 32 ∧
    (∃ k, 16 = 2 ^ k) ∧ 16 ≤ Params.spec.maxBurstSize ∧ Params.spec.maxBurstLen < 17 ∧ 0 < 1 ∧
    16 ≤ Params.spec.maxBurstLen ∧ 7 < 8 := by
  refine ⟨?_, ⟨5, rfl⟩, by decide, ⟨4, rfl⟩, by decide⟩
  rintro ⟨k, hk⟩
  match k, hk with
  | 0, hk => simp at hk
  | k + 1, hk => rw [Nat.pow_succ] at hk; omega

theorem witness_CompileChecks_rest : Kind.memToDev ≠ .memToMem ∧ (255 : Word).toNat % (16 * 16) ≠ 0 ∧
    (256 : Word).toNat % (16 * 16) = 0 ∧ 1 * 1 ≠ 16 * 16 := by decide

theorem witness_Nests : 256 ≤ 256 % 65536 ∧ 256 ≤ 65535 % 65536 := by decide

theorem witness_NestBytes : 1 ≤ 256 ∧ 256 ≤ 256 := by decide

theorem witness_CompiledProgramLayout : Params.spec.opc = Opc.spec ∧ compileChecks Params.spec cfgP1 = .ok 0x00024009 ∧
    Params.spec.completionEvent ≤ 31 := ⟨rfl, rfl, by decide⟩

/-- A buffer of exactly the length of P1. -/
def bufP1 : Buffer := ⟨0x8000, 29, by decide⟩

theorem witness_CompileRun : (hostState (.compile bufP1 cfgP1) []).aboutTo 0 (.compile bufP1 cfgP1) ∧
    (hostState (.compile bufP1 cfgP1) []).bufferInFlight bufP1 = false ∧
    (∃ bytes, compileBytes (hostState (.compile bufP1 cfgP1) []).params cfgP1 = some bytes ∧
      bytes.length ≤ bufP1.cap) :=
  ⟨about _ _, rfl, _, test_compile_p1, by decide⟩

theorem witness_Capacity : Memory.wf State.reset.mem = true ∧ bufP1.base + bufP1.cap ≤ 0x801D ∧
    bufP1.cap < 28 + [(0x34 : Byte), 0].length ∧ bufP1.cap ≤ 29 := by decide

theorem witness_ProgramInMemory : (holding bytesP1).params.legal ∧ (holding bytesP1).params.ccrLayout = CcrLayout.spec ∧
    compileBytes (holding bytesP1).params cfgP1 = some bytesP1 ∧ 0x8000 + bytesP1.length ≤ addrSpace ∧
    Memory.readBytes (holding bytesP1).mem 0x8000 bytesP1.length = bytesP1 := by decide

/-- The submitter's state before an accepted Submit(7, 0x8000, 1) of P1. -/
def submitState : State := { hostState (.submit 7 0x8000 1) [0xFFFFFFFE] with
  mem := (holding bytesP1).mem, stored := (holding bytesP1).stored }

theorem witness_SubmitFour : submitState.params.opc = Opc.spec ∧ submitState.params.regs = RegMap.spec ∧
    submitState.pathTaken 0 = false ∧ 7 < submitState.params.nChannels ∧ submitState.dbgBusy = false ∧
    submitState.draw.1.getLsbD 0 = false := by decide
theorem witness_SubmitFour_visible : submitState.aboutTo 0 (.submit 7 0x8000 1) ∧
    submitState.allVisible (submitState.programAt 0x8000) = true := ⟨⟨_, _, rfl, rfl, rfl, rfl⟩, by decide +kernel⟩

theorem witness_SubmitBusy : { submitState with dbgBusy := true }.aboutTo 0 (.submit 7 0x8000 1) ∧
    { submitState with dbgBusy := true }.pathTaken 0 = false ∧
    (dbgStatusValue RegMap.spec true { submitState with dbgBusy := true }.draw.1).getLsbD 0 = true :=
  ⟨⟨_, _, rfl, rfl, rfl, rfl⟩, by decide⟩

theorem witness_SubmitChecks : (hostState (.submit 8 0x1000 0) []).aboutTo 0 (.submit 8 0x1000 0) ∧
    Params.spec.nChannels ≤ 8 ∧ (hostState (.submit 0 0x1000 2) []).aboutTo 0 (.submit 0 0x1000 2) :=
  ⟨about _ _, by decide, about _ _⟩

theorem witness_Window : (∃ t, { State.reset with dbgBusy := true, draws := [0] }.regRead 0xD00 = .ok (1, t)) ∧
    (hostState (.writeInten 0x80000001) []).aboutTo 0 (.writeInten 0x80000001) ∧
    (hostState .readInten []).aboutTo 0 .readInten ∧ (hostState (.clearIrq 31) []).aboutTo 0 (.clearIrq 31) :=
  ⟨⟨_, rfl⟩, about _ _, about _ _, about _ _⟩

/-- Host context 1 stands in its submission, before the write of `phase`. -/
def submitting (phase : Phase) : State :=
  { State.reset with
    hosts := [{ HostCtx.reset with ops := [.submit 0 0x8000 0] },
      { HostCtx.reset with job := .submit ⟨1, 0x8000, 1, phase⟩ }] }

theorem witness_Interleaved : (submitting .inst0).aboutTo 0 (.submit 0 0x8000 0) ∧ 0 < (submitting .inst0).params.nChannels ∧
    ∃ h, (submitting .inst0).hosts[1]? = some h ∧ h.job = .submit ⟨1, 0x8000, 1, .inst0⟩ :=
  ⟨⟨_, _, rfl, rfl, rfl, rfl⟩, by decide, _, rfl, rfl⟩

/-- Its program's first byte has not been written, its last byte has been and not made visible. -/
def unseen : State :=
  { submitting .cmd with
    mem := (holding bytesP1).mem, dirty := [0x801C], stored := setInsertRange 0x8001 28 [] }

theorem witness_Visibility : (∃ h, unseen.hosts[1]? = some h ∧ h.fault = none ∧ h.job = .submit ⟨1, 0x8000, 1, .cmd⟩) ∧
    unseen.pathTaken 1 = false ∧ 0x801C ∈ unseen.dirty ∧ 0x8000 ∉ unseen.stored :=
  ⟨⟨_, rfl, rfl, rfl⟩, by decide⟩
theorem witness_Visibility_program : (unseen.programAt 0x8000).base ≤ 0x8000 ∧
    0x801C < (unseen.programAt 0x8000).base + (unseen.programAt 0x8000).len := by decide +kernel

def progP1 : Program := ⟨0x8000, 29, [⟨0x1000, 16⟩], [⟨0x2000, 16⟩]⟩

/-- P1 is in flight on channel 0, and the host wants to do something. -/
def flying (op : HostOp) : State := { hostState op [] with flights := [⟨0, progP1, false⟩] }

theorem witness_InFlight : ∀ op, (flying op).aboutTo 0 op ∧ (⟨0, progP1, false⟩ : Flight) ∈ (flying op).flights :=
  fun _ => ⟨⟨_, _, rfl, rfl, rfl, rfl⟩, List.mem_singleton.2 rfl⟩
/-- The last byte of the program, of the source, of the destination; a buffer that ends behind the program's first byte. -/
theorem witness_InFlight_bounds : progP1.base ≤ 0x801C ∧ 0x801C < progP1.base + progP1.len ∧
    (⟨0x1000, 16⟩ : AddrRange) ∈ progP1.src ++ progP1.dst ∧ 0x100F < 0x1000 + 16 ∧
    (⟨0x2000, 16⟩ : AddrRange) ∈ progP1.dst ∧ 0x200F < 0x2000 + 16 ∧ 
    progP1.base ≤ 0x8000 ∧ (⟨0x7F00, 0x101, by decide⟩ : Buffer).base ≤ 0x8000 ∧ 0x8000 < 0x7F00 + 0x101 := by decide
/-- A buffer of capacity 0 inside the program has no address in common with it (70 R264). -/
theorem test_empty_buffer : (flying .quiesced).bufferInFlight ⟨0x8005, 0, by decide⟩ = false := by decide

/-- A Compile into P1's buffer, its first instruction written, when P1 was started there. -/
def overtaken : State :=
  { flying .quiesced with
    hosts := [{ HostCtx.reset with job := .emit { newEmission bufP1 0 29 [.call .fin] true with off := 6 } }] }

theorem witness_InFlight_compiling : (∃ h, overtaken.hosts[0]? = some h ∧ h.fault = none ∧
      h.job = .emit { newEmission bufP1 0 29 [.call .fin] true with off := 6 }) ∧
    progP1.base ≤ 0x801C ∧ 0x801C < progP1.base + progP1.len ∧ bufP1.base ≤ 0x801C ∧ 0x801C < bufP1.base + bufP1.cap :=
  ⟨⟨_, rfl, rfl, rfl⟩, by decide⟩

theorem witness_HostAccesses : ∀ op ∈ [HostOp.hostWrite 0xFFFFFFFF 7, .hostRead 0xFFFFFFFF, .makeVisible ⟨0x8000, 29⟩], (hostState op []).aboutTo 0 op := fun _ _ => about _ _

/-- The run of channel 0 has come to its DMAEND. -/
def completed (op : HostOp) : State := (flying op).setChan 0 { Chan.reset with ended := true }

theorem witness_FlightsEnd : (completed (.observe 0)).aboutTo 0 (.observe 0) ∧
    (∃ f ∈ (completed (.observe 0)).flights, f.chan = 0 ∧ f.abandoned = false) ∧ (completed (.observe 0)).RunEnded 0 ∧
    (completed (.observe 0)).starting 0 = false ∧ ¬ (flying (.observe 0)).RunEnded 0 ∧
    (flying .resetController).aboutTo 0 .resetController ∧ (flying .quiesced).aboutTo 0 .quiesced :=
  ⟨⟨_, _, rfl, rfl, rfl, rfl⟩, ⟨_, List.mem_singleton.2 rfl, rfl, rfl⟩, ⟨rfl, rfl⟩, rfl,
    fun h => absurd h.2 (by decide), ⟨_, _, rfl, rfl, rfl, rfl⟩, ⟨_, _, rfl, rfl, rfl, rfl⟩⟩

/-- After a trigger write for channel 7, non-secure. -/
def triggered : State :=
  { State.reset with dbginst0 := 0x07A20000, dbginst1 := 0x8000, dbgBusy := true, sched := [.thread .manager] }

theorem witness_Trigger : triggered.sched = [.thread .manager] ∧ triggered.dbgBusy = true ∧ triggered.mgrFault = none ∧
    triggered.dbginst0 = BitVec.ofNat 32 ((7 : Fin 8).val * 2 ^ 24 + (0xA0 + 2 * true.toNat) * 2 ^ 16) ∧
    (7 : Fin 8).val < triggered.params.nChannels ∧ (triggered.chan 7).status = .stopped := by decide

/-- StepRunsTheInjectedInstruction: on the manager, and on the channel thread the select bit names. -/
theorem witness_Injected : decode Opc.spec triggered.injectedBytes = .ok (.dmago true 7 0x8000, []) ∧
    triggered.dbginst0.getLsbD 0 = false ∧
    decode Opc.spec injecting.injectedBytes = .ok (.dmasev 5, [0, 0, 0, 0]) ∧ injecting.dbgBusy = true ∧
    injecting.dbginst0.getLsbD 0 = true ∧ (injecting.dbginst0.extractLsb' 8 3).toNat = (3 : Fin 8).val ∧
    injecting.sched = [.thread (.channel 3)] ∧ (injecting.chan 3).status = .stopped := by
  refine ⟨rfl, ?_, rfl, ?_⟩ <;> decide

/-- MoveWritesItsRegister, LoopStartLoadsTheCounter, BarriersOnlyAdvance, SignalEventJoinsTheSet: the last pc that fits. -/
theorem witness_PcFits : (onChan { bare with pc := 0xFFFFFFF9 } []).cur = .channel 0 ∧
    ((onChan { bare with pc := 0xFFFFFFF9 } []).chan 0).pc.toNat + 6 < 2 ^ 32 := by decide

theorem witness_LoopEnd_back : ((onChan { bare with lc0 := some 1, pc := 4 } []).chan 0).lc0 = some 1 ∧ (1 : Byte) ≠ 0 ∧
    6 ≤ ((onChan { bare with lc0 := some 1, pc := 4 } []).chan 0).pc.toNat + 2 := by decide
theorem witness_LoopEnd_range : ((onChan { bare with lc1 := some 255, pc := 3 } []).chan 0).lc1 = some 255 ∧
    ((onChan { bare with lc1 := some 255, pc := 3 } []).chan 0).pc.toNat + 2 < 6 := by decide
theorem witness_LoopEnd_through : ((onChan { bare with lc0 := some 0 } []).chan 0).lc0 = some 0 ∧
    ((onChan bare []).chan 0).lc0 = none := by decide

theorem okAt {p : Params} {u : Purpose} {a n : Nat} (h : a + n ≤ addrSpace) (hr : p.refusedAddrs = [])
    (hb : p.busErrors = []) : p.access u a n = .ok () := by
  simp [Params.access, Params.addrOk, hr, hb, Nat.not_lt.2 h]

/-- A burst of one 4-byte beat with an empty fifo, and one that fills the fifo to the last byte. -/
theorem witness_Load : ((onChan small fourBytes).chan 0).ccr = some 0x00014005 ∧
    ((onChan small fourBytes).chan 0).sar = some 0x1000 ∧
    (∀ j, j < ((0x00014005 : Word).extractLsb' 4 4).toNat + 1 → (onChan small fourBytes).params.access .load
      (beatAddr true 0x1000 4 j) 4 = .ok ()) ∧
    0 + 256 ≤ (onChan small fourBytes).params.mfifoBytes ∧ 0x1000 + 1 * 4 < 2 ^ 32 := by
  refine ⟨by decide, by decide, fun j hj => okAt ?_ rfl rfl, by decide, by decide⟩
  have : j < 1 := hj
  simp only [beatAddr, addrSpace, if_true]
  omega

/-- Exactly the bytes a store needs; both addresses moving and fixed. -/
def loaded (ccr : Word) : Chan := { small with ccr := some ccr, fifo := [1, 2, 3, 4] }

theorem witness_Store : ∀ inc, ∀ j, j < ((0x00014005 : Word).extractLsb' 18 4).toNat + 1 →
    (onChan (loaded 0x00014005) []).params.access .store (beatAddr inc 0x2000 4 j) 4 = .ok () ∧
    (((onChan (loaded 0x00014005) []).chan 0).progBase + ((onChan (loaded 0x00014005) []).chan 0).progLen ≤
      beatAddr inc 0x2000 4 j) := by
  intro inc j hj
  have : j < 1 := hj
  refine ⟨okAt ?_ rfl rfl, Nat.zero_le _⟩
  cases inc <;> simp [beatAddr, addrSpace]; omega
theorem witness_Store_fifo : 1 * 4 ≤ ((onChan (loaded 0x00010005) []).chan 0).fifo.length ∧
    0x2000 + 1 * 4 < 2 ^ 32 ∧ ((onChan (loaded 0x00010005) []).chan 0).pc.toNat + 1 < 2 ^ 32 ∧
    (0x00014005 : Word).getLsbD 14 = true ∧ (0x00010005 : Word).getLsbD 14 = false ∧ Memory.wf [] = true := by decide

theorem witness_End : ((onChan bare []).chan 0).fifo = [] ∧ ((onChan { bare with fifo := [0] } []).chan 0).fifo ≠ [] := by
  decide

theorem witness_Go : triggered.cur = .manager ∧ (7 : Fin 8).val < triggered.params.nChannels ∧
    (triggered.chan 7).status = .stopped := by decide

/-- The three refusals of DMAGO: an executing channel, a channel that is not there, a secure DMAGO refused. -/
theorem witness_RefusedGo :
    (∀ c : Fin 8, c.val = 0 → (({ onChan bare [] with cur := .manager } : State).chan c).status ≠ .stopped) ∧
    triggered.params.nChannels ≤ 8 ∧
    { Params.spec with refuseSecureGo := true }.refuseSecureGo = true := by decide

theorem witness_Unwritten : ((onChan bare []).chan 0).ccr = none ∧ ((onChan bare []).chan 0).sar = none ∧
    ((onChan { loaded 0x00014005 with dar := none } []).chan 0).dar = none ∧
    (((0x00014005 : Word).extractLsb' 18 4).toNat + 1) * 2 ^ ((0x00014005 : Word).extractLsb' 15 3).toNat ≤
      ((onChan { loaded 0x00014005 with dar := none } []).chan 0).fifo.length := by decide

/-- One byte too many for the fifo, one byte too few for the store. -/
theorem witness_Fifo : { Params.spec with mfifoBytes := 7 }.mfifoBytes < (loaded 0x00014005).fifo.length +
      (((0x00014005 : Word).extractLsb' 4 4).toNat + 1) * 2 ^ ((0x00014005 : Word).extractLsb' 1 3).toNat ∧
    ({ small with fifo := [1, 2, 3] } : Chan).fifo.length <
      (((0x00014005 : Word).extractLsb' 18 4).toNat + 1) * 2 ^ ((0x00014005 : Word).extractLsb' 15 3).toNat := by decide

/-- A platform that refuses odd multiples of 4 for loads and stores and answers 0x3000 with a bus error. -/
def fussy : Params :=
  { Params.spec with refusedAddrs := [⟨.load, 8, 4⟩, ⟨.store, 8, 4⟩, ⟨.fetch, 4, 3⟩], busErrors := [⟨0x3000, 1⟩] }

/-- The second of two 4-byte beats is refused while the first is good; a beat that does not fit; a bus error. -/
theorem witness_Beats : fussy.access .load (beatAddr true 0x1000 4 0) 4 = .ok () ∧
    fussy.addrOk .load (beatAddr true 0x1000 4 1) = false ∧ fussy.access .store (beatAddr true 0x2000 4 0) 4 = .ok () ∧
    fussy.addrOk .store (beatAddr true 0x2000 4 1) = false ∧ 1 < ((0x00054015 : Word).extractLsb' 4 4).toNat + 1 ∧
    1 < ((0x00054015 : Word).extractLsb' 18 4).toNat + 1 ∧ 2 ^ 32 < beatAddr true 0xFFFFFFFD 4 0 + 4 ∧
    fussy.addrOk .load 0x2FFF = true ∧ fussy.addrOk .store 0x3000 = true ∧ (⟨0x3000, 1⟩ : AddrRange) ∈ fussy.busErrors ∧
    0x2FFF < 0x3000 + 1 ∧ 0x3000 < 0x2FFF + 4 := by decide

theorem witness_PcBeyond : 2 ^ 32 ≤ (0xFFFFFFFF : Word).toNat + 1 ∧ 2 ^ 32 ≤ (0xFFFFFFFE : Word).toNat + 2 ∧
    2 ^ 32 ≤ (0xFFFFFFFA : Word).toNat + 6 ∧ 2 ^ 32 + 1 ≤ (0xFFFFFFFF : Word).toNat + 2 ∧
    ((onChan { bare with pc := 0xFFFFFFFF, lc0 := some 1 } []).chan 0).lc0 = some 1 := by decide

theorem witness_Overwrite : 0 < ({ loaded 0x00014005 with progBase := 0x2003, progLen := 1 } : Chan).progLen ∧
    0x2000 < ({ loaded 0x00014005 with progBase := 0x2003, progLen := 1 } : Chan).progBase + 1 ∧
    ({ loaded 0x00014005 with progBase := 0x2003, progLen := 1 } : Chan).progBase <
      0x2000 + 2 ^ ((0x00014005 : Word).extractLsb' 15 3).toNat := by decide

/-- The frames' premise: each instruction completes somewhere. -/
theorem witness_Frames : ([Instr.dmarmb, .dmawmb, .dmaend, .dmalp .lc0 1, .dmasev 0, .dmamov .sar 0, .dmald].all fun i =>
      (chanOf (exec i (onChan small fourBytes))).isSome) = true ∧
    (chanOf (exec .dmast (onChan (loaded 0x00014005) []))).isSome = true ∧
    (chanOf (exec (.dmalpend .lc0 2) (onChan { bare with lc0 := some 0 } []))).isSome = true ∧
    (chanOf (exec (.dmago true 7 0x8000) triggered)).isSome = true := by decide

/-- Channel 0 about to run `bytes` at `pc`. -/
def fetchingAt (pc : Word) (bytes : List Byte) : State :=
  { onChan { bare with pc := pc } (Memory.writeBytes [] pc.toNat bytes) with cur := .manager, sched := [.thread (.channel 0)] }

def fetching (bytes : List Byte) : State := fetchingAt 0x1000 bytes

theorem witness_StepFetched : (fetching [0x12]).params.opc.legal ∧ (fetching [0x12]).sched = [.thread (.channel 0)] ∧
    ((fetching [0x12]).chan 0).status = .executing ∧ (fetching [0x12]).debugFor 0 = false ∧
    Memory.readBytes (fetching [0x12]).mem 0x1000 1 = encode Opc.spec .dmarmb ∧
    Memory.readBytes (fetching (encode Opc.spec (.dmamov .dar 5))).mem 0x1000 6 = encode Opc.spec (.dmamov .dar 5) := by decide
theorem witness_StepFetched_access : (fetching []).params.access .fetch 0x1000 1 = .ok () ∧
    (fetching []).params.access .fetch (0x1000 + 1) 5 = .ok () := ⟨okAt (by decide) rfl rfl, okAt (by decide) rfl rfl⟩

/-- What the step's fetch of `bytes` at `pc` on a platform comes to. -/
def fetchFault (p : Params) (pc : Word) (bytes : List Byte) : Option Fault :=
  match step { fetchingAt pc bytes with params := p } with
  | .next t => match (t.chan 0).status with
    | .faulted r => some r
    | _ => none
  | _ => none

/-- StepFaultsOnAFailedFetch, clause by clause, with the reasons R212, R213 and R246 give. -/
theorem witness_FailedFetch : [fetchFault Params.spec 0x1000 [0x3A], fetchFault Params.spec 0x1000 [0x34, 1],
    fetchFault Params.spec 0x1000 [0xBC, 3, 0, 0, 0, 0], fetchFault Params.spec 0x1000 [0xA0, 8, 0, 0, 0, 0],
    fetchFault fussy 0x1003 [0x12], fetchFault Params.spec 0xFFFFFFFB [0xBC, 2, 0, 0, 0], fetchFault fussy 0x1002 [0x34, 8],
    fetchFault fussy 0x3000 [0x12], fetchFault fussy 0x2FFC [0xBC, 2, 0, 0, 0, 0]] =
    [some .undecodable, some .undecodable, some .undecodable, some .undecodable, some .addressError, some .addressError,
      some .addressError, some .controllerFault, some .controllerFault] := by decide

theorem witness_Waits : { State.reset with sched := [.thread (.channel 3)] }.sched = [.thread (.channel 3)] ∧
    ({ State.reset with sched := [.thread (.channel 3)] }.chan 3).status ≠ .executing ∧
    { State.reset with sched := [.thread (.channel 3)] }.debugFor 3 = false := by decide

/-- StepKeepsTheInvariant: a channel about to run a barrier from memory. -/
theorem witness_Invariant : (fetching [0x12]).Inv where
  mem_wf := rfl
  mem_in_space := by decide
  dirty_rising := by decide
  stored_rising := by decide
  chan_inv := fun c => ⟨by revert c; decide, by revert c; decide, by revert c; decide⟩
  absent_stopped := by decide

theorem witness_Step : (chanOf (step (fetching [0x12]))).map Chan.pc = some 0x1001 := by decide

/-- A Faulted channel, and an external controller reset as the next step. -/
def faulted : State := (hostState .resetController []).setChan 5 { Chan.reset with status := .faulted .pcRange }

theorem witness_FaultsStay : faulted.FaultedFor (.thread (.channel 5)) .pcRange ∧ (∃ t, step faulted = .next t) :=
  ⟨rfl, _, rfl⟩

theorem witness_GoStarts : (match step triggered with
    | .next t => decide ((triggered.chan 7).status ≠ .executing ∧ (t.chan 7).status = .executing)
    | _ => false) = true := by decide

/-- OnlyEndStopsAChannel: by a fetched DMAEND, by an injected one, by an external reset. -/
theorem witness_EndStops : ([fetching [0x00],
      { fetching [0x12] with dbgBusy := true, dbginst0 := 0x00000001 },
      { fetching [0x12] with sched := [.host 0], hosts := [{ HostCtx.reset with ops := [.resetController] }] }].all fun s =>
    match step s with
    | .next t => decide ((s.chan 0).status = .executing ∧ (t.chan 0).status = .stopped)
    | _ => false) = true := by decide

/-- OnlyStoresAndHostWritesChangeMemory: a host write, the next instruction of an emission, a beat of a DMAST. -/
theorem witness_MemoryChanges : ([(hostState (.hostWrite 0x10 7) [], 0x10),
      ((hostState (.encode ⟨0x10, 1, by decide⟩ 0 .ld) []).hostStep 0, 0x10),
      ({ onChan (loaded 0x00014005) [(0x1000, 0x08)] with sched := [.thread (.channel 0)] }, 0x2003)].all fun (s, a) =>
    match step s with
    | .next t => decide (Memory.read s.mem a = 0 ∧ Memory.read t.mem a ≠ 0)
    | _ => false) = true := by decide

end Sys2Proof.Tests
end

/-! PROOFS. The register window outside a Submit, and the thread that runs an injected instruction. -/
namespace Sys2Proof.Machine

/-! ## The start of a host operation -/

theorem aboutTo_lt_length {s : State} {i : Nat} {op : HostOp} (h : s.aboutTo i op) : i < s.hosts.length := by
  obtain ⟨h, ops, hh, -⟩ := h
  exact (List.getElem?_eq_some_iff.1 hh).1

/-- A context that is about to start an operation starts it: the operation leaves its list and the last result goes. -/
theorem hostStep_of_aboutTo {s : State} {i : Nat} {op : HostOp} (h : s.aboutTo i op) :
    ∃ ops, s.hostStep i = (s.modifyHost i fun h => { h with ops := ops, result := none }).startOp i op := by
  obtain ⟨h, ops, hh, hf, hj, ho⟩ := h
  exact ⟨ops, by simp [State.hostStep, hh, hf, hj, ho]⟩

theorem returned_finish {s : State} {i : Nat} (r : OpResult) (h : i < s.hosts.length) :
    (s.finish i r).returned i = some r := by
  simp [State.returned, State.finish, h]

theorem startOp_writeInten (s : State) (i : Nat) (v : Word) (h : s.params.regs.legal) :
    s.startOp i (.writeInten v) =
      ({ s with inten := v, trace := s.trace ++ [.write s.params.regs.inten v] } : State).finish i (.ok 0) := by
  simp [State.startOp, State.intenWrite, regWrite_inten s v h]

theorem startOp_readInten (s : State) (i : Nat) (h : s.params.regs.legal) :
    s.startOp i .readInten =
      ({ s with trace := s.trace ++ [.read s.params.regs.inten s.inten] } : State).finish i (.ok s.inten.toNat) := by
  simp [State.startOp, State.intenRead, regRead_inten s h]

theorem startOp_clearIrq (s : State) (i n : Nat) :
    s.startOp i (.clearIrq n) = ({ s with irq := clearIrqLine s.irq n } : State).finish i (.ok 0) := rfl

/-! ## Bits of DBGSTATUS and of the interrupt outputs -/

/-- The busy bit stands while an injected instruction executes, whatever the draw (R36, R189). -/
theorem isBusy_dbgStatusValue {m : RegMap} (draw : Word) (h : m.busyBit < 32) :
    isBusy m (dbgStatusValue m true draw) = true := by
  simp [isBusy, dbgStatusValue, h]

theorem getLsbD_clearIrqLine (irq : Word) (n : Nat) {k : Nat} (hk : k < 32) :
    (clearIrqLine irq n).getLsbD k = (irq.getLsbD k && decide (k ≠ n)) := by
  by_cases hkn : k = n
  · simp [clearIrqLine, hkn, hkn ▸ hk]
  · have hother : k < n ∨ k - n ≠ 0 := by omega
    rcases hother with h | h <;> simp [clearIrqLine, hk, hkn, h]

/-- Settles O25, clause by clause from the lemma that says what each access answers. -/
theorem windowAccesses : Obligations.WindowAccesses := by
  intro s hregs
  have hlegal : s.params.regs.legal := hregs ▸ RegMap.spec_legal
  refine ⟨fun v t hread => ?_, fun i v h => ?_, fun i h => ?_, fun i n h => ?_⟩
  · have hstatus := regRead_dbgstatus s
    rw [hregs, draw_frame] at hstatus
    obtain ⟨rfl, rfl⟩ := Prod.mk.inj (Except.ok.inj (hread.symm.trans hstatus))
    exact ⟨fun hb => hb ▸ isBusy_dbgStatusValue (m := RegMap.spec) s.draw.1 (by decide), rfl, rfl, rfl, rfl, rfl, rfl, rfl⟩
  · obtain ⟨ops, hstep⟩ := hostStep_of_aboutTo h
    rw [hstep, startOp_writeInten]
    · exact ⟨returned_finish _ (by simpa using aboutTo_lt_length h), rfl, by simp [hregs, RegMap.spec], rfl, rfl, rfl⟩
    · exact hlegal
  · obtain ⟨ops, hstep⟩ := hostStep_of_aboutTo h
    rw [hstep, startOp_readInten]
    · exact ⟨returned_finish _ (by simpa using aboutTo_lt_length h), rfl, by simp [hregs, RegMap.spec]⟩
    · exact hlegal
  · obtain ⟨ops, hstep⟩ := hostStep_of_aboutTo h
    rw [hstep, startOp_clearIrq]
    exact ⟨returned_finish _ (by simpa using aboutTo_lt_length h), fun k hk => getLsbD_clearIrqLine s.irq n hk⟩

/-! ## The thread that runs an injected instruction -/

/-- The agent that the schedule names makes the step. -/
theorem step_of_sched {s : State} {a : Agent} {rest : List Agent} (h : s.sched = a :: rest) :
    step s = ({ s with sched := rest } : State).agentStep a := by
  simp [step_eq_agentStep, State.mover, h]

/-- exec's answer as the step of thread `t` on an injected instruction: the busy bit ends with the instruction (R189), and a
fault stops the thread (R245). -/
def State.settleInjected (s : State) (t : Thread) : Out → Out
  | .next s' => .next { s' with dbgBusy := false }
  | .fault r => .next (s.raiseFault (.thread t) r)
  | .refused r => .refused r

theorem runInjected_of_injected {s : State} {i : Instr} (t : Thread) (h : s.injected = .ok i) :
    s.runInjected t = ({ s with cur := t } : State).settleInjected t (exec i { s with cur := t }) := by
  unfold State.runInjected
  simp only [injected_withCur, h]
  cases exec i { s with cur := t } <;> rfl

theorem injected_of_decode {s : State} {i : Instr} {more : List Byte}
    (h : decode s.params.opc s.injectedBytes = .ok (i, more)) : s.injected = .ok i := by
  simp [State.injected, decodeOrFault, h]

theorem debugChannel_of_manager {s : State} (h : s.dbginst0.getLsbD s.params.regs.threadBit = false) :
    s.debugChannel = none := by
  simp [State.debugChannel, h]

theorem debugChannel_of_channel {s : State} (h : s.dbginst0.getLsbD s.params.regs.threadBit = true) :
    s.debugChannel = some (s.params.regs.channel.get s.dbginst0) := by
  simp [State.debugChannel, h]

/-- An injected instruction of the manager runs on the manager. -/
theorem managerStep_of_injected {s : State} {i : Instr} (hbusy : s.dbgBusy = true) (hfault : s.mgrFault = none)
    (hsel : s.debugChannel = none) (hi : s.injected = .ok i) :
    s.managerStep = ({ s with cur := .manager } : State).settleInjected .manager (exec i { s with cur := .manager }) := by
  rw [← runInjected_of_injected .manager hi]
  simp [State.managerStep, State.debugForManager, hbusy, hfault, hsel]

theorem isFaulted_eq_false {ch : Chan} (h : ∀ r, ch.status ≠ .faulted r) : ch.isFaulted = false := by
  unfold Chan.isFaulted
  split
  · next r hr => exact absurd hr (h r)
  · rfl

/-- An injected instruction of a channel thread that is not Faulted runs on that thread. -/
theorem channelStep_of_injected {s : State} {c : Fin 8} {i : Instr} (hbusy : s.dbgBusy = true)
    (hsel : s.debugChannel = some c.val) (hc : c.val < s.params.nChannels) (hf : ∀ r, (s.chan c).status ≠ .faulted r)
    (hi : s.injected = .ok i) :
    s.channelStep c =
      ({ s with cur := .channel c } : State).settleInjected (.channel c) (exec i { s with cur := .channel c }) := by
  have hdebug : s.debugFor c = true := by simp [State.debugFor, hbusy, hsel, hc, isFaulted_eq_false hf]
  rw [← runInjected_of_injected (.channel c) hi]
  simp [State.channelStep, hdebug]

/-- Settles O51: the schedule names the thread, bit 0 and bits 10:8 of DBGINST0 select it, and its step is exec. -/
theorem stepRunsTheInjectedInstruction : Obligations.StepRunsTheInjectedInstruction := by
  intro s rest i more hregs hbusy hdecode
  have hi : s.injected = .ok i := injected_of_decode hdecode
  refine ⟨fun hsched hfault hbit => ?_, fun c hsched hbit hsel hc hf => ?_⟩
  · have hmgr : s.debugChannel = none := debugChannel_of_manager (by rw [hregs]; exact hbit)
    rw [step_of_sched hsched]
    exact managerStep_of_injected (s := { s with sched := rest }) hbusy hfault hmgr hi
  · have hchan : s.debugChannel = some c.val := by
      rw [debugChannel_of_channel (by rw [hregs]; exact hbit), hregs]
      exact congrArg some hsel
    rw [step_of_sched hsched]
    exact channelStep_of_injected (s := { s with sched := rest }) hbusy hchan hc hf hi

end Sys2Proof.Machine

/-! PROOFS. The immediate read back, host accesses to memory, and what can change a byte of memory. -/
namespace Sys2Proof.Machine

/-! ## The immediate in bytes 2 to 5 -/

/-- What DMAMOV's encode operation writes when it succeeds. -/
theorem encMov_eq_ok {o : Opc} {rd : Nat} {imm : Word} {bytes : List Byte} (h : encMov o rd imm = .ok bytes) :
    bytes = [o.mov, o.movSelector rd] ++ bytesLe32 imm := by
  obtain ⟨-, -, h⟩ := except_bind_ok h
  exact (Except.ok.inj h).symm

/-- What DMAGO's encode operation writes when it succeeds. -/
theorem encGo_eq_ok {o : Opc} {ns chan : Nat} {addr : Word} {bytes : List Byte} (h : encGo o ns chan addr = .ok bytes) :
    bytes = [o.go ||| (BitVec.ofNat 8 ns <<< o.goNs), BitVec.ofNat 8 chan] ++ bytesLe32 addr := by
  obtain ⟨-, -, h⟩ := except_bind_ok h
  obtain ⟨-, -, h⟩ := except_bind_ok h
  exact (Except.ok.inj h).symm

/-- Bytes 2 to 5 of an immediate that stands behind two bytes read back as it (R51, R52). -/
theorem le32_getD_of_eq {bytes : List Byte} {b0 b1 : Byte} {v : Word} (h : bytes = [b0, b1] ++ bytesLe32 v) :
    le32 (bytes.getD 2 0) (bytes.getD 3 0) (bytes.getD 4 0) (bytes.getD 5 0) = v := by
  subst h
  exact le32_bytesLe32 v

/-- The bits of a byte put into a field of a register. -/
theorem getLsbD_put_byte (f : BitField) (b : Byte) {k : Nat} (hk : k < 32) :
    (f.put b.toNat).getLsbD k = (decide (f.lo ≤ k) && b.getLsbD (k - f.lo)) := by
  by_cases h : k < f.lo
  · simp [BitField.put, h]
  · simp [BitField.put, hk, h, Nat.not_lt.1 h]

/-- DBGINST1 holds bytes 2 to 5 as their little-endian word (R39, R186). -/
theorem packInst1_spec (b2 b3 b4 b5 : Byte) : RegMap.spec.packInst1 b2 b3 b4 b5 = le32 b2 b3 b4 b5 := by
  apply BitVec.eq_of_getLsbD_eq
  intro k hk
  simp only [RegMap.packInst1, RegMap.spec, le32, BitVec.getLsbD_append, BitVec.getLsbD_or, getLsbD_put_byte _ _ hk]
  have hbyte : k < 8 ∨ (8 ≤ k ∧ k < 16) ∨ (16 ≤ k ∧ k < 24) ∨ 24 ≤ k := by omega
  rcases hbyte with h | h | h | h <;> grind

/-- Settles O9: both operations write the immediate's four bytes behind two others, and DBGINST1 packs them in that order. -/
theorem immediateIsReadBack : Obligations.ImmediateIsReadBack := by
  refine ⟨fun o rd imm bytes h => ?_, fun o ns chan addr bytes h => ?_⟩
  · exact le32_getD_of_eq (encMov_eq_ok h)
  · have hread := le32_getD_of_eq (encGo_eq_ok h)
    exact ⟨hread, (packInst1_spec ..).trans hread⟩

/-! ## Host accesses -/

/-- A host write that no flight bars lands. -/
theorem hostStore_ok {s : State} {a : Nat} (v : Byte) (h : s.hostWriteBarred a = false) :
    s.hostStore a v = .ok { s with
      mem := Memory.write s.mem a v
      dirty := setInsert a s.dirty
      stored := setInsert a s.stored } := by
  simp [State.hostStore, h]

theorem startOp_hostWrite {s : State} (i : Nat) {a : Word} (v : Byte) (h : s.hostWriteBarred a.toNat = false) :
    s.startOp i (.hostWrite a v) = ({ s with
      mem := Memory.write s.mem a.toNat v
      dirty := setInsert a.toNat s.dirty
      stored := setInsert a.toNat s.stored } : State).finish i (.ok 0) := by
  simp [State.startOp, State.writeByte, hostStore_ok v h]

theorem startOp_hostRead {s : State} (i : Nat) {a : Word} (h : s.hostReadBarred a.toNat = false) :
    s.startOp i (.hostRead a) = s.finish i (.ok (Memory.read s.mem a.toNat).toNat) := by
  simp [State.startOp, State.readByte, h]

theorem startOp_makeVisible (s : State) (i : Nat) (r : AddrRange) :
    s.startOp i (.makeVisible r) = ({ s with dirty := s.dirty.filter fun a => !r.has a } : State).finish i (.ok 0) := rfl

/-- Settles O29, one clause per operation from the equation that says what it does. -/
theorem hostAccessesAndVisibility : Obligations.HostAccessesAndVisibility := by
  intro s i hwf
  refine ⟨fun a v h hfree => ?_, fun a h hfree => ?_, fun r h => ?_⟩
  · obtain ⟨ops, hstep⟩ := hostStep_of_aboutTo h
    rw [hstep, startOp_hostWrite]
    · exact ⟨returned_finish _ (by simpa using aboutTo_lt_length h), mem_setInsert.2 (.inl rfl), fun x => mem_setInsert,
        fun x => Memory.read_write hwf _ x v⟩
    · exact hfree
  · obtain ⟨ops, hstep⟩ := hostStep_of_aboutTo h
    rw [hstep, startOp_hostRead]
    · exact ⟨returned_finish _ (by simpa using aboutTo_lt_length h), rfl⟩
    · exact hfree
  · obtain ⟨ops, hstep⟩ := hostStep_of_aboutTo h
    rw [hstep, startOp_makeVisible]
    exact ⟨returned_finish _ (by simpa using aboutTo_lt_length h), rfl, rfl, fun a =>
      List.mem_filter.trans (and_congr_right' (by rw [Bool.not_eq_true', AddrRange.has, decide_eq_false_iff_not]))⟩

/-! ## What can change a byte of memory -/

/-- Address `x` lies in a beat of a burst from `base` on. -/
def Burst.covers (b : Burst) (base x : Nat) : Prop :=
  ∃ j, j < b.beats ∧ beatAddr b.inc base b.width j ≤ x ∧ x < beatAddr b.inc base b.width j + b.width

/-- Beat `j` behind the first beat is beat `j + 1` of the burst. -/
theorem beatAddr_next (inc : Bool) (base width j : Nat) :
    beatAddr inc (if inc then base + width else base) width j = beatAddr inc base width (j + 1) := by
  cases inc
  · rfl
  · simp [beatAddr, Nat.succ_mul]; omega

/-- A byte that a store changes lies in one of its beats. -/
theorem storeBeats_changes {p : Params} {own : AddrRange} {b : Burst} {k base x : Nat} {bytes : List Byte}
    {m m' : Memory} (h : p.storeBeats own b k base bytes m = .ok m') (hm : Memory.wf m = true)
    (hx : Memory.read m' x ≠ Memory.read m x) :
    ∃ j, j < k ∧ beatAddr b.inc base b.width j ≤ x ∧ x < beatAddr b.inc base b.width j + b.width := by
  induction k generalizing base bytes m with
  | zero =>
    obtain rfl : m = m' := by simpa [Params.storeBeats] using h
    exact absurd rfl hx
  | succ k ih =>
    simp only [Params.storeBeats] at h
    obtain ⟨-, -, h⟩ := except_bind_ok h
    split at h
    · simp at h
    · by_cases hbeat : base ≤ x ∧ x < base + b.width
      · exact ⟨0, by omega, by simpa [beatAddr] using hbeat⟩
      · have hout : Memory.read (Memory.writeBytes m base (bytes.take b.width)) x = Memory.read m x :=
          Memory.read_writeBytes_outside hm (by simp; omega)
        obtain ⟨j, hj, hin⟩ := ih h (Memory.wf_writeBytes hm _ _) (hout ▸ hx)
        exact ⟨j + 1, by omega, by rwa [← beatAddr_next]⟩

/-- A byte that a DMAST changes lies in a beat of its burst, by DAR and CCR. -/
theorem store_changes {s t : State} {c : Fin 8} {x : Nat} (h : s.store c = .ok t) (hm : Memory.wf s.mem = true)
    (hx : Memory.read t.mem x ≠ Memory.read s.mem x) :
    ∃ ccr dar, (s.chan c).ccr = some ccr ∧ (s.chan c).dar = some dar ∧
      (dstBurst s.params.ccrLayout ccr).covers dar.toNat x := by
  unfold State.store at h
  obtain ⟨ccr, hccr, h⟩ := except_bind_ok h
  simp only at h
  split at h
  · simp at h
  · obtain ⟨dar, hdar, h⟩ := except_bind_ok h
    obtain ⟨mem, hmem, h⟩ := except_bind_ok h
    obtain ⟨pc, -, h⟩ := except_bind_ok h
    obtain rfl := Except.ok.inj h
    exact ⟨ccr, dar, written_eq_ok.1 hccr, written_eq_ok.1 hdar, storeBeats_changes hmem hm hx⟩

theorem onChannel_keeps_mem {s t : State} {f : Fin 8 → Except Fault State} (h : s.onChannel f = .next t)
    (hf : ∀ c u, f c = .ok u → u.mem = s.mem) : t.mem = s.mem := by
  obtain ⟨c, -, hc⟩ := onChannel_next h
  exact hf c t hc

/-- An instruction other than DMAST leaves memory as it was. -/
theorem exec_keeps_mem {i : Instr} {s t : State} (h : exec i s = .next t) (hi : i ≠ .dmast) : t.mem = s.mem := by
  cases i with
  | dmast => exact absurd rfl hi
  | dmalpends lc bjump => simp [exec, execDmalpends] at h
  | dmalpendb lc bjump => simp [exec, execDmalpendb] at h
  | dmago ns chan addr =>
    obtain ⟨-, c, -, -, -, rfl⟩ := exec_dmago_next h
    rfl
  | dmaend =>
    refine onChannel_keeps_mem h fun c u hu => ?_
    split at hu
    · obtain rfl := Except.ok.inj hu; rfl
    · simp at hu
  | dmald =>
    refine onChannel_keeps_mem h fun c u hu => ?_
    obtain ⟨ccr, -, hu⟩ := except_bind_ok hu
    obtain ⟨sar, -, hu⟩ := except_bind_ok hu
    obtain ⟨bytes, -, hu⟩ := except_bind_ok hu
    obtain ⟨pc, -, hu⟩ := except_bind_ok hu
    obtain rfl := Except.ok.inj hu; rfl
  | dmalpend lc bjump =>
    refine onChannel_keeps_mem h fun c u hu => ?_
    obtain ⟨count, -, hu⟩ := except_bind_ok hu
    split at hu
    all_goals
      obtain ⟨pc, -, hu⟩ := except_bind_ok hu
      obtain rfl := Except.ok.inj hu; rfl
  | dmarmb | dmawmb | dmalp | dmasev | dmamov =>
    refine onChannel_keeps_mem h fun c u hu => ?_
    obtain ⟨pc, -, hu⟩ := except_bind_ok hu
    obtain rfl := Except.ok.inj hu; rfl

/-- A byte that an instruction changes: the instruction is DMAST, and the byte lies in a beat of its burst. -/
theorem exec_changes {i : Instr} {s t : State} {c : Fin 8} {x : Nat} (h : exec i s = .next t) (hcur : s.cur = .channel c)
    (hm : Memory.wf s.mem = true) (hx : Memory.read t.mem x ≠ Memory.read s.mem x) :
    i = .dmast ∧ ∃ ccr dar, (s.chan c).ccr = some ccr ∧ (s.chan c).dar = some dar ∧
      (dstBurst s.params.ccrLayout ccr).covers dar.toNat x := by
  by_cases hi : i = .dmast
  · subst hi
    obtain ⟨d, hd, hstore⟩ := onChannel_next (f := s.store) h
    obtain rfl : c = d := by simpa [hcur] using hd
    exact ⟨rfl, store_changes hstore hm hx⟩
  · exact absurd (by rw [exec_keeps_mem h hi]) hx

/-- A byte that a buffer write changes lies in what it writes and inside the capacity. -/
theorem bufWrite_changes {s : State} {buf : Buffer} {o x : Nat} {bs : List Byte} (hm : Memory.wf s.mem = true)
    (hx : Memory.read (s.bufWrite buf o bs).1.mem x ≠ Memory.read s.mem x) :
    buf.base + o ≤ x ∧ x < buf.base + o + bs.length ∧ x < buf.base + buf.cap := by
  induction bs generalizing s o with
  | nil => exact absurd rfl hx
  | cons b bs ih =>
    simp only [State.bufWrite] at hx
    split at hx
    · exact absurd rfl hx
    · next hcap =>
      split at hx
      · exact absurd rfl hx
      · next t ht =>
        obtain ⟨-, hstored⟩ := hostStore_eq_ok ht
        have hmem : t.mem = Memory.write s.mem (buf.base + o) b := by rw [hstored]
        simp only [List.length_cons]
        by_cases hfirst : x = buf.base + o
        · omega
        · have hkept : Memory.read (Memory.write s.mem (buf.base + o) b) x = Memory.read s.mem x := by
            simp [Memory.read_write hm, hfirst]
          have := ih (hmem ▸ Memory.wf_write hm _ b) (by rwa [hmem, hkept])
          omega

/-- A byte that a step of an emission changes lies in the next instruction's bytes, inside the capacity. -/
theorem emitStep_changes {s : State} {i x : Nat} {j : EmitJob} (hm : Memory.wf s.mem = true)
    (hx : Memory.read (s.emitStep i j).mem x ≠ Memory.read s.mem x) :
    ∃ item rest e bytes, j.todo = item :: rest ∧ j.cursor.callOf s.params.bjumpOrigin item = some e ∧
      encBytes s.params.opc e = .ok bytes ∧ j.buf.base + j.off ≤ x ∧ x < j.buf.base + j.off + bytes.length ∧
      x < j.buf.base + j.buf.cap := by
  unfold State.emitStep at hx
  split at hx
  · exact absurd rfl hx
  · next item rest htodo =>
    split at hx
    · exact absurd rfl hx
    · split at hx
      · exact absurd rfl hx
      · next e he =>
        split at hx
        · exact absurd rfl hx
        · next bytes hbytes =>
          obtain ⟨-, -, hover⟩ := overwrite_frame i s j
          refine ⟨item, rest, e, bytes, htodo, he, hbytes, bufWrite_changes (s := s.overwrite j) (hover ▸ hm) ?_⟩
          rw [hover]
          split at hx <;> next hw => rw [hw]; exact hx

/-- The start of an operation changes a byte as the byte of a host write only. -/
theorem startOp_changes {s : State} {i x : Nat} {op : HostOp} (hm : Memory.wf s.mem = true)
    (hx : Memory.read (s.startOp i op).mem x ≠ Memory.read s.mem x) :
    ∃ a v, op = .hostWrite a v ∧ a.toNat = x ∧ Memory.read (s.startOp i op).mem x = v := by
  by_cases hreset : op = .resetController
  · subst hreset
    exact absurd rfl hx
  · by_cases hwrite : ∃ a v, op = .hostWrite a v
    · obtain ⟨a, v, rfl⟩ := hwrite
      cases hbar : s.hostWriteBarred a.toNat with
      | true => exact absurd (by simp [State.startOp, State.writeByte, State.hostStore, hbar]) hx
      | false =>
        rw [startOp_hostWrite i v hbar] at hx ⊢
        simp only [mem_finish, Memory.read_write hm] at hx ⊢
        by_cases ha : x = a.toNat
        · exact ⟨a, v, rfl, ha.symm, if_pos ha⟩
        · exact absurd (if_neg ha) hx
    · obtain ⟨-, -, hkept⟩ := startOp_frame s i op hreset
      exact absurd (by rw [hkept fun a v h => hwrite ⟨a, v, h⟩]) hx

/-- A byte that a step of a host context changes: the next instruction of its emission, or its host write. -/
theorem hostStep_changes {s : State} {i x : Nat} (hm : Memory.wf s.mem = true)
    (hx : Memory.read (s.hostStep i).mem x ≠ Memory.read s.mem x) :
    (∃ h j item rest e bytes, s.hosts[i]? = some h ∧ h.fault = none ∧ h.job = .emit j ∧ j.todo = item :: rest ∧
      j.cursor.callOf s.params.bjumpOrigin item = some e ∧ encBytes s.params.opc e = .ok bytes ∧
      j.buf.base + j.off ≤ x ∧ x < j.buf.base + j.off + bytes.length ∧ x < j.buf.base + j.buf.cap) ∨
    ∃ a v, s.aboutTo i (.hostWrite a v) ∧ a.toNat = x ∧ Memory.read (s.hostStep i).mem x = v := by
  rcases hostStep_cases s i with heq | ⟨h, hh, hf, ⟨j, hj, heq⟩ | ⟨j, -, heq⟩ | ⟨op, ops, hj, hops, heq⟩⟩ <;>
    rw [heq] at hx ⊢
  · exact absurd rfl hx
  · obtain ⟨item, rest, e, bytes, hchange⟩ := emitStep_changes hm hx
    exact .inl ⟨h, j, item, rest, e, bytes, hh, hf, hj, hchange⟩
  · exact absurd (by rw [(submitStep_frame s i j).2.1]) hx
  · obtain ⟨a, v, rfl, ha, hv⟩ := startOp_changes (by exact hm) hx
    exact .inr ⟨a, v, ⟨h, ops, hh, hf, hj, hops⟩, ha, hv⟩

/-- The manager changes no byte: it executes DMAGO only. -/
theorem managerStep_keeps_mem {s t : State} (h : s.managerStep = .next t) : t.mem = s.mem := by
  rcases managerStep_next h with rfl | ⟨-, -, ⟨-, i, u, -, hexec, rfl⟩ | ⟨th, r, rfl⟩⟩
  · rfl
  · obtain ⟨c, hc⟩ | ⟨-, ns, chan, addr, rfl⟩ := exec_next_cur hexec
    · cases hc
    · exact (exec_keeps_mem hexec nofun :)
  · rfl

/-- A byte that a channel's step changes: the channel completes a DMAST, fetched or injected, with the byte in a beat. -/
theorem channelStep_changes {s t : State} {c : Fin 8} {x : Nat} (h : s.channelStep c = .next t)
    (hm : Memory.wf s.mem = true) (hx : Memory.read t.mem x ≠ Memory.read s.mem x) :
    (((s.chan c).status = .executing ∧ s.fetch (s.chan c).pc = .ok .dmast) ∨
      (s.debugFor c = true ∧ s.injected = .ok .dmast)) ∧
    ∃ ccr dar, (s.chan c).ccr = some ccr ∧ (s.chan c).dar = some dar ∧
      (dstBurst s.params.ccrLayout ccr).covers dar.toNat x := by
  rcases channelStep_next h with ⟨-, -, rfl⟩ | ⟨-, hrun, i, hfetch, hexec⟩ | ⟨hdebug, i, u, hinj, hexec, rfl⟩ | ⟨-, r, rfl⟩
  · exact absurd rfl hx
  · obtain ⟨rfl, hbeat⟩ := exec_changes hexec rfl hm hx
    exact ⟨.inl ⟨hrun, hfetch⟩, hbeat⟩
  · obtain ⟨rfl, hbeat⟩ := exec_changes hexec rfl hm hx
    exact ⟨.inr ⟨hdebug, hinj⟩, hbeat⟩
  · exact absurd rfl hx

/-- Settles O59, by the agent that makes the step: what each can change is said above. -/
theorem onlyStoresAndHostWritesChangeMemory : Obligations.OnlyStoresAndHostWritesChangeMemory := by
  intro s t a hinv h hx
  have hm := hinv.mem_wf
  rw [step_eq_agentStep] at h
  cases hmover : s.mover with
  | host i =>
    rw [hmover] at h
    obtain rfl : ({ s with sched := s.sched.tail } : State).hostStep i = t := by simpa [State.agentStep] using h
    rcases hostStep_changes (s := { s with sched := s.sched.tail }) hm hx with
      ⟨h, j, item, rest, e, bytes, hchange⟩ | ⟨w, v, hchange⟩
    · exact .inr (.inl ⟨i, h, j, item, rest, e, bytes, rfl, hchange⟩)
    · exact .inr (.inr ⟨i, w, v, rfl, hchange⟩)
  | thread th =>
    rw [hmover] at h
    cases th with
    | manager => exact absurd (by rw [managerStep_keeps_mem h]) hx
    | channel c =>
      obtain ⟨hinstr, ccr, dar, hccr, hdar, hbeat⟩ :=
        channelStep_changes (s := { s with sched := s.sched.tail }) h hm hx
      exact .inl ⟨c, ccr, dar, rfl, hinstr, hccr, hdar, hbeat⟩

end Sys2Proof.Machine

/-! PROOFS. Decoding and encoding of instruction bytes: byte 0 tells the format, the operand bytes behind it say the rest. -/
namespace Sys2Proof

/-! ## The formats -/

theorem Head.len_cases (h : Head) : h.len = 1 ∨ h.len = 2 ∨ h.len = 6 := by
  cases h <;> simp [Head.len]

/-- What the bytes behind byte 0 say, whichever the format; `decode_append` ties it to `decode`. -/
def Opc.decodeOperands (o : Opc) (h : Head) : List Byte → Option Instr
  | [] => decodeB1 h
  | [b1] => decodeB2 h b1
  | [b1, i0, i1, i2, i3] => o.decodeB6 h b1 (le32 i0 i1 i2 i3)
  | _ => none

/-- A byte 0 that no head has says nothing (R78). -/
theorem decode_of_headOf_none {o : Opc} {b0 : Byte} (bytes : List Byte) (hh : o.headOf b0 = none) :
    decode o (b0 :: bytes) = .error (.undecodable b0) := by
  simp [decode, hh]

/-- With the bytes of its format there, decoding is what the operand bytes say (R70, R76, R77). -/
theorem decode_append {o : Opc} {b0 : Byte} {h : Head} {ops : List Byte} (rest : List Byte)
    (hh : o.headOf b0 = some h) (hlen : ops.length + 1 = h.len) :
    decode o (b0 :: (ops ++ rest)) = decoded b0 (o.decodeOperands h ops) rest := by
  rcases h.len_cases with hl | hl | hl
  · obtain rfl := List.length_eq_zero_iff.1 (show ops.length = 0 by omega)
    simp [decode, hh, hl, Opc.decodeOperands]
  · obtain ⟨b1, rfl⟩ := List.length_eq_one_iff.1 (show ops.length = 1 by omega)
    simp [decode, hh, hl, Opc.decodeOperands]
  · match ops, (show ops.length = 5 by omega) with
    | [_, _, _, _, _], _ => simp [decode, hh, hl, Opc.decodeOperands]

/-- With fewer, decoding lacks bytes. -/
theorem decode_of_short {o : Opc} {b0 : Byte} {h : Head} {bytes : List Byte} (hh : o.headOf b0 = some h)
    (hlen : bytes.length + 1 < h.len) : decode o (b0 :: bytes) = .error .truncated := by
  rcases h.len_cases with hl | hl | hl
  · omega
  · obtain rfl := List.length_eq_zero_iff.1 (show bytes.length = 0 by omega)
    simp [decode, hh, hl]
  · match bytes, (show bytes.length < 5 by omega) with
    | [], _ | [_], _ | [_, _], _ | [_, _, _], _ | [_, _, _, _], _ => simp [decode, hh, hl]

/-- Bytes that are not too few for a format are its operand bytes and what stands behind them. -/
theorem Head.exists_operands {h : Head} {bytes : List Byte} (hlen : ¬ bytes.length + 1 < h.len) :
    ∃ ops rest, bytes = ops ++ rest ∧ ops.length + 1 = h.len := by
  have hpos : 0 < h.len := by have := h.len_cases; omega
  refine ⟨bytes.take (h.len - 1), bytes.drop (h.len - 1), (List.take_append_drop ..).symm, ?_⟩
  rw [List.length_take]
  omega

theorem decoded_eq_ok {b0 : Byte} {x : Option Instr} {bytes rest : List Byte} {i : Instr} :
    decoded b0 x bytes = .ok (i, rest) ↔ x = some i ∧ bytes = rest := by
  cases x <;> simp [decoded]

theorem decoded_ne_truncated (b0 : Byte) (x : Option Instr) (bytes : List Byte) :
    decoded b0 x bytes ≠ .error .truncated := by
  cases x <;> simp [decoded]

/-! ## Fields of byte 1 and the immediate -/

/-- Byte 1 of DMASEV: the event in bits 7:3, reserved bits below (R71). -/
theorem and_low_eq_zero_iff (b : Byte) : b &&& 0x07 = 0 ↔ b.toNat % 8 = 0 := by
  rw [← BitVec.toNat_inj, BitVec.toNat_and]
  exact iff_of_eq (congrArg (· = 0) (Nat.and_two_pow_sub_one_eq_mod b.toNat 3))

/-- Byte 1 of DMAGO: the channel in bits 2:0, reserved bits above (R71). -/
theorem and_high_eq_zero_iff (b : Byte) : b &&& 0xF8 = 0 ↔ b.toNat < 8 := by
  revert b; decide

theorem bytesLe32_le32 (i0 i1 i2 i3 : Byte) : bytesLe32 (le32 i0 i1 i2 i3) = [i0, i1, i2, i3] := by
  simp only [bytesLe32, le32, List.cons.injEq, and_true]
  refine ⟨?_, ?_, ?_, ?_⟩ <;> ext k hk <;>
    simp only [BitVec.getElem_extractLsb', BitVec.getLsbD_append] <;> grind

/-! ## Operand bytes: there and back -/

/-- The operand bytes of a well-formed instruction say that instruction. -/
theorem Opc.decodeOperands_operandBytes {o : Opc} (ho : o.legal) {i : Instr} (hi : i.wf = true) :
    o.decodeOperands i.head (o.operandBytes i) = some i := by
  cases i with
  | dmaend | dmald | dmast | dmarmb | dmawmb => rfl
  | dmalp lc count =>
    have hc : 1 ≤ count ∧ count ≤ 256 := by simpa [Instr.wf] using hi
    have : (count - 1) % 256 + 1 = count := by omega
    simpa [Instr.head, Opc.operandBytes, Opc.decodeOperands, decodeB2]
  | dmasev event =>
    have he : event ≤ 31 := by simpa [Instr.wf] using hi
    have hval : (BitVec.ofNat 8 event <<< 3).toNat = 8 * event := by
      simp [Nat.shiftLeft_eq]; omega
    have hlow : BitVec.ofNat 8 event <<< 3 &&& 0x07 = (0 : Byte) := (and_low_eq_zero_iff _).2 (by omega)
    have hev : (BitVec.ofNat 8 event <<< 3 >>> 3).toNat = event := by
      rw [BitVec.toNat_ushiftRight, hval, Nat.shiftRight_eq_div_pow]; omega
    simp only [Instr.head, Opc.operandBytes, Opc.decodeOperands, decodeB2, if_pos hlow, hev]
  | dmalpend lc bjump | dmalpends lc bjump | dmalpendb lc bjump =>
    have hb : bjump ≤ 255 := by simpa [Instr.wf] using hi
    have : bjump % 256 = bjump := by omega
    simpa [Instr.head, Opc.operandBytes, Opc.decodeOperands, decodeB2, lpendInstr]
  | dmago ns chan addr =>
    have hc : chan ≤ 7 := by simpa [Instr.wf] using hi
    have hval : (BitVec.ofNat 8 chan).toNat = chan := by simp; omega
    have hhigh : BitVec.ofNat 8 chan &&& 0xF8 = 0 := (and_high_eq_zero_iff _).2 (by omega)
    simp only [Instr.head, Opc.operandBytes, bytesLe32, Opc.decodeOperands, Opc.decodeB6, if_pos hhigh, hval,
      le32_bytesLe32]
  | dmamov rd imm =>
    simp only [Instr.head, Opc.operandBytes, bytesLe32, Opc.decodeOperands, Opc.decodeB6, Opc.movRegOf_movCode ho,
      le32_bytesLe32, Option.map_some]

/-- Instruction `i` is well-formed and is encoded by a byte 0 of head `h` and operand bytes `ops`. -/
structure Opc.Encodes (o : Opc) (i : Instr) (h : Head) (ops : List Byte) : Prop where
  wf : i.wf = true
  head : i.head = h
  operands : o.operandBytes i = ops

theorem Opc.encodes_of_decodeB1 (o : Opc) {h : Head} {i : Instr} (hd : decodeB1 h = some i) : o.Encodes i h [] := by
  cases h with
  | fin | ld | st | rmb | wmb => obtain rfl := Option.some.inj hd; exact ⟨rfl, rfl, rfl⟩
  | _ => cases hd

theorem Opc.encodes_of_decodeB2 (o : Opc) {h : Head} {b1 : Byte} {i : Instr} (hd : decodeB2 h b1 = some i) :
    o.Encodes i h [b1] := by
  have hb : b1.toNat < 256 := b1.isLt
  cases h with
  | lp lc =>
    obtain rfl := Option.some.inj hd
    exact ⟨by simp [Instr.wf]; omega, rfl, by simp [Opc.operandBytes]⟩
  | lpend lc q =>
    obtain rfl := Option.some.inj hd
    cases q <;> exact ⟨by simp [lpendInstr, Instr.wf]; omega, rfl, by simp [lpendInstr, Opc.operandBytes]⟩
  | sev =>
    simp only [decodeB2] at hd
    split at hd
    · next hlow =>
      obtain rfl := Option.some.inj hd
      have hmod : b1.toNat % 8 = 0 := (and_low_eq_zero_iff b1).1 hlow
      have hev : (b1 >>> 3).toNat = b1.toNat / 8 := by
        rw [BitVec.toNat_ushiftRight, Nat.shiftRight_eq_div_pow]
      have hback : BitVec.ofNat 8 (b1 >>> 3).toNat <<< 3 = b1 := by
        rw [← BitVec.toNat_inj]; simp [hev, Nat.shiftLeft_eq]; omega
      exact ⟨by simp [Instr.wf, hev]; omega, rfl, by simp only [Opc.operandBytes, hback]⟩
    · cases hd
  | _ => cases hd

theorem Opc.encodes_of_decodeB6 {o : Opc} {h : Head} {b1 i0 i1 i2 i3 : Byte} {i : Instr}
    (hd : o.decodeB6 h b1 (le32 i0 i1 i2 i3) = some i) : o.Encodes i h [b1, i0, i1, i2, i3] := by
  cases h with
  | go ns =>
    simp only [Opc.decodeB6] at hd
    split at hd
    · next hhigh =>
      obtain rfl := Option.some.inj hd
      have hchan : b1.toNat < 8 := (and_high_eq_zero_iff b1).1 hhigh
      exact ⟨by simp [Instr.wf]; omega, rfl, by simp [Opc.operandBytes, bytesLe32_le32]⟩
    · cases hd
  | mov =>
    obtain ⟨rd, hrd, rfl⟩ := Option.map_eq_some_iff.1 hd
    exact ⟨rfl, rfl, by simp [Opc.operandBytes, bytesLe32_le32, Opc.movCode_of_movRegOf hrd]⟩
  | _ => cases hd

/-- Operand bytes that say an instruction are the operand bytes of that instruction. -/
theorem Opc.encodes_of_decodeOperands {o : Opc} {h : Head} {ops : List Byte} {i : Instr}
    (hd : o.decodeOperands h ops = some i) : o.Encodes i h ops := by
  unfold Opc.decodeOperands at hd
  split at hd
  · exact o.encodes_of_decodeB1 hd
  · exact o.encodes_of_decodeB2 hd
  · exact Opc.encodes_of_decodeB6 hd
  · cases hd

/-! ## Decoding and encoding undo each other -/

/-- Settles O1: byte 0 selects the head, and the operand bytes say the instruction. -/
theorem decodeOfEncodeGivesTheInstruction : Obligations.DecodeOfEncodeGivesTheInstruction := by
  intro o i rest ho hi
  calc decode o (encode o i ++ rest)
      = decoded _ (o.decodeOperands i.head (o.operandBytes i)) rest :=
        decode_append rest (Opc.headOf_byte0 ho i.head) (length_encode o i)
    _ = .ok (i, rest) := decoded_eq_ok.2 ⟨Opc.decodeOperands_operandBytes ho hi, rfl⟩

/-- What bytes that decode are: a byte 0 of the instruction's head, its operand bytes, and what is left over. -/
theorem decode_eq_ok {o : Opc} {b0 : Byte} {bytes rest : List Byte} {i : Instr}
    (hd : decode o (b0 :: bytes) = .ok (i, rest)) :
    i.wf = true ∧ o.headOf b0 = some i.head ∧ bytes = o.operandBytes i ++ rest := by
  cases hh : o.headOf b0 with
  | none => simp [decode_of_headOf_none bytes hh] at hd
  | some h =>
    by_cases hlen : bytes.length + 1 < h.len
    · simp [decode_of_short hh hlen] at hd
    · obtain ⟨ops, tail, rfl, hops⟩ := Head.exists_operands hlen
      rw [decode_append tail hh hops, decoded_eq_ok] at hd
      obtain ⟨hsome, rfl⟩ := hd
      obtain ⟨hwf, rfl, rfl⟩ := Opc.encodes_of_decodeOperands hsome
      exact ⟨hwf, rfl, rfl⟩

/-- Settles O2: byte 0 is that of the instruction's head, and the operand bytes are its own. -/
theorem encodeOfDecodeGivesTheBytes : Obligations.EncodeOfDecodeGivesTheBytes := by
  intro o bytes i rest hd
  cases bytes with
  | nil => cases hd
  | cons b0 bytes =>
    obtain ⟨hwf, hh, rfl⟩ := decode_eq_ok hd
    exact ⟨hwf, by rw [encode, Opc.byte0_of_headOf hh, List.cons_append]⟩

/-! ## The length from byte 0 -/

/-- Decoding lacks bytes exactly when fewer are there than the format has (R76). -/
theorem decode_eq_truncated_iff {o : Opc} {b0 : Byte} {h : Head} (bytes : List Byte) (hh : o.headOf b0 = some h) :
    decode o (b0 :: bytes) = .error .truncated ↔ bytes.length + 1 < h.len := by
  refine ⟨fun hd => ?_, decode_of_short hh⟩
  by_contra hlen
  obtain ⟨ops, tail, rfl, hops⟩ := Head.exists_operands hlen
  rw [decode_append tail hh hops] at hd
  exact decoded_ne_truncated _ _ _ hd

/-- Settles O3, one clause per outcome of the lookup of byte 0. -/
theorem firstByteTellsTheLength : Obligations.FirstByteTellsTheLength := by
  intro o b0 bytes
  refine ⟨fun i rest hd => ?_, fun hnone => ?_, fun n hsome => ?_⟩
  · obtain ⟨-, hh, rfl⟩ := decode_eq_ok hd
    refine ⟨by simp [instrLen, hh, length_encode], ?_⟩
    simp only [encode, List.length_append, List.length_cons]
    omega
  · exact decode_of_headOf_none bytes (Option.map_eq_none_iff.1 hnone)
  · obtain ⟨h, hh, rfl⟩ := Option.map_eq_some_iff.1 hsome
    exact decode_eq_truncated_iff bytes hh

/-! ## Reserved encodings -/

theorem Opc.headOf_eq_none_iff (o : Opc) (b0 : Byte) : o.headOf b0 = none ↔ b0 ∉ Head.all.map o.byte0 := by
  simp [Opc.headOf, List.find?_eq_none]

/-- Operand bytes that say nothing make the instruction Undecodable (R77). -/
theorem decode_of_decodeOperands_none {o : Opc} {b0 : Byte} {h : Head} {ops : List Byte} (rest : List Byte)
    (hh : o.headOf b0 = some h) (hlen : ops.length + 1 = h.len) (hops : o.decodeOperands h ops = none) :
    decode o (b0 :: (ops ++ rest)) = .error (.undecodable b0) := by
  rw [decode_append rest hh hlen, hops]
  rfl

/-- A DMAMOV byte 1 of 3 or more names no register under the table of R74. -/
theorem Opc.movRegOf_spec_eq_none {b : Byte} (hb : 3 ≤ b.toNat) : Opc.spec.movRegOf b = none := by
  have hne (n : Byte) (hn : n.toNat < 3) : b ≠ n := by rintro rfl; omega
  rw [Opc.movRegOf, if_neg (hne Opc.spec.sar (by decide)), if_neg (hne Opc.spec.ccr (by decide)),
    if_neg (hne Opc.spec.dar (by decide))]

/-- Settles O4: no head has such a byte 0, or the operand bytes of its head say nothing. -/
theorem reservedEncodingsAreUndecodable : Obligations.ReservedEncodingsAreUndecodable := by
  refine ⟨fun b0 rest hb0 => ?_, fun b1 i0 i1 i2 i3 rest hb1 => ?_, fun b0 b1 i0 i1 i2 i3 rest hb0 hb1 => ?_,
    fun b1 rest hb1 => ?_⟩
  · exact decode_of_headOf_none rest ((Opc.headOf_eq_none_iff ..).2 hb0)
  · refine decode_of_decodeOperands_none (h := .mov) (ops := [b1, i0, i1, i2, i3]) rest (by decide) rfl ?_
    simp [Opc.decodeOperands, Opc.decodeB6, Opc.movRegOf_spec_eq_none hb1]
  · obtain ⟨ns, hns⟩ : ∃ ns, Opc.spec.headOf b0 = some (.go ns) := by
      rcases hb0 with rfl | rfl
      · exact ⟨false, by decide⟩
      · exact ⟨true, by decide⟩
    refine decode_of_decodeOperands_none (ops := [b1, i0, i1, i2, i3]) rest hns rfl ?_
    exact if_neg fun hhigh => Nat.not_lt.2 hb1 ((and_high_eq_zero_iff b1).1 hhigh)
  · refine decode_of_decodeOperands_none (h := .sev) (ops := [b1]) rest (by decide) rfl ?_
    exact if_neg fun hlow => hb1 ((and_low_eq_zero_iff b1).1 hlow)

/-- Settles O5 by evaluating the decoder on the eight words. -/
theorem sampleWordsDecode : Obligations.SampleWordsDecode :=
  ⟨rfl, rfl, rfl, rfl, rfl, rfl, rfl, rfl⟩

end Sys2Proof

/-! PROOFS. The encode operations: what each accepts and writes, and an emission run to its result. -/
namespace Sys2Proof.Machine

/-! ## What an encode operation accepts and writes -/

/-- Behind a check stands a result only where the check holds. -/
@[simp] theorem check_bind_eq_ok {α : Type} {b : Bool} {sub : InvalidSub} {f : Unit → Except Err α} {v : α} :
    (check b sub >>= f) = .ok v ↔ b = true ∧ f () = .ok v := by
  cases b <;> simp [check]

theorem encMov_eq_ok_iff {o : Opc} {rd : Nat} {imm : Word} {bytes : List Byte} :
    encMov o rd imm = .ok bytes ↔ rd ≤ 2 ∧ [o.mov, o.movSelector rd] ++ bytesLe32 imm = bytes := by
  simp [encMov]

theorem encLp_eq_ok_iff {o : Opc} {lc count : Nat} {bytes : List Byte} :
    encLp o lc count = .ok bytes ↔ lc ≤ 1 ∧ (1 ≤ count ∧ count ≤ 256) ∧
      [o.lp ||| (BitVec.ofNat 8 lc <<< o.lpLoop), BitVec.ofNat 8 (count - 1)] = bytes := by
  simp [encLp]

theorem encLpend_eq_ok_iff {o : Opc} {lc mode cond bjump : Nat} {bytes : List Byte} :
    encLpend o lc mode cond bjump = .ok bytes ↔ lc ≤ 1 ∧ mode = 0 ∧ cond ≤ 2 ∧ (1 ≤ bjump ∧ bjump ≤ 255) ∧
      [o.lpend ||| (BitVec.ofNat 8 lc <<< o.lpendLoop) ||| o.condBits cond, BitVec.ofNat 8 bjump] = bytes := by
  simp [encLpend]

theorem encGo_eq_ok_iff {o : Opc} {ns chan : Nat} {addr : Word} {bytes : List Byte} :
    encGo o ns chan addr = .ok bytes ↔ chan ≤ 7 ∧ ns ≤ 1 ∧
      [o.go ||| (BitVec.ofNat 8 ns <<< o.goNs), BitVec.ofNat 8 chan] ++ bytesLe32 addr = bytes := by
  simp [encGo]

theorem encSev_eq_ok_iff {o : Opc} {event : Nat} {bytes : List Byte} :
    encSev o event = .ok bytes ↔ event ≤ 31 ∧ [o.sev, BitVec.ofNat 8 event <<< 3] = bytes := by
  simp [encSev]

/-- Settles O7, from the lemma that says when each operation succeeds. -/
theorem encodeOperationsAcceptExactlyTheLegalArguments : Obligations.EncodeOperationsAcceptExactlyTheLegalArguments := by
  intro o
  refine ⟨fun rd imm => ?_, fun lc count => ?_, fun lc mode cond bjump => ?_, fun ns chan addr => ?_, fun ev => ?_⟩
  · simp [encBytes, encMov_eq_ok_iff]
  · simp [encBytes, encLp_eq_ok_iff]
  · simp [encBytes, encLpend_eq_ok_iff]
  · simp [encBytes, encGo_eq_ok_iff]
  · simp [encBytes, encSev_eq_ok_iff]

/-! ## The instruction an encode operation names -/

theorem movCode_movRegOfNat (o : Opc) (rd : Nat) : o.movCode (movRegOfNat rd) = o.movSelector rd := by
  unfold movRegOfNat Opc.movSelector
  split
  · rfl
  · split <;> rfl

theorem loopRegCode_loopRegOfNat {lc : Nat} (h : lc ≤ 1) : loopRegCode (loopRegOfNat lc) = BitVec.ofNat 8 lc := by
  obtain rfl | rfl : lc = 0 ∨ lc = 1 := by omega
  · rfl
  · rfl

/-- The qualifier argument picks the instruction, and with it the qualifier bits of byte 0 (R73, R103). -/
theorem encode_lpendOfCond (o : Opc) (lc : LoopReg) (cond bjump : Nat) :
    encode o (lpendOfCond lc cond bjump) =
      [o.lpend ||| (loopRegCode lc <<< o.lpendLoop) ||| o.condBits cond, BitVec.ofNat 8 bjump] := by
  unfold lpendOfCond Opc.condBits
  split
  · rfl
  · split <;> rfl

theorem wf_lpendOfCond (lc : LoopReg) (cond bjump : Nat) : (lpendOfCond lc cond bjump).wf = decide (bjump ≤ 255) := by
  unfold lpendOfCond
  split
  · rfl
  · split <;> rfl

theorem nsBit_of_le_one {ns : Nat} (h : ns ≤ 1) : (if decide (ns = 1) then 1 else 0 : Byte) = BitVec.ofNat 8 ns := by
  obtain rfl | rfl : ns = 0 ∨ ns = 1 := by omega
  · rfl
  · rfl

/-- Settles O6, by the operation: the accepted arguments fit the fields, and the selectors give byte 0 and byte 1. -/
theorem encodeOperationsWriteTheEncoding : Obligations.EncodeOperationsWriteTheEncoding := by
  intro o c bytes h
  cases c with
  | mov rd imm =>
    obtain ⟨-, rfl⟩ := encMov_eq_ok_iff.1 h
    simp [EncCall.instr, Instr.wf, encode, Instr.head, Opc.byte0, Opc.operandBytes, movCode_movRegOfNat]
  | lp lc count =>
    obtain ⟨hlc, hcount, rfl⟩ := encLp_eq_ok_iff.1 h
    simp [EncCall.instr, Instr.wf, hcount, encode, Instr.head, Opc.byte0, Opc.operandBytes, loopRegCode_loopRegOfNat hlc]
  | lpend lc mode cond bjump =>
    obtain ⟨hlc, -, -, hbjump, rfl⟩ := encLpend_eq_ok_iff.1 h
    simp [EncCall.instr, wf_lpendOfCond, hbjump, encode_lpendOfCond, loopRegCode_loopRegOfNat hlc]
  | go ns chan addr =>
    obtain ⟨hchan, hns, rfl⟩ := encGo_eq_ok_iff.1 h
    simp [EncCall.instr, Instr.wf, hchan, encode, Instr.head, Opc.byte0, Opc.operandBytes, ← nsBit_of_le_one hns]
  | sev event =>
    obtain ⟨hevent, rfl⟩ := encSev_eq_ok_iff.1 h
    simp [EncCall.instr, Instr.wf, hevent, encode, Instr.head, Opc.byte0, Opc.operandBytes]
  | ld | st | rmb | wmb | fin =>
    obtain rfl := Except.ok.inj h
    exact ⟨rfl, rfl⟩

/-! ## A buffer write that is not refused -/

/-- What the host may not write is told by the flights alone. -/
theorem hostWriteBarred_of_flights {s t : State} (h : t.flights = s.flights) (a : Nat) :
    t.hostWriteBarred a = s.hostWriteBarred a := by
  simp [State.hostWriteBarred, h]

/-- Bytes that fit the capacity and that no flight bars all land. -/
theorem bufWrite_ok {s : State} {buf : Buffer} {o : Nat} {bs : List Byte} (hcap : o + bs.length ≤ buf.cap)
    (hfree : ∀ a, buf.base + o ≤ a → a < buf.base + o + bs.length → s.hostWriteBarred a = false) :
    s.bufWrite buf o bs = ({ s with
      mem := Memory.writeBytes s.mem (buf.base + o) bs
      dirty := setInsertRange (buf.base + o) bs.length s.dirty
      stored := setInsertRange (buf.base + o) bs.length s.stored }, none) := by
  induction bs generalizing s o with
  | nil => rfl
  | cons b bs ih =>
    simp only [List.length_cons] at hcap hfree
    have hstore := hostStore_ok b (hfree (buf.base + o) (by omega) (by omega))
    rw [State.bufWrite, if_neg (by omega), hstore]
    exact ih (by omega) fun a h1 h2 => hfree a (by omega) (by omega)

/-! ## A step of an emission -/

/-- Host context `i` goes on with emission `j`: the job of a context that is not Faulted. -/
def State.emitting (s : State) (i : Nat) (j : EmitJob) : Prop :=
  ∃ h, s.hosts[i]? = some h ∧ h.fault = none ∧ h.job = .emit j

/-- The emission with its cursor at `c` and `items` left. -/
def EmitJob.goOn (j : EmitJob) (c : Cursor) (items : List Emit) : EmitJob :=
  { j with off := c.off, lr0 := c.lr0, lr1 := c.lr1, todo := items }

@[simp] theorem buf_goOn (j : EmitJob) (c : Cursor) (items : List Emit) : (j.goOn c items).buf = j.buf := rfl
@[simp] theorem start_goOn (j : EmitJob) (c : Cursor) (items : List Emit) : (j.goOn c items).start = j.start := rfl

/-- A call moves the cursor by its bytes. -/
@[simp] theorem off_goOn_advance (j : EmitJob) (e : EncCall) (n : Nat) (items : List Emit) :
    (j.goOn (j.cursor.advance e n) items).off = j.off + n := by
  cases e with
  | lp r count => simp only [Cursor.advance]; split <;> rfl
  | _ => rfl

@[simp] theorem hosts_overwrite (s : State) (j : EmitJob) : (s.overwrite j).hosts = s.hosts := by
  rcases overwrite_eq s j with h | h <;> rw [h]

theorem hostStep_of_emitting {s : State} {i : Nat} {j : EmitJob} (h : s.emitting i j) :
    s.hostStep i = s.emitStep i j := by
  obtain ⟨h, hh, hf, hj⟩ := h
  simp [State.hostStep, hh, hf, hj]

theorem emitting_lt_length {s : State} {i : Nat} {j : EmitJob} (h : s.emitting i j) : i < s.hosts.length := by
  obtain ⟨h, hh, -⟩ := h
  exact (List.getElem?_eq_some_iff.1 hh).1

theorem emitting_modifyHost {s : State} {i : Nat} {h : HostCtx} (j : EmitJob) (hh : s.hosts[i]? = some h)
    (hf : h.fault = none) : (s.modifyHost i fun h => { h with job := .emit j }).emitting i j :=
  ⟨{ h with job := .emit j }, by rw [host_modifyHost_same, hh]; rfl, hf, rfl⟩

/-- An emission goes on: no program in the buffer of a Compile has been started. -/
def State.mayGoOn (s : State) (j : EmitJob) : Prop := (j.compiling && s.bufferInFlight j.buf) = false

theorem State.mayGoOn.of_flights {s t : State} {j : EmitJob} (h : s.mayGoOn j) (hf : t.flights = s.flights) :
    t.mayGoOn j := by
  simpa [State.mayGoOn, State.bufferInFlight, hf] using h

/-- A step that writes an instruction, once its bytes are known to land. -/
theorem emitStep_of_call {s t : State} {i : Nat} {j : EmitJob} {item : Emit} {items : List Emit} {e : EncCall}
    {bytes : List Byte} (htodo : j.todo = item :: items) (hgo : s.mayGoOn j)
    (hcall : j.cursor.callOf s.params.bjumpOrigin item = some e) (hbytes : encBytes s.params.opc e = .ok bytes)
    (hwrite : (s.overwrite j).bufWrite j.buf j.off bytes = (t, none)) :
    s.emitStep i j =
      t.modifyHost i fun h => { h with job := .emit (j.goOn (j.cursor.advance e bytes.length) items) } := by
  have hgo' := Bool.eq_false_iff.1 hgo
  unfold State.emitStep
  simp only [htodo, hgo', hcall, hbytes, hwrite]
  rfl

theorem emitAll_cons_eq_some {o : Opc} {origin : BjumpOrigin} {item : Emit} {items : List Emit} {c c' : Cursor}
    {bytes : List Byte} (h : emitAll o origin (item :: items) c = some (bytes, c')) :
    ∃ e first rest, c.callOf origin item = some e ∧ encBytes o e = .ok first ∧
      emitAll o origin items (c.advance e first.length) = some (rest, c') ∧ bytes = first ++ rest := by
  rw [emitAll] at h
  split at h
  · cases h
  · next e he =>
    split at h
    · cases h
    · next first hfirst =>
      split at h
      · cases h
      · next rest c'' hrest =>
        obtain ⟨rfl, rfl⟩ := Prod.mk.inj (Option.some.inj h)
        exact ⟨e, first, rest, he, hfirst, hrest, rfl⟩

/-! ## A run of an emission -/

/-- From `s` to `t`, an emission that comes to the addresses `part` has written `bytes` from address `a` on: nothing but
host contexts, memory and the sets of addresses about it has changed, the bytes written count as written, and outside
`part` no other address counts otherwise than before (R60; log 16). -/
structure Emitted (s t : State) (part : AddrRange) (a : Nat) (bytes : List Byte) : Prop where
  frame : t = { s with
    hosts := t.hosts
    mem := Memory.writeBytes s.mem a bytes
    dirty := t.dirty
    stored := t.stored }
  stored_written : ∀ x, a ≤ x → x < a + bytes.length → x ∈ t.stored
  stored_elsewhere : ∀ x, part.has x = false → ¬ (a ≤ x ∧ x < a + bytes.length) → (x ∈ t.stored ↔ x ∈ s.stored)

namespace Emitted

variable {s t : State} {part : AddrRange} {a : Nat} {bytes : List Byte}

theorem mem (h : Emitted s t part a bytes) : t.mem = Memory.writeBytes s.mem a bytes := by rw [h.frame]
theorem params (h : Emitted s t part a bytes) : t.params = s.params := by rw [h.frame]
theorem flights (h : Emitted s t part a bytes) : t.flights = s.flights := by rw [h.frame]
theorem chans (h : Emitted s t part a bytes) : t.chans = s.chans := by rw [h.frame]
theorem trace (h : Emitted s t part a bytes) : t.trace = s.trace := by rw [h.frame]
theorem dbgBusy (h : Emitted s t part a bytes) : t.dbgBusy = s.dbgBusy := by rw [h.frame]

/-- Nothing is written yet. -/
theorem refl (s : State) (part : AddrRange) (a : Nat) : Emitted s s part a [] :=
  ⟨rfl, fun x h1 h2 => absurd h2 (by simpa using h1), fun _ _ _ => Iff.rfl⟩

/-- What a host context does besides does not matter. -/
theorem modifyHost (h : Emitted s t part a bytes) (i : Nat) (f : HostCtx → HostCtx) :
    Emitted s (t.modifyHost i f) part a bytes :=
  ⟨by rw [h.frame]; rfl, h.stored_written, h.stored_elsewhere⟩

/-- Taking the addresses of the emission out of the written ones, before its first byte is written. -/
theorem overwrite {j : EmitJob} (h : Emitted s t j.part (j.buf.base + j.start) bytes)
    (hoff : j.off = j.start + bytes.length) :
    Emitted s (t.overwrite j) j.part (j.buf.base + j.start) bytes := by
  unfold State.overwrite
  split
  · next hfirst =>
    have hnone : bytes.length = 0 := by
      simp only [Bool.and_eq_true, decide_eq_true_eq] at hfirst
      omega
    refine ⟨by rw [h.frame], fun x h1 h2 => absurd h2 (by omega), fun x hx hnot => ?_⟩
    rw [← h.stored_elsewhere x hx hnot]
    simp [hx]
  · exact h

/-- More bytes are written behind those there are. -/
theorem append {b : Nat} (more : List Byte) (h : Emitted s t part a bytes) (hb : b = a + bytes.length) :
    Emitted s { t with
      mem := Memory.writeBytes t.mem b more
      dirty := setInsertRange b more.length t.dirty
      stored := setInsertRange b more.length t.stored } part a (bytes ++ more) := by
  subst hb
  refine ⟨?_, fun x h1 h2 => ?_, fun x hx hnot => ?_⟩
  · rw [h.mem, ← Memory.writeBytes_append, h.frame]
  · rw [List.length_append] at h2
    by_cases hx : x < a + bytes.length
    · exact mem_setInsertRange.2 (.inr (h.stored_written x h1 hx))
    · exact mem_setInsertRange.2 (.inl (by omega))
  · rw [List.length_append] at hnot
    rw [← h.stored_elsewhere x hx (by omega)]
    exact mem_setInsertRange.trans (or_iff_right (by omega))

/-- Where an emission comes to no other bytes than it has written, exactly these newly count as written. -/
theorem mem_stored (h : Emitted s t part a bytes)
    (hpart : ∀ x, part.has x = true → a ≤ x ∧ x < a + bytes.length) (x : Nat) :
    x ∈ t.stored ↔ x ∈ s.stored ∨ (a ≤ x ∧ x < a + bytes.length) := by
  by_cases hx : a ≤ x ∧ x < a + bytes.length
  · exact iff_of_true (h.stored_written x hx.1 hx.2) (.inr hx)
  · have hout : part.has x = false := Bool.eq_false_iff.2 fun hin => hx (hpart x hin)
    rw [h.stored_elsewhere x hout hx, or_iff_left hx]

end Emitted

/-- An emission whose bytes fit and are not barred runs to its end, one step an item and one to return: from `s` on, where
it began, it has then written `bytes` and what was still to write. -/
theorem hostRun_emitting {s t : State} {i : Nat} {j : EmitJob} {items : List Emit} {bytes rest : List Byte} {c : Cursor}
    (hdone : Emitted s t j.part (j.buf.base + j.start) bytes) (hoff : j.off = j.start + bytes.length)
    (hjob : t.emitting i j) (hgo : s.mayGoOn j) (htodo : j.todo = items)
    (hemit : emitAll s.params.opc s.params.bjumpOrigin items j.cursor = some (rest, c))
    (hcap : j.off + rest.length ≤ j.buf.cap)
    (hfree : ∀ a, j.buf.base + j.off ≤ a → a < j.buf.base + j.off + rest.length → s.hostWriteBarred a = false) :
    (t.hostRun i (items.length + 1)).returned i = some (.ok (bytes.length + rest.length)) ∧
      Emitted s (t.hostRun i (items.length + 1)) j.part (j.buf.base + j.start) (bytes ++ rest) := by
  induction items generalizing t j bytes rest with
  | nil =>
    obtain ⟨rfl, -⟩ := Prod.mk.inj (Option.some.inj hemit)
    have hend : t.hostRun i 1 = t.finish i (.ok bytes.length) := by
      rw [State.hostRun, State.hostRun, hostStep_of_emitting hjob, State.emitStep, htodo, hoff, Nat.add_sub_cancel_left]
    rw [List.length_nil, List.length_nil, Nat.zero_add, Nat.add_zero, List.append_nil, hend]
    exact ⟨returned_finish _ (emitting_lt_length hjob), hdone.modifyHost i _⟩
  | cons item items ih =>
    obtain ⟨e, first, rest, hcall, hfirst, hrest, rfl⟩ := emitAll_cons_eq_some hemit
    rw [List.length_append] at hcap hfree
    have hclear := hdone.overwrite hoff
    have hwrite : (t.overwrite j).bufWrite j.buf j.off first = _ := bufWrite_ok (by omega) fun a h1 h2 => by
      rw [hostWriteBarred_of_flights hclear.flights]
      exact hfree a h1 (by omega)
    have hstep := emitStep_of_call (i := i) htodo (hgo.of_flights hdone.flights) (hdone.params ▸ hcall)
      (hdone.params ▸ hfirst) hwrite
    rw [← hostStep_of_emitting hjob] at hstep
    obtain ⟨h, hh, hf, -⟩ := hjob
    have hnext := ih (t := t.hostStep i) (j := j.goOn (j.cursor.advance e first.length) items) (bytes := bytes ++ first)
      (hstep ▸ (hclear.append first (by omega)).modifyHost i _)
      (by rw [off_goOn_advance, start_goOn, hoff, List.length_append, Nat.add_assoc])
      (hstep ▸ emitting_modifyHost _ (by simpa using hh) hf) hgo rfl hrest
      (by rw [off_goOn_advance, buf_goOn]; omega)
      (fun a h1 h2 => by
        rw [off_goOn_advance, buf_goOn] at h1 h2
        exact hfree a (by omega) (by omega))
    rw [List.length_append, List.append_assoc, Nat.add_assoc] at hnext
    rw [List.length_append]
    exact hnext

/-- A context that is about to start an operation which begins an emission, with bytes that fit and that no flight bars:
after its run it has returned their number, and has written them from offset `o` on. -/
theorem hostRun_emission {s : State} {i o n : Nat} {op : HostOp} {buf : Buffer} {items : List Emit} {compiling : Bool}
    {bytes : List Byte} {c : Cursor} (h : s.aboutTo i op)
    (hstart : ∀ f, (s.modifyHost i f).startOp i op = (s.modifyHost i f).beginEmission i buf o n items compiling)
    (hgo : (compiling && s.bufferInFlight buf) = false)
    (hemit : emitAll s.params.opc s.params.bjumpOrigin items ⟨o, none, none⟩ = some (bytes, c))
    (hcap : o + bytes.length ≤ buf.cap)
    (hfree : ∀ a, buf.base + o ≤ a → a < buf.base + o + bytes.length → s.hostWriteBarred a = false) :
    (s.hostRun i (items.length + 2)).returned i = some (.ok bytes.length) ∧
      Emitted s (s.hostRun i (items.length + 2)) ⟨buf.base + o, min n (buf.cap - o)⟩ (buf.base + o) bytes := by
  obtain ⟨ops, hstep⟩ := hostStep_of_aboutTo h
  obtain ⟨h, _, hh, hf, -⟩ := h
  rw [hstart] at hstep
  have hbegun : Emitted s (s.hostStep i) ⟨buf.base + o, min n (buf.cap - o)⟩ (buf.base + o) [] :=
    hstep ▸ ((Emitted.refl s _ _).modifyHost i _).modifyHost i _
  have hjob : (s.hostStep i).emitting i (newEmission buf o n items compiling) :=
    hstep ▸ emitting_modifyHost _ ((host_modifyHost_same ..).trans (congrArg (Option.map _) hh)) hf
  have hrun := hostRun_emitting (j := newEmission buf o n items compiling) hbegun rfl hjob hgo rfl hemit hcap hfree
  rw [List.length_nil, Nat.zero_add] at hrun
  exact hrun

/-! ## The number of bytes of an emission -/

/-- The bytes an item comes to (R70). -/
def Emit.size : Emit → Nat
  | .call e => e.instr.head.len
  | .loopEnd _ => 2

theorem length_encBytes {o : Opc} {e : EncCall} {bytes : List Byte} (h : encBytes o e = .ok bytes) :
    bytes.length = e.instr.head.len := by
  obtain ⟨-, rfl⟩ := encodeOperationsWriteTheEncoding o e bytes h
  exact length_encode o e.instr

theorem callOf_eq_some {c : Cursor} {origin : BjumpOrigin} {item : Emit} {e : EncCall}
    (h : c.callOf origin item = some e) : e.instr.head.len = item.size := by
  cases item with
  | call e' => rw [Option.some.inj h]; rfl
  | loopEnd r =>
    obtain ⟨lrec, -, rfl⟩ := Option.map_eq_some_iff.1 h
    rfl

/-- What an emission writes is as long as its items together, from whatever cursor. -/
theorem length_emitAll {o : Opc} {origin : BjumpOrigin} {items : List Emit} {c c' : Cursor} {bytes : List Byte}
    (h : emitAll o origin items c = some (bytes, c')) : bytes.length = (items.map Emit.size).sum := by
  induction items generalizing c bytes with
  | nil =>
    obtain ⟨rfl, -⟩ := Prod.mk.inj (Option.some.inj h)
    rfl
  | cons item items ih =>
    obtain ⟨e, first, rest, hcall, hfirst, hrest, rfl⟩ := emitAll_cons_eq_some h
    rw [List.length_append, length_encBytes hfirst, callOf_eq_some hcall, ih hrest, List.map_cons, List.sum_cons]

/-- The bytes a nest comes to: an outer loop takes four more (R161). -/
def nestSize (nest : Nat × Nat) : Nat := if 1 < nest.1 then 12 else 8

theorem size_nestItems (nest : Nat × Nat) : ((nestItems nest).map Emit.size).sum = nestSize nest := by
  unfold nestItems nestSize
  split <;> rfl

theorem size_flatMap_nestItems (ns : List (Nat × Nat)) :
    ((ns.flatMap nestItems).map Emit.size).sum = (ns.map nestSize).sum := by
  induction ns with
  | nil => rfl
  | cons nest ns ih => simp [size_nestItems, ih]

theorem size_remainderNests (r : Nat) :
    ((remainderNests r).map nestSize).sum =
      (if loopMax ≤ r then (if 1 < r / loopMax then 12 else 8) else 0) + (if 0 < r % loopMax then 8 else 0) := by
  rw [remainderNests, List.map_append, List.sum_append]
  congr 1 <;> split <;> rfl

/-- The engine's items come to n(B) bytes (R161). -/
theorem size_decomposeItems (count : Nat) : ((decomposeItems count).map Emit.size).sum = nestBytes count := by
  have hmod : count % fullBlock % loopMax = count % loopMax := Nat.mod_mod_of_dvd count (by decide)
  have hfull : ((List.replicate (count / fullBlock) (loopMax, loopMax)).map nestSize).sum = 12 * (count / fullBlock) := by
    simp [nestSize, Nat.mul_comm]
  rw [decomposeItems, size_flatMap_nestItems, nests, List.map_append, List.sum_append, hfull, size_remainderNests, hmod,
    nestBytes, Nat.add_assoc]

/-! ## An encode operation and a Decompose by themselves -/

theorem startOp_encode {s : State} (i : Nat) (buf : Buffer) (o : Nat) {c : EncCall} {bytes : List Byte}
    (h : encBytes s.params.opc c = .ok bytes) :
    s.startOp i (.encode buf o c) = s.beginEmission i buf o bytes.length [.call c] false := by
  simp [State.startOp, State.startEncode, h]

theorem startOp_decompose (s : State) (i : Nat) (buf : Buffer) (o : Nat) {cfg : TransferConfig}
    (h : checkDecompose cfg = .ok ()) :
    s.startOp i (.decompose buf o cfg) =
      s.beginEmission i buf o (nestBytes (burstCount cfg)) (decomposeItems (burstCount cfg)) false := by
  simp [State.startOp, State.startDecompose, h]

/-- An encode operation is the emission of its one call. -/
theorem emitAll_call {o : Opc} (origin : BjumpOrigin) {e : EncCall} {bytes : List Byte} (c : Cursor)
    (h : encBytes o e = .ok bytes) : emitAll o origin [.call e] c = some (bytes, c.advance e bytes.length) := by
  simp [emitAll, Cursor.callOf, h]

/-- Settles O10: both operations are emissions of `bytes.length` bytes, and such an emission runs to its end. -/
theorem encodeAndDecomposeRunsWriteTheirBytes : Obligations.EncodeAndDecomposeRunsWriteTheirBytes := by
  intro s i buf o bytes hcap hfree hop
  have hrun : ∃ n, (s.hostRun i n).returned i = some (.ok bytes.length) ∧
      Emitted s (s.hostRun i n) ⟨buf.base + o, min bytes.length (buf.cap - o)⟩ (buf.base + o) bytes := by
    rcases hop with ⟨c, habout, hbytes⟩ | ⟨cfg, cur, habout, hcheck, hemit⟩
    · exact ⟨_, hostRun_emission habout (fun f => startOp_encode i buf o hbytes) rfl (emitAll_call _ _ hbytes) hcap hfree⟩
    · have hlen := (length_emitAll hemit).trans (size_decomposeItems _)
      exact ⟨_, hostRun_emission habout (fun f => hlen ▸ startOp_decompose _ i buf o hcheck) rfl hemit hcap hfree⟩
  obtain ⟨n, hreturned, hwritten⟩ := hrun
  exact ⟨n, _, rfl, hreturned, hwritten.mem, hwritten.trace, hwritten.chans, hwritten.dbgBusy,
    hwritten.mem_stored fun x hx => by simp [AddrRange.has] at hx; omega⟩

end Sys2Proof.Machine

/-! PROOFS. The config builder: which shapes it accepts, and the fields of the word it packs. -/
namespace Sys2Proof.Machine

/-! ## What BuildCCR accepts and answers -/

theorem isPow2_iff {v : Nat} : isPow2 v = true ↔ ∃ k, v = 2 ^ k :=
  decide_eq_true_iff.trans Nat.ne_zero_and_sub_one_eq_zero_iff_isPowerOfTwo

@[simp] theorem check_eq_ok {b : Bool} {sub : InvalidSub} : check b sub = .ok () ↔ b = true := by
  cases b <;> simp [check]

/-- One side's checks pass on its legal shapes only, whatever sub-codes they report (R133 to R135). -/
theorem checkSide_eq_ok_iff {p : Params} {subs : SideSubs} {sh : Shape} : checkSide p subs sh = .ok () ↔ sh.Legal p := by
  simp [checkSide, Shape.Legal, isPow2_iff, Nat.one_le_iff_ne_zero]

theorem buildCcr_eq_ok_iff {p : Params} {cfg : TransferConfig} {ccr : Word} :
    buildCcr p cfg = .ok ccr ↔
      (cfg.srcShape.Legal p ∧ cfg.dstShape.Legal p) ∧ packCcr p.ccrLayout cfg.srcShape cfg.dstShape = ccr := by
  constructor
  · intro h
    obtain ⟨⟨⟩, hsrc, h⟩ := except_bind_ok h
    obtain ⟨⟨⟩, hdst, h⟩ := except_bind_ok h
    exact ⟨⟨checkSide_eq_ok_iff.1 hsrc, checkSide_eq_ok_iff.1 hdst⟩, Except.ok.inj h⟩
  · rintro ⟨⟨hsrc, hdst⟩, rfl⟩
    simp [buildCcr, checkSide_eq_ok_iff.2 hsrc, checkSide_eq_ok_iff.2 hdst]

/-- Settles O13: the checks of the two sides are all that stands before the packed word. -/
theorem buildCcrAcceptsExactlyLegalShapes : Obligations.BuildCcrAcceptsExactlyLegalShapes := by
  intro p cfg
  simp [buildCcr_eq_ok_iff]

/-! ## Fields put side by side in one word -/

theorem BitField.get_or (f : BitField) (v w : Word) : f.get (v ||| w) = f.get v ||| f.get w := by
  simp [BitField.get, BitVec.extractLsb'_or]

/-- A number that fits its field leaves no bit in a field apart from it. -/
theorem BitField.get_put_of_apart {f g : BitField} {n : Nat} (hn : n < 2 ^ f.len) (h : f.apart g) :
    g.get (f.put n) = 0 := by
  have hzero : (f.put n).extractLsb' g.lo g.len = 0 := by
    apply BitVec.eq_of_getLsbD_eq
    intro i hi
    rcases h with habove | hbelow
    · have hbit : n.testBit (g.lo + i - f.lo) = false :=
        Nat.testBit_lt_two_pow (Nat.lt_of_lt_of_le hn (Nat.pow_le_pow_right (by decide) (by omega)))
      simp [BitField.put, BitVec.getLsbD_ofNat, hbit]
    · have hlt : g.lo + i < f.lo := by omega
      simp [BitField.put, hlt]
  simp [BitField.get, hzero]

/-- The word with each of the numbers in its field. -/
def putAll : List (BitField × Nat) → Word
  | [] => 0
  | x :: xs => x.1.put x.2 ||| putAll xs

/-- A field apart from every field written reads 0. -/
theorem BitField.get_putAll_of_apart {g : BitField} {xs : List (BitField × Nat)} (hfit : ∀ x ∈ xs, x.2 < 2 ^ x.1.len)
    (h : ∀ x ∈ xs, g.apart x.1) : g.get (putAll xs) = 0 := by
  induction xs with
  | nil => simp [putAll, BitField.get]
  | cons x xs ih =>
    rw [List.forall_mem_cons] at hfit h
    rw [putAll, BitField.get_or, BitField.get_put_of_apart hfit.1 h.1.symm, ih hfit.2 h.2, Nat.zero_or]

/-- Each field reads back its number: neither the fields written before nor those written after it disturb it (R132). -/
theorem BitField.get_putAll {xs : List (BitField × Nat)} (hword : ∀ x ∈ xs, x.1.lo + x.1.len ≤ 32)
    (hfit : ∀ x ∈ xs, x.2 < 2 ^ x.1.len) (hapart : (xs.map Prod.fst).Pairwise BitField.apart) :
    ∀ x ∈ xs, x.1.get (putAll xs) = x.2 := by
  induction xs with
  | nil => simp
  | cons y ys ih =>
    rw [List.forall_mem_cons] at hword hfit
    rw [List.map_cons, List.pairwise_cons, List.forall_mem_map] at hapart
    rw [List.forall_mem_cons]
    constructor
    · rw [putAll, BitField.get_or, BitField.get_put hword.1 hfit.1, BitField.get_putAll_of_apart hfit.2 hapart.1,
        Nat.or_zero]
    · intro x hx
      rw [putAll, BitField.get_or, BitField.get_put_of_apart hfit.1 (hapart.1 x hx), ih hword.2 hfit.2 hapart.2 x hx,
        Nat.zero_or]

/-! ## The fields of the CCR word -/

/-- The eleven fields of the CCR with the numbers they hold for the two shapes (R131). -/
def ccrFields (l : CcrLayout) (src dst : Shape) : List (BitField × Nat) :=
  [(l.srcInc, src.inc.toNat), (l.srcSize, Nat.log2 src.burstSize), (l.srcLen, src.burstLen - 1), (l.srcProt, src.prot),
    (l.srcCache, src.cache), (l.dstInc, dst.inc.toNat), (l.dstSize, Nat.log2 dst.burstSize),
    (l.dstLen, dst.burstLen - 1), (l.dstProt, dst.prot), (l.dstCache, dst.cache), (l.endian, 0)]

theorem packCcr_eq_putAll (l : CcrLayout) (src dst : Shape) : packCcr l src dst = putAll (ccrFields l src dst) := by
  simp [packCcr, packSide, ccrFields, putAll, BitVec.or_assoc]

theorem map_fst_ccrFields (l : CcrLayout) (src dst : Shape) : (ccrFields l src dst).map Prod.fst = l.fields := rfl

/-- The burst size of a legal shape is two to its logarithm, which fits three bits. -/
theorem Shape.Legal.log2_burstSize {p : Params} {sh : Shape} (hp : p.legal) (h : sh.Legal p) :
    2 ^ Nat.log2 sh.burstSize = sh.burstSize ∧ Nat.log2 sh.burstSize < 8 := by
  obtain ⟨⟨k, hk⟩, hmax, -⟩ := h
  have hmax128 : p.maxBurstSize ≤ 128 := by
    have hmem := hp.1
    simp only [List.mem_cons, List.not_mem_nil, or_false] at hmem
    omega
  have hlt : 2 ^ k < 2 ^ 8 := by omega
  rw [hk, Nat.log2_two_pow]
  exact ⟨rfl, (Nat.pow_lt_pow_iff_right (by decide)).1 hlt⟩

/-- The burst length of a legal shape, less one, fits four bits. -/
theorem Shape.Legal.burstLen_bounds {p : Params} {sh : Shape} (hp : p.legal) (h : sh.Legal p) :
    1 ≤ sh.burstLen ∧ sh.burstLen ≤ 16 := by
  obtain ⟨-, -, hpos, hmax, -⟩ := h
  obtain ⟨-, -, hmax16, -⟩ := hp
  exact ⟨hpos, hmax.trans hmax16⟩

/-- The numbers of two legal shapes fit the widths of R131. -/
theorem ccrFields_fit {p : Params} {src dst : Shape} (hp : p.legal) (hsrc : src.Legal p) (hdst : dst.Legal p) :
    ∀ x ∈ ccrFields CcrLayout.spec src dst, x.2 < 2 ^ x.1.len := by
  have hsrcSize := (hsrc.log2_burstSize hp).2
  have hdstSize := (hdst.log2_burstSize hp).2
  have hsrcLen := hsrc.burstLen_bounds hp
  have hdstLen := hdst.burstLen_bounds hp
  obtain ⟨-, -, -, -, hsrcProt, hsrcCache⟩ := hsrc
  obtain ⟨-, -, -, -, hdstProt, hdstCache⟩ := hdst
  simp only [ccrFields, CcrLayout.spec, List.forall_mem_cons, List.not_mem_nil, false_imp_iff, implies_true, and_true]
  have hsrcInc := Bool.toNat_lt src.inc
  have hdstInc := Bool.toNat_lt dst.inc
  omega

theorem CcrLayout.spec_legal : CcrLayout.spec.legal := by decide

/-- Every field of the packed word holds its number (R131, R136). -/
theorem get_packCcr {p : Params} {src dst : Shape} (hp : p.legal) (hsrc : src.Legal p) (hdst : dst.Legal p) :
    ∀ x ∈ ccrFields CcrLayout.spec src dst, x.1.get (packCcr CcrLayout.spec src dst) = x.2 := by
  obtain ⟨-, hword, hapart⟩ := CcrLayout.spec_legal
  rw [← map_fst_ccrFields CcrLayout.spec src dst] at hword hapart
  rw [packCcr_eq_putAll]
  exact BitField.get_putAll (List.forall_mem_map.1 hword) (ccrFields_fit hp hsrc hdst) hapart

/-- A field of one bit holds that bit. -/
theorem getLsbD_of_get_eq_toNat {i : Nat} {v : Word} {b : Bool} (h : BitField.get ⟨i, 1⟩ v = b.toNat) :
    v.getLsbD i = b := by
  have hbit : v.extractLsb' i 1 = BitVec.ofBool b := BitVec.eq_of_toNat_eq (by simpa [BitField.get] using h)
  simpa using congrArg (·.getLsbD 0) hbit

/-- Settles O14: the eleven numbers read back by `get_packCcr`; size and length follow from their codes. -/
theorem ccrHoldsEachSidesFields : Obligations.CcrHoldsEachSidesFields := by
  intro p cfg ccr hp hlayout hccr
  obtain ⟨⟨hsrc, hdst⟩, rfl⟩ := buildCcr_eq_ok_iff.1 hccr
  rw [hlayout]
  have hget := get_packCcr hp hsrc hdst
  generalize packCcr CcrLayout.spec cfg.srcShape cfg.dstShape = ccr at hget
  simp only [ccrFields, CcrLayout.spec, List.forall_mem_cons] at hget
  obtain ⟨hsrcInc, hsrcSize, hsrcLen, hsrcProt, hsrcCache, hdstInc, hdstSize, hdstLen, hdstProt, hdstCache, hendian, -⟩ :=
    hget
  have hsize {sh : Shape} {n : Nat} (h : sh.Legal p) (hn : n = Nat.log2 sh.burstSize) : 2 ^ n = sh.burstSize :=
    hn ▸ (h.log2_burstSize hp).1
  have hlen {sh : Shape} {n : Nat} (h : sh.Legal p) (hn : n = sh.burstLen - 1) : n + 1 = sh.burstLen :=
    hn ▸ Nat.sub_add_cancel (h.burstLen_bounds hp).1
  exact ⟨⟨getLsbD_of_get_eq_toNat hsrcInc, hsize hsrc hsrcSize, hlen hsrc hsrcLen, hsrcProt, hsrcCache⟩,
    ⟨getLsbD_of_get_eq_toNat hdstInc, hsize hdst hdstSize, hlen hdst hdstLen, hdstProt, hdstCache⟩,
    BitVec.eq_of_toNat_eq hendian⟩

/-! ## The preset -/

/-- The shape of both sides of a preset config is legal under the parameter values of R9. -/
theorem legal_presetShape : Shape.Legal Params.spec ⟨16, 16, true, 0, 0⟩ := ⟨⟨4, rfl⟩, by decide⟩

/-- Settles O12: the shapes are those of `legal_presetShape` for every source, destination and size. -/
theorem presetCcrValue : Obligations.PresetCcrValue := by
  intro src dst size
  have hpack : packCcr CcrLayout.spec ⟨16, 16, true, 0, 0⟩ ⟨16, 16, true, 0, 0⟩ = 0x003E40F9 := by decide
  exact buildCcr_eq_ok_iff.2 ⟨⟨legal_presetShape, legal_presetShape⟩, hpack⟩

end Sys2Proof.Machine

/-! PROOFS. The loop decomposition engine: the nests of a burst count, the bytes a nest comes to, and the program around
them. -/
namespace Sys2Proof.Machine

/-! ## The nests of a burst count -/

/-- The two counts of a nest are counts a loop counter takes (R9, R79). -/
abbrev CountsInRange (nest : Nat × Nat) : Prop :=
  1 ≤ nest.1 ∧ nest.1 ≤ 256 ∧ 1 ≤ nest.2 ∧ nest.2 ≤ 256

/-- `remainderNests` with `LOOP_MAX` as a numeral. -/
theorem remainderNests_eq (r : Nat) :
    remainderNests r = (if 256 ≤ r then [(r / 256, 256)] else []) ++ (if 0 < r % 256 then [(1, r % 256)] else []) := rfl

/-- `nests` with `FULL` and `LOOP_MAX` as numerals. -/
theorem nests_eq (count : Nat) :
    nests count = List.replicate (count / 65536) (256, 256) ++ remainderNests (count % 65536) := rfl

theorem mem_remainderNests {r : Nat} {n : Nat × Nat} :
    n ∈ remainderNests r ↔ (256 ≤ r ∧ n = (r / 256, 256)) ∨ (0 < r % 256 ∧ n = (1, r % 256)) := by
  simp [remainderNests_eq]

/-- What full blocks leave is run completely: `r / 256` rounds of 256, then the rest of less than 256 (R154). -/
theorem sum_remainderNests (r : Nat) : ((remainderNests r).map fun n => n.1 * n.2).sum = r := by
  have hrounds : ((if 256 ≤ r then [(r / 256, 256)] else []).map fun n => n.1 * n.2).sum = r / 256 * 256 := by
    split
    · simp
    · next h => simp [Nat.div_eq_of_lt (Nat.not_le.1 h)]
  have hrest : ((if 0 < r % 256 then [(1, r % 256)] else []).map fun n => n.1 * n.2).sum = r % 256 := by
    split
    · simp
    · next h => simp [Nat.eq_zero_of_not_pos h]
  rw [remainderNests_eq, List.map_append, List.sum_append, hrounds, hrest, Nat.div_add_mod']

theorem sum_nests (count : Nat) : ((nests count).map fun n => n.1 * n.2).sum = count := by
  rw [nests_eq, List.map_append, List.sum_append, sum_remainderNests, List.map_replicate, List.sum_replicate, smul_eq_mul]
  exact Nat.div_add_mod' count 65536

theorem countsInRange_nests (count : Nat) : ∀ n ∈ nests count, CountsInRange n := by
  intro n hn
  rw [nests_eq, List.mem_append, mem_remainderNests] at hn
  rcases hn with hfull | ⟨hrounds, rfl⟩ | ⟨hrest, rfl⟩
  · rw [List.eq_of_mem_replicate hfull]
    decide
  · dsimp only [CountsInRange]
    omega
  · dsimp only [CountsInRange]
    omega

theorem length_remainderNests_le (r : Nat) : (remainderNests r).length ≤ 2 := by
  rw [remainderNests_eq]
  split <;> split <;> simp

/-- Of what full blocks leave, only the rounds of 256 are a nest with that inner count: the rest is less than 256. -/
theorem filter_remainderNests {r : Nat} (hr : 256 ≤ r) :
    (remainderNests r).filter (fun n => n.2 = 256) = [(r / 256, 256)] := by
  have hrest : r % 256 ≠ 256 := (Nat.mod_lt r (by decide)).ne
  rw [remainderNests_eq, if_pos hr]
  split <;> simp [hrest]

/-- Settles O16: one lemma a clause, each from what `remainderNests` does with the rest of the full blocks. -/
theorem nestsRunTheBurstCount : Obligations.NestsRunTheBurstCount := by
  intro count
  have hlen : (nests count).length ≤ count / 65536 + 2 := by
    rw [nests_eq, List.length_append, List.length_replicate]
    exact Nat.add_le_add_left (length_remainderNests_le _) _
  exact ⟨sum_nests count, countsInRange_nests count, Nat.mod_lt count (by decide), hlen,
    fun hrounds => congrArg List.length (filter_remainderNests hrounds)⟩

/-! ## Emissions put one after another -/

@[simp] theorem off_advance (c : Cursor) (e : EncCall) (n : Nat) : (c.advance e n).off = c.off + n := by
  cases e with
  | lp r count => simp only [Cursor.advance]; split <;> rfl
  | _ => rfl

/-- An emission moves the cursor by what it writes. -/
theorem off_emitAll {o : Opc} {origin : BjumpOrigin} {items : List Emit} {c c' : Cursor} {bytes : List Byte}
    (h : emitAll o origin items c = some (bytes, c')) : c'.off = c.off + bytes.length := by
  induction items generalizing c bytes with
  | nil =>
    obtain ⟨rfl, rfl⟩ := Prod.mk.inj (Option.some.inj h)
    rfl
  | cons item items ih =>
    obtain ⟨e, first, rest, -, -, hrest, rfl⟩ := emitAll_cons_eq_some h
    rw [ih hrest, off_advance, List.length_append, Nat.add_assoc]

theorem emitAll_append_of_eq_some {o : Opc} {origin : BjumpOrigin} {xs ys : List Emit} {c c₁ c₂ : Cursor}
    {bytes more : List Byte} (hxs : emitAll o origin xs c = some (bytes, c₁))
    (hys : emitAll o origin ys c₁ = some (more, c₂)) : emitAll o origin (xs ++ ys) c = some (bytes ++ more, c₂) := by
  simp [emitAll_append, hxs, hys]

/-! ## The bytes of a loop -/

/-- A loop of `count` iterations on loop register `r` around `body`. -/
def loopItems (r count : Nat) (body : List Emit) : List Emit := [.call (.lp r count)] ++ body ++ [.loopEnd r]

/-- The bytes of a loop around a body that comes to `body`: the loop-end jumps back over the body, and over itself where
the backjump counts from behind it (R156). -/
def loopCode (o : Opc) (origin : BjumpOrigin) (r count : Nat) (body : List Byte) : List Byte :=
  [o.lp ||| (BitVec.ofNat 8 r <<< o.lpLoop), BitVec.ofNat 8 (count - 1)] ++ body ++
    [o.lpend ||| (BitVec.ofNat 8 r <<< o.lpendLoop) ||| o.condBits 0, BitVec.ofNat 8 (backjump origin body.length 0)]

theorem backjump_add (origin : BjumpOrigin) (s n : Nat) : backjump origin (s + n) s = backjump origin n 0 := by
  cases origin with
  | afterLpend => show s + n + 2 - s = n + 2 - 0; omega
  | atLpend => show s + n - s = n - 0; omega

theorem backjump_zero_bounds (origin : BjumpOrigin) (n : Nat) :
    n ≤ backjump origin n 0 ∧ backjump origin n 0 ≤ n + 2 := by
  cases origin with
  | afterLpend => exact ⟨Nat.le_add_right n 2, Nat.le_refl _⟩
  | atLpend => exact ⟨Nat.le_refl n, Nat.le_add_right n 2⟩

/-- A loop-start leaves where its loop's body starts in its loop record (R23). -/
theorem lr_advance_lp {r : Nat} (hr : r ≤ 1) (c : Cursor) (count n : Nat) :
    (c.advance (.lp r count) n).lr r = some ⟨BitVec.ofNat 8 (count - 1), c.off + n⟩ := by
  obtain rfl | rfl : r = 0 ∨ r = 1 := by omega
  · rfl
  · rfl

/-- A loop around a body of 1 to 253 bytes that leaves the loop's record alone is emitted: its loop-end finds the start
of the body in the record, and the distance is a backjump of 1 to 255 (R159). -/
theorem emitAll_loopItems {o : Opc} {origin : BjumpOrigin} {r count : Nat} {body : List Emit} {bytes : List Byte}
    {c c₁ : Cursor} (hr : r ≤ 1) (hcount : 1 ≤ count ∧ count ≤ 256)
    (hbody : emitAll o origin body (c.advance (.lp r count) 2) = some (bytes, c₁))
    (hlr : c₁.lr r = (c.advance (.lp r count) 2).lr r) (hlen : 1 ≤ bytes.length ∧ bytes.length ≤ 253) :
    emitAll o origin (loopItems r count body) c =
      some (loopCode o origin r count bytes, { c₁ with off := c₁.off + 2 }) := by
  have hjump := backjump_zero_bounds origin bytes.length
  have hstart : encBytes o (.lp r count) = .ok _ := encLp_eq_ok_iff.2 ⟨hr, hcount, rfl⟩
  have hend : encBytes o (.lpend r 0 0 (backjump origin bytes.length 0)) = .ok _ :=
    encLpend_eq_ok_iff.2 ⟨hr, rfl, by decide, by omega, rfl⟩
  have hcall : c₁.callOf origin (.loopEnd r) = some (.lpend r 0 0 (backjump origin bytes.length 0)) := by
    rw [Cursor.callOf, hlr, lr_advance_lp hr, off_emitAll hbody, off_advance, Option.map_some, backjump_add]
  refine emitAll_append_of_eq_some (emitAll_append_of_eq_some (emitAll_call origin c hstart) hbody) ?_
  simp [emitAll, hcall, hend, Cursor.advance]

/-! ## The bytes of a nest -/

/-- The body of every nest: load, barrier, store, barrier (R155). -/
def burstItems : List Emit := [.call .ld, .call .rmb, .call .st, .call .wmb]

def burstCode (o : Opc) : List Byte := [o.ld, o.rmb, o.st, o.wmb]

theorem emitAll_burstItems (o : Opc) (origin : BjumpOrigin) (c : Cursor) :
    emitAll o origin burstItems c = some (burstCode o, { c with off := c.off + 4 }) := rfl

/-- The inner loop is on loop register 0, around one burst (R156, R158). -/
theorem nestItems_of_not_lt {outer : Nat} (inner : Nat) (h : ¬ 1 < outer) :
    nestItems (outer, inner) = loopItems 0 inner burstItems := by
  simp [nestItems, h, loopItems, burstItems]

/-- The outer loop, where there is one, is on loop register 1, around the inner loop (R156, R158). -/
theorem nestItems_of_lt {outer : Nat} (inner : Nat) (h : 1 < outer) :
    nestItems (outer, inner) = loopItems 1 outer (loopItems 0 inner burstItems) := by
  simp [nestItems, h, loopItems, burstItems]

/-- The bytes of a nest: one loop, or two. -/
def nestCode (o : Opc) (origin : BjumpOrigin) (nest : Nat × Nat) : List Byte :=
  let innerLoop := loopCode o origin 0 nest.2 (burstCode o)
  if 1 < nest.1 then loopCode o origin 1 nest.1 innerLoop else innerLoop

/-- A nest is emitted from any cursor: the inner loop leaves the record of the outer one alone. -/
theorem emitAll_nestItems (o : Opc) (origin : BjumpOrigin) {nest : Nat × Nat} (hnest : CountsInRange nest) (c : Cursor) :
    ∃ c', emitAll o origin (nestItems nest) c = some (nestCode o origin nest, c') := by
  obtain ⟨outer, inner⟩ := nest
  obtain ⟨houter, houter', hinner, hinner'⟩ := hnest
  have hinnerLoop (c : Cursor) := emitAll_loopItems (Nat.zero_le 1) ⟨hinner, hinner'⟩
    (emitAll_burstItems o origin (c.advance (.lp 0 inner) 2)) rfl (by decide : 1 ≤ 4 ∧ 4 ≤ 253)
  by_cases h : 1 < outer
  · rw [nestItems_of_lt inner h, nestCode, if_pos h]
    exact ⟨_, emitAll_loopItems (Nat.le_refl 1) ⟨houter, houter'⟩ (hinnerLoop _) rfl (by decide : 1 ≤ 8 ∧ 8 ≤ 253)⟩
  · rw [nestItems_of_not_lt inner h, nestCode, if_neg h]
    exact ⟨_, hinnerLoop c⟩

/-- Settles O17: the bytes of `emitAll_nestItems` under the values of R72, by the shape and the origin. (`nestBytes` is the
model's n(B).) -/
theorem nestBytesAtAnyCursor : Obligations.NestBytes := by
  intro outer inner cur houter houter' hinner hinner' origin
  obtain ⟨cur', hemit⟩ := emitAll_nestItems Opc.spec origin (nest := (outer, inner)) ⟨houter, houter', hinner, hinner'⟩ cur
  refine ⟨cur', hemit.trans ?_, ?_⟩
  · by_cases h : 1 < outer
    · simp only [nestCode, if_pos h]
      cases origin <;> rfl
    · simp only [nestCode, if_neg h]
      cases origin <;> rfl
  · rw [off_emitAll hemit, length_emitAll hemit, size_nestItems]
    rfl

/-! ## The bytes of a burst count -/

theorem emitAll_flatMap_nestItems (o : Opc) (origin : BjumpOrigin) {ns : List (Nat × Nat)}
    (hns : ∀ n ∈ ns, CountsInRange n) (c : Cursor) :
    ∃ c', emitAll o origin (ns.flatMap nestItems) c = some (ns.flatMap (nestCode o origin), c') := by
  induction ns generalizing c with
  | nil => exact ⟨c, rfl⟩
  | cons nest ns ih =>
    rw [List.forall_mem_cons] at hns
    obtain ⟨c₁, hfirst⟩ := emitAll_nestItems o origin hns.1 c
    obtain ⟨c₂, hrest⟩ := ih hns.2 c₁
    exact ⟨c₂, emitAll_append_of_eq_some hfirst hrest⟩

theorem emitAll_decomposeItems (o : Opc) (origin : BjumpOrigin) (count : Nat) (c : Cursor) :
    ∃ bytes c', emitAll o origin (decomposeItems count) c = some (bytes, c') ∧ bytes.length = nestBytes count := by
  obtain ⟨c', hemit⟩ := emitAll_flatMap_nestItems o origin (countsInRange_nests count) c
  exact ⟨_, c', hemit, (length_emitAll hemit).trans (size_decomposeItems count)⟩

/-- Settles O18: the nests are emitted one after another, and `size_decomposeItems` counts their bytes. -/
theorem decomposeLength : Obligations.DecomposeLength := by
  intro o count origin cur
  obtain ⟨bytes, cur', hemit, hlen⟩ := emitAll_decomposeItems o origin count cur
  exact ⟨bytes, cur', hemit, off_emitAll hemit, hlen⟩

/-! ## The compiled program -/

/-- A legal shape moves at least one byte per burst (R133, R134). -/
theorem Shape.Legal.bpb_pos {p : Params} {sh : Shape} (h : sh.Legal p) : 0 < sh.bpb := by
  obtain ⟨⟨k, hk⟩, -, hlen, -⟩ := h
  exact Nat.mul_pos (hk ▸ Nat.two_pow_pos k) hlen

theorem burstCount_of_pos {cfg : TransferConfig} (h : 0 < cfg.srcShape.bpb) :
    burstCount cfg = cfg.size.toNat / cfg.srcShape.bpb := if_neg h.ne'

/-- A config that passes the checks has a legal source side: they begin with BuildCCR's (R171). -/
theorem legal_srcShape_of_compileChecks {p : Params} {cfg : TransferConfig} {ccr : Word}
    (h : compileChecks p cfg = .ok ccr) : cfg.srcShape.Legal p := by
  obtain ⟨_, hccr, -⟩ := except_bind_ok h
  exact (buildCcr_eq_ok_iff.1 hccr).1.1

/-- The three DMAMOVs at the head of a program come to 18 bytes and touch no loop record (R172). -/
theorem emitAll_moves (o : Opc) (origin : BjumpOrigin) (ccr src dst : Word) :
    emitAll o origin [.call (.mov 1 ccr), .call (.mov 0 src), .call (.mov 2 dst)] ⟨0, none, none⟩ =
      some ([o.mov, o.ccr] ++ bytesLe32 ccr ++ [o.mov, o.sar] ++ bytesLe32 src ++ [o.mov, o.dar] ++ bytesLe32 dst,
        ⟨18, none, none⟩) := rfl

/-- The completion event and DMAEND at a program's tail (R172). -/
theorem emitAll_tail (o : Opc) (origin : BjumpOrigin) {event : Nat} (h : event ≤ 31) (c : Cursor) :
    ∃ c', emitAll o origin [.call (.sev event), .call .fin] c = some ([o.sev, BitVec.ofNat 8 event <<< 3, o.fin], c') :=
  have hsev : encBytes o (.sev event) = .ok _ := encSev_eq_ok_iff.2 ⟨h, rfl⟩
  ⟨_, emitAll_append_of_eq_some (emitAll_call origin c hsev) (emitAll_call origin _ rfl)⟩

/-- Settles O19: the program is the moves, the nests from offset 18 and the tail, emitted one after another. -/
theorem compiledProgramLayout : Obligations.CompiledProgramLayout := by
  intro p cfg ccr hopc hchecks hevent
  obtain ⟨body, cur', hbody, hlen⟩ := emitAll_decomposeItems p.opc p.bjumpOrigin (burstCount cfg) ⟨18, none, none⟩
  obtain ⟨cend, htail⟩ := emitAll_tail p.opc p.bjumpOrigin hevent cur'
  have hmoves := emitAll_moves p.opc p.bjumpOrigin ccr cfg.src cfg.dst
  have hprogram := emitAll_append_of_eq_some (emitAll_append_of_eq_some hmoves hbody) htail
  refine ⟨burstCount_of_pos (legal_srcShape_of_compileChecks hchecks).bpb_pos, body, hlen, ⟨cur', hbody⟩, ?_⟩
  rw [compileBytes, hchecks]
  refine (congrArg (Option.map Prod.fst) hprogram).trans ?_
  rw [hopc]
  rfl

end Sys2Proof.Machine

/-! PROOFS. The compiler: its emission run step by step, and the program it writes read off its bytes. -/
namespace Sys2Proof.Machine

/-! ## What a config that compiles has passed -/

/-- Bytes come from a config that passes every check, and are the emission of its items. -/
theorem compileBytes_eq_some {p : Params} {cfg : TransferConfig} {bytes : List Byte}
    (h : compileBytes p cfg = some bytes) :
    ∃ ccr c, compileChecks p cfg = .ok ccr ∧
      emitAll p.opc p.bjumpOrigin (compileItems p cfg ccr) ⟨0, none, none⟩ = some (bytes, c) := by
  unfold compileBytes at h
  split at h
  · cases h
  · next ccr hccr =>
    obtain ⟨⟨_, c⟩, hemit, rfl⟩ := Option.map_eq_some_iff.1 h
    exact ⟨ccr, c, hccr, hemit⟩

/-- The engine's checks pass on a size of whole bursts that come to the same bytes on both sides (R152, R153). -/
theorem checkDecompose_eq_ok {cfg : TransferConfig} (h : checkDecompose cfg = .ok ()) :
    remainder cfg.size.toNat cfg.srcShape.bpb = 0 ∧ cfg.dstShape.bpb = cfg.srcShape.bpb := by
  unfold checkDecompose at h
  split at h
  · cases h
  · split at h
    · cases h
    · next hsize =>
      split at h
      · cases h
      · next hshape => exact ⟨not_not.1 hsize, not_not.1 hshape⟩

theorem compileChecks_eq_ok {p : Params} {cfg : TransferConfig} {ccr : Word} (h : compileChecks p cfg = .ok ccr) :
    buildCcr p cfg = .ok ccr ∧ checkDecompose cfg = .ok () := by
  obtain ⟨_, hccr, h⟩ := except_bind_ok h
  obtain ⟨⟨⟩, hcheck, h⟩ := except_bind_ok h
  exact ⟨Except.ok.inj h ▸ hccr, hcheck⟩

/-! ## A Compile run step by step -/

theorem startOp_compile (s : State) (i : Nat) {buf : Buffer} {cfg : TransferConfig} {ccr : Word}
    (hfree : s.bufferInFlight buf = false) (h : compileChecks s.params cfg = .ok ccr) :
    s.startOp i (.compile buf cfg) =
      s.beginEmission i buf 0 (programLength cfg) (compileItems s.params cfg ccr) true := by
  simp [State.startOp, State.startCompile, hfree, h]

/-- A program's items come to the length Compile returns (R174). -/
theorem size_compileItems (p : Params) (cfg : TransferConfig) (ccr : Word) :
    ((compileItems p cfg ccr).map Emit.size).sum = programLength cfg := by
  rw [compileItems, List.map_append, List.map_append, List.sum_append, List.sum_append, size_decomposeItems,
    programLength]
  show 18 + _ + 3 = _
  omega

/-- Settles O20: a Compile is an emission of `programLength` bytes from offset 0, and an emission runs to its end. -/
theorem compileRunWritesTheProgram : Obligations.CompileRunWritesTheProgram := by
  intro s i buf cfg bytes habout hflight hfree hbytes hcap
  obtain ⟨ccr, c, hchecks, hemit⟩ := compileBytes_eq_some hbytes
  have hlen : bytes.length = programLength cfg := (length_emitAll hemit).trans (size_compileItems ..)
  obtain ⟨hreturned, hwritten⟩ := hostRun_emission (compiling := true) habout
    (fun f => startOp_compile (s.modifyHost i f) i hflight hchecks) hflight hemit (by rwa [Nat.zero_add]) hfree
  exact ⟨_, _, rfl, hreturned, hwritten.mem, hwritten.trace, hwritten.chans,
    hwritten.mem_stored fun x hx => by simp only [AddrRange.has, decide_eq_true_eq] at hx; omega⟩

/-! ## The instructions an emission writes -/

/-- An instruction with its backjump forgotten: only that depends on where a loop-end is emitted. -/
def withoutJump : Instr → Instr
  | .dmalpend lc _ => .dmalpend lc 0
  | .dmalpends lc _ => .dmalpends lc 0
  | .dmalpendb lc _ => .dmalpendb lc 0
  | i => i

/-- The instruction of an item, its backjump forgotten. -/
def Emit.instr : Emit → Instr
  | .call e => withoutJump e.instr
  | .loopEnd r => .dmalpend (loopRegOfNat r) 0

theorem withoutJump_eq_dmaend {i : Instr} : withoutJump i = .dmaend ↔ i = .dmaend := by
  cases i <;> simp [withoutJump]

theorem withoutJump_instr_of_callOf {c : Cursor} {origin : BjumpOrigin} {item : Emit} {e : EncCall}
    (h : c.callOf origin item = some e) : withoutJump e.instr = item.instr := by
  cases item with
  | call e' => rw [Option.some.inj h]; rfl
  | loopEnd r =>
    obtain ⟨lrec, -, rfl⟩ := Option.map_eq_some_iff.1 h
    rfl

/-- What an emission writes are the encodings of well-formed instructions, one for each item. -/
theorem emitAll_eq_encodings {o : Opc} {origin : BjumpOrigin} {items : List Emit} {c c' : Cursor} {bytes : List Byte}
    (h : emitAll o origin items c = some (bytes, c')) :
    ∃ is : List Instr, bytes = is.flatMap (encode o) ∧ (∀ i ∈ is, i.wf = true) ∧
      is.map withoutJump = items.map Emit.instr := by
  induction items generalizing c bytes with
  | nil =>
    obtain ⟨rfl, -⟩ := Prod.mk.inj (Option.some.inj h)
    exact ⟨[], rfl, nofun, rfl⟩
  | cons item items ih =>
    obtain ⟨e, first, rest, hcall, hfirst, hrest, rfl⟩ := emitAll_cons_eq_some h
    obtain ⟨hwf, rfl⟩ := encodeOperationsWriteTheEncoding o e first hfirst
    obtain ⟨is, rfl, hiswf, his⟩ := ih hrest
    exact ⟨e.instr :: is, rfl, List.forall_mem_cons.2 ⟨hwf, hiswf⟩,
      congrArg₂ List.cons (withoutJump_instr_of_callOf hcall) his⟩

/-! ## The walk over a program's bytes -/

/-- Over the encodings of instructions that end in the first DMAEND, the walk gives these instructions and the address
behind them. -/
theorem instrsAt_encodings {o : Opc} (ho : o.legal) {m : Memory} {is : List Instr} {fuel pc : Nat} {code : List Byte}
    (hcode : code = (is ++ [Instr.dmaend]).flatMap (encode o)) (hwf : ∀ i ∈ is, i.wf = true)
    (hend : ∀ i ∈ is, i ≠ .dmaend) (hread : Memory.readBytes m pc code.length = code)
    (hspace : pc + code.length ≤ addrSpace) (hfuel : code.length ≤ fuel) :
    instrsAt o m fuel pc = (is ++ [.dmaend], pc + code.length) := by
  induction is generalizing fuel pc code with
  | nil =>
    have hlen : code.length = 1 := by rw [hcode]; rfl
    obtain ⟨fuel, rfl⟩ := Nat.exists_eq_add_of_le' (hlen ▸ hfuel)
    rw [hlen] at hspace hread ⊢
    exact instrsAt_dmaend hspace (fun rest => decodeOfEncodeGivesTheInstruction o _ rest ho rfl)
      (hread.trans hcode)
  | cons i is ih =>
    rw [List.forall_mem_cons] at hwf hend
    rw [List.cons_append, List.flatMap_cons] at hcode
    generalize hrest : (is ++ [Instr.dmaend]).flatMap (encode o) = rest at hcode
    subst hcode
    have hpos : 1 ≤ (encode o i).length := Nat.le_add_left 1 _
    rw [List.length_append] at hread hspace hfuel ⊢
    rw [Memory.readBytes_add] at hread
    obtain ⟨hfirst, hread⟩ := List.append_inj hread (by simp)
    obtain ⟨fuel, rfl⟩ : ∃ k, fuel = k + 1 := ⟨fuel - 1, by omega⟩
    rw [instrsAt_cons (by omega) hend.1 (fun rest => decodeOfEncodeGivesTheInstruction o i rest ho hwf.1) hfirst,
      ih hrest.symm hwf.2 hend.2 hread (by omega) (by omega), Nat.add_assoc]
    rfl

/-! ## What a program's instructions reach -/

/-- What is reached does not depend on where a loop-end jumps. -/
theorem next_withoutJump (l : CcrLayout) (r : Reach) (i : Instr) : r.next l (withoutJump i) = r.next l i := by
  cases i <;> rfl

theorem reachOf_map_withoutJump (l : CcrLayout) (is : List Instr) : reachOf l (is.map withoutJump) = reachOf l is := by
  simp [reachOf, List.foldl_map, next_withoutJump]

/-- The ranges together are the `n` addresses from `base` on. -/
def RangesCover (rs : List AddrRange) (base n : Nat) : Prop :=
  ∀ x, (rs.any fun r => r.has x) = true ↔ base ≤ x ∧ x < base + n

theorem RangesCover.nil (base : Nat) : RangesCover [] base 0 := fun x => by simp

theorem RangesCover.append {rs : List AddrRange} {base n : Nat} (h : RangesCover rs base n) (k : Nat) :
    RangesCover (rs ++ [⟨base + n, k⟩]) base (n + k) := by
  intro x
  rw [List.any_append, Bool.or_eq_true, h x]
  simp only [List.any_cons, List.any_nil, Bool.or_false, AddrRange.has, decide_eq_true_eq]
  omega

/-- Outside any loop, with bursts as `ccr` describes them, the program has moved `n` bytes from `src` to `dst`, one
behind the other. -/
structure Reach.Moved (r : Reach) (ccr : Word) (src dst n : Nat) : Prop where
  ccr_eq : r.ccr = some ccr
  sar_eq : r.sar = some (src + n)
  dar_eq : r.dar = some (dst + n)
  n0_eq : r.n0 = 1
  n1_eq : r.n1 = 1
  src_cover : RangesCover r.src src n
  dst_cover : RangesCover r.dst dst n

/-- A loop is open on its register while its body is walked over (R23, R156). -/
theorem foldl_loopItems (l : CcrLayout) (r : Reach) (lc count : Nat) (body : List Emit) :
    ((loopItems lc count body).map Emit.instr).foldl (Reach.next l) r =
      ((body.map Emit.instr).foldl (Reach.next l) (r.loop (loopRegOfNat lc) count)).loop (loopRegOfNat lc) 1 := by
  simp [loopItems, Emit.instr, EncCall.instr, withoutJump, Reach.next]

section
variable {l : CcrLayout} {ccr : Word} {src dst bpb : Nat}
  (hsrc : (srcBurst l ccr).bytes = bpb) (hdst : (dstBurst l ccr).bytes = bpb)
include hsrc hdst

/-- The body of a nest loads and stores a burst for each run of the open loops. -/
theorem foldl_burstItems {r : Reach} {a b : Nat} (hccr : r.ccr = some ccr) (hsar : r.sar = some a)
    (hdar : r.dar = some b) :
    (burstItems.map Emit.instr).foldl (Reach.next l) r = { r with
      sar := some (a + r.times * bpb)
      dar := some (b + r.times * bpb)
      src := r.src ++ [⟨a, r.times * bpb⟩]
      dst := r.dst ++ [⟨b, r.times * bpb⟩] } := by
  have hload := Reach.load_some l r hccr hsar
  have hstore := Reach.store_some l (r.load l) (ccr := ccr) (a := b) (by rw [hload]; exact hccr)
    (by rw [hload]; exact hdar)
  show (r.load l).store l = _
  rw [hstore, hload, hsrc, hdst]
  rfl

/-- A nest loads and stores `outer * inner` bursts and closes its loops (R164). -/
theorem foldl_nestItems {r : Reach} {nest : Nat × Nat} (hnest : CountsInRange nest) {a b : Nat}
    (hccr : r.ccr = some ccr) (hsar : r.sar = some a) (hdar : r.dar = some b) (h0 : r.n0 = 1) (h1 : r.n1 = 1) :
    ((nestItems nest).map Emit.instr).foldl (Reach.next l) r = { r with
      sar := some (a + nest.1 * nest.2 * bpb)
      dar := some (b + nest.1 * nest.2 * bpb)
      src := r.src ++ [⟨a, nest.1 * nest.2 * bpb⟩]
      dst := r.dst ++ [⟨b, nest.1 * nest.2 * bpb⟩] } := by
  obtain ⟨rccr, rsar, rdar, n0, n1, rsrc, rdst⟩ := r
  obtain ⟨outer, inner⟩ := nest
  subst hccr hsar hdar h0 h1
  have hbody := foldl_burstItems hsrc hdst (r := ⟨some ccr, some a, some b, inner, outer, rsrc, rdst⟩) rfl rfl rfl
  by_cases h : 1 < outer
  · rw [nestItems_of_lt inner h, foldl_loopItems, foldl_loopItems]
    exact congrArg (fun r => (r.loop .lc0 1).loop .lc1 1) hbody
  · obtain rfl : outer = 1 := Nat.le_antisymm (Nat.not_lt.1 h) hnest.1
    rw [nestItems_of_not_lt inner h, foldl_loopItems]
    exact congrArg (fun r => r.loop .lc0 1) hbody

theorem Reach.Moved.after_nest {r : Reach} {n : Nat} (h : r.Moved ccr src dst n) {nest : Nat × Nat}
    (hnest : CountsInRange nest) :
    (((nestItems nest).map Emit.instr).foldl (Reach.next l) r).Moved ccr src dst (n + nest.1 * nest.2 * bpb) := by
  rw [foldl_nestItems hsrc hdst hnest h.ccr_eq h.sar_eq h.dar_eq h.n0_eq h.n1_eq]
  exact ⟨h.ccr_eq, congrArg some (Nat.add_assoc ..), congrArg some (Nat.add_assoc ..), h.n0_eq, h.n1_eq,
    h.src_cover.append _, h.dst_cover.append _⟩

theorem Reach.Moved.after_nests {ns : List (Nat × Nat)} (hns : ∀ nest ∈ ns, CountsInRange nest) {r : Reach} {n : Nat}
    (h : r.Moved ccr src dst n) :
    (((ns.flatMap nestItems).map Emit.instr).foldl (Reach.next l) r).Moved ccr src dst
      (n + (ns.map fun nest => nest.1 * nest.2).sum * bpb) := by
  induction ns generalizing r n with
  | nil => simpa using h
  | cons nest ns ih =>
    rw [List.forall_mem_cons] at hns
    rw [List.flatMap_cons, List.map_append, List.foldl_append, List.map_cons, List.sum_cons, Nat.add_mul,
      ← Nat.add_assoc]
    exact ih hns.2 (h.after_nest hsrc hdst hns.1)

/-- The items of a burst count move that many bursts. -/
theorem Reach.Moved.after_decomposeItems {r : Reach} {n : Nat} (h : r.Moved ccr src dst n) (count : Nat) :
    (((decomposeItems count).map Emit.instr).foldl (Reach.next l) r).Moved ccr src dst (n + count * bpb) := by
  have hmoved := h.after_nests hsrc hdst (countsInRange_nests count)
  rwa [sum_nests] at hmoved

end

/-- The bursts that a built CCR describes move the bytes per burst of their side's shape (R131, R151). -/
theorem bytes_burst_of_buildCcr {p : Params} {cfg : TransferConfig} {ccr : Word} (hp : p.legal)
    (hlayout : p.ccrLayout = CcrLayout.spec) (h : buildCcr p cfg = .ok ccr) :
    (srcBurst p.ccrLayout ccr).bytes = cfg.srcShape.bpb ∧ (dstBurst p.ccrLayout ccr).bytes = cfg.dstShape.bpb := by
  obtain ⟨⟨-, hsrcSize, hsrcLen, -⟩, ⟨-, hdstSize, hdstLen, -⟩, -⟩ := ccrHoldsEachSidesFields p cfg ccr hp hlayout h
  rw [hlayout, Shape.bpb, Shape.bpb, ← hsrcSize, ← hsrcLen, ← hdstSize, ← hdstLen]
  exact ⟨Nat.mul_comm _ _, Nat.mul_comm _ _⟩

/-- The bursts of a config that compiles come to its size (R151, R153). -/
theorem burstCount_mul_bpb {p : Params} {cfg : TransferConfig} {ccr : Word} (h : compileChecks p cfg = .ok ccr) :
    burstCount cfg * cfg.srcShape.bpb = cfg.size.toNat := by
  have hpos := (legal_srcShape_of_compileChecks h).bpb_pos
  obtain ⟨hsize, -⟩ := checkDecompose_eq_ok (compileChecks_eq_ok h).2
  rw [remainder, if_neg hpos.ne'] at hsize
  rw [burstCount_of_pos hpos, Nat.div_mul_cancel (Nat.dvd_of_mod_eq_zero hsize)]

/-- A program moves the transfer's bytes from its source to its destination. -/
theorem moved_compileItems {p : Params} {cfg : TransferConfig} {ccr : Word} (hp : p.legal)
    (hlayout : p.ccrLayout = CcrLayout.spec) (h : compileChecks p cfg = .ok ccr) :
    (reachOf p.ccrLayout ((compileItems p cfg ccr).map Emit.instr)).Moved ccr cfg.src.toNat cfg.dst.toNat
      cfg.size.toNat := by
  obtain ⟨hccr, hcheck⟩ := compileChecks_eq_ok h
  obtain ⟨hsrc, hdst⟩ := bytes_burst_of_buildCcr hp hlayout hccr
  rw [(checkDecompose_eq_ok hcheck).2] at hdst
  have hstart : (⟨some ccr, some cfg.src.toNat, some cfg.dst.toNat, 1, 1, [], []⟩ : Reach).Moved ccr cfg.src.toNat
      cfg.dst.toNat 0 := ⟨rfl, rfl, rfl, rfl, rfl, .nil _, .nil _⟩
  have hmoved := hstart.after_decomposeItems hsrc hdst (burstCount cfg)
  rw [burstCount_mul_bpb h, Nat.zero_add] at hmoved
  rw [reachOf, compileItems, List.map_append, List.map_append, List.foldl_append, List.foldl_append]
  exact hmoved

/-! ## A program read off its bytes -/

theorem ne_dmaend_of_mem_nestItems {nest : Nat × Nat} : ∀ item ∈ nestItems nest, item.instr ≠ .dmaend := by
  unfold nestItems
  split <;> simp [Emit.instr, EncCall.instr, withoutJump]

/-- DMAEND is the last item of a program and no other (R172, R175). -/
theorem exists_compileItems_eq (p : Params) (cfg : TransferConfig) (ccr : Word) :
    ∃ items, compileItems p cfg ccr = items ++ [.call .fin] ∧ ∀ item ∈ items, item.instr ≠ .dmaend := by
  refine ⟨[.call (.mov 1 ccr), .call (.mov 0 cfg.src), .call (.mov 2 cfg.dst)] ++ decomposeItems (burstCount cfg) ++
    [.call (.sev p.completionEvent)], by simp [compileItems], ?_⟩
  have hnests : ∀ item ∈ decomposeItems (burstCount cfg), item.instr ≠ .dmaend := fun item hitem =>
    have ⟨_, _, hmem⟩ := List.mem_flatMap.1 hitem
    ne_dmaend_of_mem_nestItems item hmem
  simp only [List.forall_mem_append]
  refine ⟨⟨?_, hnests⟩, ?_⟩ <;> simp [Emit.instr, EncCall.instr, withoutJump]

/-- What Compile writes are the encodings of well-formed instructions that end in their first DMAEND (R175). -/
theorem emitAll_compileItems_eq_encodings {p : Params} {cfg : TransferConfig} {ccr : Word} {bytes : List Byte}
    {c c' : Cursor} (h : emitAll p.opc p.bjumpOrigin (compileItems p cfg ccr) c = some (bytes, c')) :
    ∃ is : List Instr, bytes = (is ++ [Instr.dmaend]).flatMap (encode p.opc) ∧ (∀ i ∈ is, i.wf = true) ∧
      (∀ i ∈ is, i ≠ .dmaend) ∧ (is ++ [Instr.dmaend]).map withoutJump = (compileItems p cfg ccr).map Emit.instr := by
  obtain ⟨items, hitems, hnone⟩ := exists_compileItems_eq p cfg ccr
  obtain ⟨all, hcode, hwf, hall⟩ := emitAll_eq_encodings h
  have hsplit := hall
  rw [hitems, List.map_append, List.map_eq_append_iff] at hsplit
  obtain ⟨is, last, rfl, his, hlast⟩ := hsplit
  obtain ⟨e, rfl, he⟩ := List.map_eq_singleton_iff.1 hlast
  obtain rfl := withoutJump_eq_dmaend.1 he
  refine ⟨is, hcode, (List.forall_mem_append.1 hwf).1, fun i hi hend => ?_, hall⟩
  obtain ⟨item, hitem, heq⟩ := List.mem_map.1 (his ▸ List.mem_map_of_mem hi)
  exact hnone item hitem (heq.trans (withoutJump_eq_dmaend.2 hend))

theorem opc_legal_of_legal {p : Params} (h : p.legal) : p.opc.legal := by
  obtain ⟨-, -, -, -, -, -, -, -, -, hopc, -⟩ := h
  exact hopc

/-- Settles O22: the walk gives back the instructions Compile wrote, and these move the transfer's bytes. -/
theorem programIsReadOffItsBytes : Obligations.ProgramIsReadOffItsBytes := by
  intro s cfg bytes base hp hlayout hbytes hspace hread
  obtain ⟨ccr, c, hchecks, hemit⟩ := compileBytes_eq_some hbytes
  obtain ⟨is, hcode, hwf, hend, his⟩ := emitAll_compileItems_eq_encodings hemit
  have hwalk := instrsAt_encodings (opc_legal_of_legal hp) hcode hwf hend hread hspace (Nat.le_of_add_left_le hspace)
  have hmoved := moved_compileItems hp hlayout hchecks
  rw [← his, reachOf_map_withoutJump] at hmoved
  unfold State.programAt
  rw [hwalk]
  exact ⟨rfl, Nat.add_sub_cancel_left .., hmoved.src_cover, hmoved.dst_cover⟩

end Sys2Proof.Machine

/-! PROOFS. Starting a channel: what DMAGO does on the manager, and that nothing else makes a channel executing. -/
namespace Sys2Proof.Machine

/-! ## DMAGO on the manager -/

theorem exec_dmago_manager {s : State} {ns : Bool} {c : Fin 8} (addr : Word) (hcur : s.cur = .manager)
    (hc : c.val < s.params.nChannels) (hstop : (s.chan c).status = .stopped)
    (hsec : s.params.refuseSecureGo = true → ns = true) :
    exec (.dmago ns c.val addr) s = .next (s.setChan c (s.started ns addr)) := by
  have hgo : s.go ns c.val addr = .ok (s.setChan c (s.started ns addr)) := by
    rw [State.go, dif_pos c.isLt, if_pos ⟨hc, hstop, hsec⟩]
  simp only [exec, execDmago, hcur, hgo]

/-- Settles O40: the channel that DMAGO sets, written out. -/
theorem goStartsAStoppedChannel : Obligations.GoStartsAStoppedChannel :=
  fun _ _ _ addr hcur hc hstop hsec => exec_dmago_manager addr hcur hc hstop hsec

/-! ## What begins no channel's run -/

/-- Every channel that is executing in `t` was executing in `s`. -/
def NoneStarted (s t : State) : Prop := ∀ c, (t.chan c).status = .executing → (s.chan c).status = .executing

theorem NoneStarted.of_chans {s t : State} (h : t.chans = s.chans) : NoneStarted s t :=
  fun c => by simp [State.chan, h]

theorem NoneStarted.setChan (s : State) (d : Fin 8) {ch : Chan}
    (h : ch.status = .executing → (s.chan d).status = .executing) : NoneStarted s (s.setChan d ch) := by
  intro c hc
  rw [chan_setChan] at hc
  split at hc
  · next hcd => exact hcd ▸ h hc
  · exact hc

theorem NoneStarted.onChannel {s t : State} {f : Fin 8 → Except Fault State} (h : s.onChannel f = .next t)
    (hf : ∀ c u, f c = .ok u → NoneStarted s u) : NoneStarted s t := by
  obtain ⟨c, -, hc⟩ := onChannel_next h
  exact hf c t hc

/-- An instruction other than DMAGO keeps its thread's status, or ends its run. -/
theorem exec_noneStarted {i : Instr} {s t : State} (h : exec i s = .next t) (hi : ∀ ns chan addr, i ≠ .dmago ns chan addr) :
    NoneStarted s t := by
  cases i with
  | dmago ns chan addr => exact absurd rfl (hi ns chan addr)
  | dmalpends lc bjump => simp [exec, execDmalpends] at h
  | dmalpendb lc bjump => simp [exec, execDmalpendb] at h
  | dmaend =>
    refine .onChannel h fun c u hu => ?_
    split at hu
    · obtain rfl := Except.ok.inj hu; exact .setChan s c nofun
    · simp at hu
  | dmald =>
    refine .onChannel h fun c u hu => ?_
    obtain ⟨ccr, -, hu⟩ := except_bind_ok hu
    obtain ⟨sar, -, hu⟩ := except_bind_ok hu
    obtain ⟨bytes, -, hu⟩ := except_bind_ok hu
    obtain ⟨pc, -, hu⟩ := except_bind_ok hu
    obtain rfl := Except.ok.inj hu; exact .setChan s c id
  | dmast =>
    refine .onChannel h fun c u hu => ?_
    obtain ⟨ccr, -, hu⟩ := except_bind_ok hu
    dsimp only at hu
    split at hu
    · simp at hu
    · obtain ⟨dar, -, hu⟩ := except_bind_ok hu
      obtain ⟨mem, -, hu⟩ := except_bind_ok hu
      obtain ⟨pc, -, hu⟩ := except_bind_ok hu
      obtain rfl := Except.ok.inj hu; exact .setChan s c id
  | dmalpend lc bjump =>
    refine .onChannel h fun c u hu => ?_
    obtain ⟨count, -, hu⟩ := except_bind_ok hu
    split at hu
    all_goals
      obtain ⟨pc, -, hu⟩ := except_bind_ok hu
      obtain rfl := Except.ok.inj hu; exact .setChan s c (by simp)
  | dmarmb | dmawmb | dmalp | dmasev | dmamov =>
    refine .onChannel h fun c u hu => ?_
    obtain ⟨pc, -, hu⟩ := except_bind_ok hu
    obtain rfl := Except.ok.inj hu; exact .setChan s c (by simp)

/-- On a channel thread no instruction starts a channel: DMAGO completes on the manager only. -/
theorem exec_channel_noneStarted {i : Instr} {s t : State} {c : Fin 8} (h : exec i s = .next t)
    (hcur : s.cur = .channel c) : NoneStarted s t := by
  refine exec_noneStarted h ?_
  rintro ns chan addr rfl
  obtain ⟨hmgr, -⟩ := exec_dmago_next h
  cases hcur.symm.trans hmgr

theorem channelStep_noneStarted {s t : State} {c : Fin 8} (h : s.channelStep c = .next t) : NoneStarted s t := by
  rcases channelStep_next h with ⟨-, -, rfl⟩ | ⟨-, -, i, -, hexec⟩ | ⟨-, i, u, -, hexec, rfl⟩ | ⟨-, r, rfl⟩
  · exact .of_chans rfl
  · exact (exec_channel_noneStarted hexec rfl :)
  · exact (exec_channel_noneStarted hexec rfl :)
  · exact .setChan s c nofun

/-- An external controller reset leaves a channel Stopped or Faulted (R261). -/
theorem controllerReset_noneStarted (s : State) : NoneStarted s s.controllerReset := by
  intro c hc
  have hstatus : (s.controllerReset.chan c).status = statusAfterReset (s.chan c).status := by
    simp [State.chan, State.controllerReset, chanAfterReset]
  rw [hstatus] at hc
  cases hbefore : (s.chan c).status <;> simp [hbefore, statusAfterReset] at hc

theorem hostStep_noneStarted (s : State) (i : Nat) : NoneStarted s (s.hostStep i) := by
  rcases hostStep_cases s i with heq | ⟨h, -, -, ⟨j, -, heq⟩ | ⟨j, -, heq⟩ | ⟨op, ops, -, -, heq⟩⟩ <;> rw [heq]
  · exact .of_chans rfl
  · exact .of_chans (emitStep_frame s i j).1.chans
  · exact .of_chans (submitStep_frame s i j).1.chans
  · by_cases hop : op = .resetController
    · subst hop
      exact controllerReset_noneStarted (s.modifyHost i fun h => { h with ops := ops, result := none })
    · exact .of_chans (startOp_frame _ i op hop).1.chans

/-! ## What starts a channel -/

/-- A channel that the manager's step starts: the step completed an injected DMAGO to it. -/
theorem managerStep_starts {s t : State} {c : Fin 8} (h : s.managerStep = .next t)
    (hbefore : (s.chan c).status ≠ .executing) (hafter : (t.chan c).status = .executing) :
    s.dbgBusy = true ∧ s.mgrFault = none ∧ (s.chan c).status = .stopped ∧
      ∃ ns addr, s.injected = .ok (.dmago ns c.val addr) ∧ t.chan c = s.started ns addr := by
  rcases managerStep_next h with rfl | ⟨hbusy, hfault, ⟨-, i, u, hi, hexec, rfl⟩ | ⟨th, r, rfl⟩⟩
  · exact absurd hafter hbefore
  · obtain ⟨d, hd⟩ | ⟨-, ns, chan, addr, rfl⟩ := exec_next_cur hexec
    · cases hd
    · obtain ⟨-, d, rfl, -, hstop, rfl⟩ := exec_dmago_next hexec
      by_cases hcd : c = d
      · subst hcd
        exact ⟨hbusy, hfault, hstop, ns, addr, hi, chan_setChan_same ..⟩
      · exact absurd ((congrArg Chan.status (chan_setChan_other _ _ hcd)).symm.trans hafter) hbefore
  · exact absurd hafter hbefore

/-- Settles O57, by the agent that makes the step: of the three only the manager can start a channel. -/
theorem onlyAnInjectedGoStartsAChannel : Obligations.OnlyAnInjectedGoStartsAChannel := by
  intro s t c h hbefore hafter
  rw [step_eq_agentStep] at h
  cases hmover : s.mover with
  | host i =>
    rw [hmover] at h
    obtain rfl : ({ s with sched := s.sched.tail } : State).hostStep i = t := by simpa [State.agentStep] using h
    exact absurd (hostStep_noneStarted _ i c hafter) hbefore
  | thread th =>
    rw [hmover] at h
    cases th with
    | channel d => exact absurd (channelStep_noneStarted h c hafter) hbefore
    | manager =>
      obtain ⟨hbusy, hfault, hstop, ns, addr, hi, hchan⟩ := managerStep_starts h hbefore hafter
      exact ⟨rfl, hbusy, hfault, hstop, ns, addr, hi, congrArg Chan.pc hchan, congrArg Chan.ns hchan⟩

end Sys2Proof.Machine

/-! PROOFS. Submission: what each of its steps does, and the injected DMAGO it leaves in the window. -/
namespace Sys2Proof.Machine

/-! ## The call of Submit -/

theorem submitChecks_of_absent {p : Params} {chan : Nat} (ns : Nat) (h : p.nChannels ≤ chan) :
    submitChecks p chan ns = .error (.invalidField .submitChan) := by
  simp [submitChecks, check, Nat.not_lt.2 h]

theorem submitChecks_of_unknown_ns {p : Params} {chan ns : Nat} (h : chan < p.nChannels) (hns : 1 < ns) :
    submitChecks p chan ns = .error (.invalidField .goNs) := by
  simp [submitChecks, check, h, Nat.not_le.2 hns]

theorem submitChecks_ok {p : Params} {chan ns : Nat} (h : chan < p.nChannels) (hns : ns ≤ 1) :
    submitChecks p chan ns = .ok () := by
  simp [submitChecks, check, h, hns]

/-- The value that a DBGSTATUS read answers (R36, R46). -/
def State.polledValue (s : State) : Word := dbgStatusValue s.params.regs s.dbgBusy s.draw.1

/-- The state after that read: one draw and one access more (R57). -/
def State.polled (s : State) : State :=
  { s.draw.2 with trace := s.trace ++ [.read s.params.regs.dbgstatus s.polledValue] }

theorem polled_frame (s : State) : s.polled = { s with
    draws := s.draw.2.draws
    drawCount := s.drawCount + 1
    trace := s.trace ++ [.read s.params.regs.dbgstatus s.polledValue] } := by
  rw [State.polled, draw_frame]

/-- The answer and the read do not depend on what a context has still to run. -/
@[simp] theorem polledValue_modifyHost (s : State) (i : Nat) (f : HostCtx → HostCtx) :
    (s.modifyHost i f).polledValue = s.polledValue := by
  have hdraw : (s.modifyHost i f).draw.1 = s.draw.1 := by
    simp only [State.draw, draws_modifyHost, drawCount_modifyHost]
    split <;> rfl
  simp only [State.polledValue, params_modifyHost, dbgBusy_modifyHost, hdraw]

theorem polled_modifyHost (s : State) (i : Nat) (f : HostCtx → HostCtx) :
    (s.modifyHost i f).polled = s.polled.modifyHost i f := by
  have hdraw : (s.modifyHost i f).draw.2 = s.draw.2.modifyHost i f := by
    simp only [State.draw, draws_modifyHost]
    split <;> rfl
  simp only [State.polled, polledValue_modifyHost, hdraw]
  rfl

/-- A context's own submission does not take the register path from it (R268). -/
@[simp] theorem pathTaken_modifyHost (s : State) (i : Nat) (f : HostCtx → HostCtx) :
    (s.modifyHost i f).pathTaken i = s.pathTaken i := by
  have hother (k : Nat) : (decide (k ≠ i) && ((s.hosts.modify i f)[k]?.any fun h => h.onPath)) =
      (decide (k ≠ i) && (s.hosts[k]?.any fun h => h.onPath)) := by
    by_cases hk : k = i
    · simp [hk]
    · rw [← hosts_modifyHost, host_modifyHost_other s f hk]
  simp only [State.pathTaken, hosts_modifyHost, List.length_modify, hother]

/-- Arguments that the checks refuse end the operation before any register access (R182). -/
theorem hostStep_submit_of_error {s : State} {i chan ns : Nat} {addr : Word} {e : Err}
    (h : s.aboutTo i (.submit chan addr ns)) (hchecks : submitChecks s.params chan ns = .error e) :
    (s.hostStep i).returned i = some (.err e) ∧ (s.hostStep i).trace = s.trace := by
  obtain ⟨ops, hstep⟩ := hostStep_of_aboutTo h
  have hstart (f : HostCtx → HostCtx) :
      (s.modifyHost i f).startOp i (.submit chan addr ns) = (s.modifyHost i f).finish i (.err e) := by
    simp only [State.startOp, State.startSubmit, params_modifyHost, hchecks]
  rw [hstep, hstart]
  exact ⟨returned_finish _ (by simpa using aboutTo_lt_length h), rfl⟩

theorem startOp_submit {s : State} {i chan ns : Nat} {addr : Word} (hchan : chan < s.params.nChannels) (hns : ns ≤ 1)
    (hfree : s.pathTaken i = false) :
    s.startOp i (.submit chan addr ns) =
      if isBusy s.params.regs s.polledValue then s.polled.finish i (.err .deviceBusy)
      else s.polled.modifyHost i fun h => { h with job := .submit ⟨chan, addr, ns, .inst0⟩ } := by
  simp only [State.startOp, State.startSubmit, submitChecks_ok hchan hns, hfree, regRead_dbgstatus]
  rfl

/-- With good arguments and the register path free, the first step of Submit polls DBGSTATUS once (R183). -/
theorem hostStep_submit {s : State} {i chan ns : Nat} {addr : Word} (h : s.aboutTo i (.submit chan addr ns))
    (hchan : chan < s.params.nChannels) (hns : ns ≤ 1) (hfree : s.pathTaken i = false) :
    ∃ ops, s.hostStep i =
      let t := s.polled.modifyHost i fun h => { h with ops := ops, result := none }
      if isBusy s.params.regs s.polledValue then t.finish i (.err .deviceBusy)
      else t.modifyHost i fun h => { h with job := .submit ⟨chan, addr, ns, .inst0⟩ } := by
  obtain ⟨ops, hstep⟩ := hostStep_of_aboutTo h
  refine ⟨ops, hstep.trans ((startOp_submit (by exact hchan) hns (by simpa using hfree)).trans ?_)⟩
  rw [polledValue_modifyHost, polled_modifyHost, params_modifyHost]

/-- Settles O24, clause by clause: each rejection is what the first step returns. -/
theorem submitRejections : Obligations.SubmitRejections := by
  intro s i chan addr ns hregs h
  refine ⟨fun hchan => hostStep_submit_of_error h (submitChecks_of_absent ns hchan),
    fun hchan hns => hostStep_submit_of_error h (submitChecks_of_unknown_ns hchan hns), fun hchan hns hfree hbusy => ?_⟩
  have hvalue : s.polledValue = dbgStatusValue RegMap.spec s.dbgBusy s.draw.1 := by rw [State.polledValue, hregs]
  obtain ⟨ops, hstep⟩ := hostStep_submit h hchan hns hfree
  rw [if_pos (by rw [hregs, hvalue]; exact hbusy), polled_frame, hvalue, hregs] at hstep
  rw [hstep]
  exact ⟨returned_finish _ (by simpa using aboutTo_lt_length h), rfl, rfl, rfl, rfl, rfl, rfl, rfl⟩

/-! ## The register writes of a submission -/

/-- Host context `i` may make the next register access of submission `j`: it stands in it with these staging bytes, is not
Faulted, and has the register path to itself. -/
def State.Submitting (s : State) (i : Nat) (stage : List Byte) (j : SubmitJob) : Prop :=
  (∃ h, s.hosts[i]? = some h ∧ h.fault = none ∧ h.job = .submit j ∧ h.stage = stage) ∧ s.pathTaken i = false

theorem submitting_modifyHost {s : State} {i : Nat} {f : HostCtx → HostCtx} {h : HostCtx} {stage : List Byte}
    {j : SubmitJob} (hctx : s.hosts[i]? = some h) (halone : s.pathTaken i = false)
    (hf : (f h).fault = none ∧ (f h).job = .submit j ∧ (f h).stage = stage) :
    (s.modifyHost i f).Submitting i stage j :=
  ⟨⟨f h, by rw [host_modifyHost_same, hctx]; rfl, hf⟩, by simpa using halone⟩

theorem stage_of_submitting {s : State} {i : Nat} {stage : List Byte} {j : SubmitJob} (hs : s.Submitting i stage j) :
    (s.hosts[i]?.map HostCtx.stage).getD [] = stage := by
  obtain ⟨⟨h, hctx, -, -, hstage⟩, -⟩ := hs
  simp [hctx, hstage]

theorem hostStep_of_submitting {s t : State} {i : Nat} {stage : List Byte} {j : SubmitJob}
    (hs : s.Submitting i stage j) (hwrite : s.submitWrite i j = .ok t) : s.hostStep i = t := by
  obtain ⟨⟨h, hctx, hfault, hjob, -⟩, halone⟩ := hs
  simp [State.hostStep, hctx, hfault, hjob, State.submitStep, halone, hwrite]

/-- DBGSTATUS does not answer busy: the submission goes on (R183). -/
theorem hostStep_submit_idle {s : State} {i chan ns : Nat} {addr : Word} (h : s.aboutTo i (.submit chan addr ns))
    (hchan : chan < s.params.nChannels) (hns : ns ≤ 1) (hfree : s.pathTaken i = false)
    (hidle : isBusy s.params.regs s.polledValue = false) :
    ∃ hosts draws stage, s.hostStep i = { s with
        hosts := hosts
        draws := draws
        drawCount := s.drawCount + 1
        trace := s.trace ++ [.read s.params.regs.dbgstatus s.polledValue] } ∧
      (s.hostStep i).Submitting i stage ⟨chan, addr, ns, .inst0⟩ := by
  obtain ⟨ops, hstep⟩ := hostStep_submit h hchan hns hfree
  obtain ⟨ctx, -, hctx, hfault, -⟩ := h
  rw [if_neg (by simp [hidle]), polled_frame] at hstep
  have hstarted := (host_modifyHost_same s i fun h => { h with ops := ops, result := none }).trans
    (congrArg (Option.map _) hctx)
  refine ⟨_, _, ctx.stage, hstep, ?_⟩
  rw [hstep]
  exact submitting_modifyHost hstarted ((pathTaken_modifyHost ..).trans hfree) ⟨hfault, rfl, rfl⟩

/-- The DMAGO goes into the staging bytes, its bytes 0 and 1 into DBGINST0 (R184, R185). -/
theorem hostStep_inst0 {s : State} {i chan ns : Nat} {addr : Word} {stage bytes : List Byte}
    (hs : s.Submitting i stage ⟨chan, addr, ns, .inst0⟩) (henc : encGo s.params.opc ns chan addr = .ok bytes) :
    ∃ hosts, s.hostStep i = { s with
        hosts := hosts
        dbginst0 := stagedInst0 s.params.regs bytes
        trace := s.trace ++ [.write s.params.regs.dbginst0 (stagedInst0 s.params.regs bytes)] } ∧
      (s.hostStep i).Submitting i bytes ⟨chan, addr, ns, .inst1⟩ := by
  have hstep := hostStep_of_submitting hs (by simp only [State.submitWrite, henc, regWrite_dbginst0]; rfl)
  obtain ⟨⟨h, hctx, hfault, -⟩, halone⟩ := hs
  exact ⟨_, hstep, hstep ▸ submitting_modifyHost hctx halone ⟨hfault, rfl, rfl⟩⟩

/-- Bytes 2 to 5 go into DBGINST1 (R186). -/
theorem hostStep_inst1 {s : State} {i chan ns : Nat} {addr : Word} {stage : List Byte}
    (hs : s.Submitting i stage ⟨chan, addr, ns, .inst1⟩) (hregs : s.params.regs.legal) :
    ∃ hosts, s.hostStep i = { s with
        hosts := hosts
        dbginst1 := stagedInst1 s.params.regs stage
        trace := s.trace ++ [.write s.params.regs.dbginst1 (stagedInst1 s.params.regs stage)] } ∧
      (s.hostStep i).Submitting i stage ⟨chan, addr, ns, .cmd⟩ := by
  have hstep := hostStep_of_submitting hs (by
    simp only [State.submitWrite, stage_of_submitting hs, regWrite_dbginst1 _ _ hregs]; rfl)
  obtain ⟨⟨h, hctx, hfault, -, hstage⟩, halone⟩ := hs
  exact ⟨_, hstep, hstep ▸ submitting_modifyHost hctx halone ⟨hfault, rfl, hstage⟩⟩

/-- The trigger write makes the controller execute the injected bytes (R187), and the program is in flight (R264). -/
theorem hostStep_cmd {s : State} {i chan ns : Nat} {addr : Word} {stage : List Byte}
    (hs : s.Submitting i stage ⟨chan, addr, ns, .cmd⟩) (hregs : s.params.regs.legal)
    (hvisible : s.allVisible (s.programAt addr.toNat) = true) :
    ∃ hosts, s.hostStep i = { s with
        hosts := hosts
        dbgcmd := s.params.regs.trigger
        dbgBusy := true
        flights := s.flights ++ [⟨chan, s.programAt addr.toNat, false⟩]
        trace := s.trace ++ [.write s.params.regs.dbgcmd s.params.regs.trigger] } ∧
      (s.hostStep i).returned i = some (.ok 0) := by
  have hstep := hostStep_of_submitting hs (by
    simp only [State.submitWrite, hvisible, if_true, regWrite_trigger _ hregs]; rfl)
  obtain ⟨⟨h, hctx, -⟩, -⟩ := hs
  exact ⟨_, hstep, hstep ▸ returned_finish _ (List.getElem?_eq_some_iff.1 hctx).1⟩

/-! ## The run of an accepted Submit -/

theorem encGo_ok (o : Opc) {chan ns : Nat} (addr : Word) (hchan : chan ≤ 7) (hns : ns ≤ 1) :
    encGo o ns chan addr = .ok (encode o (.dmago (decide (ns = 1)) chan addr)) :=
  encGo_eq_ok_iff.2 ⟨hchan, hns, by
    simp [encode, Instr.head, Opc.byte0, Opc.operandBytes, ← nsBit_of_le_one hns]⟩

/-- An accepted Submit runs to its result in four steps, one register access each, and changes nothing else but the host
contexts, the controller agent's draws and the flights (R181, R188). -/
theorem hostRun_submit {s : State} {i chan ns : Nat} {addr : Word} {bytes : List Byte} (hregs : s.params.regs.legal)
    (h : s.aboutTo i (.submit chan addr ns)) (hfree : s.pathTaken i = false) (hchan : chan < s.params.nChannels)
    (hns : ns ≤ 1) (hidle : isBusy s.params.regs s.polledValue = false)
    (henc : encGo s.params.opc ns chan addr = .ok bytes) (hvisible : s.allVisible (s.programAt addr.toNat) = true) :
    (s.hostRun i 4).returned i = some (.ok 0) ∧ ∃ hosts draws, s.hostRun i 4 = { s with
      hosts := hosts
      draws := draws
      drawCount := s.drawCount + 1
      dbginst0 := stagedInst0 s.params.regs bytes
      dbginst1 := stagedInst1 s.params.regs bytes
      dbgcmd := s.params.regs.trigger
      dbgBusy := true
      flights := s.flights ++ [⟨chan, s.programAt addr.toNat, false⟩]
      trace := s.trace ++ [.read s.params.regs.dbgstatus s.polledValue,
        .write s.params.regs.dbginst0 (stagedInst0 s.params.regs bytes),
        .write s.params.regs.dbginst1 (stagedInst1 s.params.regs bytes),
        .write s.params.regs.dbgcmd s.params.regs.trigger] } := by
  obtain ⟨hosts₁, draws, stage, h₁, hs₁⟩ := hostStep_submit_idle h hchan hns hfree hidle
  obtain ⟨hosts₂, h₂, hs₂⟩ := hostStep_inst0 hs₁ (by rw [h₁]; exact henc)
  obtain ⟨hosts₃, h₃, hs₃⟩ := hostStep_inst1 hs₂ (by rw [h₂, h₁]; exact hregs)
  obtain ⟨hosts₄, h₄, hreturned⟩ := hostStep_cmd hs₃ (by rw [h₃, h₂, h₁]; exact hregs) (by rw [h₃, h₂, h₁]; exact hvisible)
  refine ⟨hreturned, hosts₄, draws, h₄.trans ?_⟩
  rw [h₃, h₂, h₁]
  simp only [List.append_assoc, List.cons_append, List.nil_append]
  rfl

/-! ## DBGINST0 and DBGINST1 hold the injected bytes -/

/-- The fields of DBGINST0 with what they hold for an instruction of the manager (R38). -/
def inst0Fields (m : RegMap) (b0 b1 : Byte) : List (BitField × Nat) :=
  [(⟨m.threadBit, 1⟩, 0), (m.channel, 0), (m.byte0, b0.toNat), (m.byte1, b1.toNat)]

/-- The fields of DBGINST1 with what they hold (R39). -/
def inst1Fields (m : RegMap) (b2 b3 b4 b5 : Byte) : List (BitField × Nat) :=
  [(m.byte2, b2.toNat), (m.byte3, b3.toNat), (m.byte4, b4.toNat), (m.byte5, b5.toNat)]

theorem packInst0_eq_putAll (m : RegMap) (b0 b1 : Byte) : m.packInst0 b0 b1 = putAll (inst0Fields m b0 b1) := by
  simp [RegMap.packInst0, inst0Fields, putAll, BitField.put, BitVec.or_comm]

theorem packInst1_eq_putAll (m : RegMap) (b2 b3 b4 b5 : Byte) :
    m.packInst1 b2 b3 b4 b5 = putAll (inst1Fields m b2 b3 b4 b5) := by
  simp only [RegMap.packInst1, inst1Fields, putAll, BitVec.ofNat_eq_ofNat, BitVec.or_zero]
  ac_rfl

theorem get_packInst0 {m : RegMap} (hm : m.legal) (b0 b1 : Byte) :
    ∀ x ∈ inst0Fields m b0 b1, x.1.get (m.packInst0 b0 b1) = x.2 := by
  obtain ⟨-, -, -, -, -, -, hlen, hfields⟩ := hm
  obtain ⟨hword, hapart⟩ := hfields _ (.head _)
  rw [packInst0_eq_putAll]
  refine BitField.get_putAll (fun x hx => hword x.1 (List.mem_map_of_mem hx)) ?_ hapart
  simp only [List.forall_mem_cons] at hlen
  simp [inst0Fields, hlen, b0.isLt, b1.isLt]

theorem get_packInst1 {m : RegMap} (hm : m.legal) (b2 b3 b4 b5 : Byte) :
    ∀ x ∈ inst1Fields m b2 b3 b4 b5, x.1.get (m.packInst1 b2 b3 b4 b5) = x.2 := by
  obtain ⟨-, -, -, -, -, -, hlen, hfields⟩ := hm
  obtain ⟨hword, hapart⟩ := hfields _ (.tail _ (.head _))
  rw [packInst1_eq_putAll]
  refine BitField.get_putAll (fun x hx => hword x.1 (List.mem_map_of_mem hx)) ?_ hapart
  simp only [List.forall_mem_cons] at hlen
  simp [inst1Fields, hlen, b2.isLt, b3.isLt, b4.isLt, b5.isLt]

/-- The six bytes are read back from the two registers they were packed into (R38, R39). -/
theorem instBytes_pack {m : RegMap} (hm : m.legal) (b0 b1 b2 b3 b4 b5 : Byte) :
    m.instBytes (m.packInst0 b0 b1) (m.packInst1 b2 b3 b4 b5) = [b0, b1, b2, b3, b4, b5] := by
  have h0 := get_packInst0 hm b0 b1
  have h1 := get_packInst1 hm b2 b3 b4 b5
  simp only [inst0Fields, inst1Fields, List.forall_mem_cons] at h0 h1
  simp [RegMap.instBytes, h0, h1]

/-- Such a DBGINST0 selects the manager (R38). -/
theorem threadBit_packInst0 {m : RegMap} (hm : m.legal) (b0 b1 : Byte) :
    (m.packInst0 b0 b1).getLsbD m.threadBit = false :=
  getLsbD_of_get_eq_toNat (get_packInst0 hm b0 b1 _ (.head _))

/-- With a staged DMAGO in the two registers, that is the injected instruction, and it is the manager's. -/
theorem injected_of_staged_go {s : State} {chan : Nat} {addr : Word} {ns : Bool} (hopc : s.params.opc.legal)
    (hregs : s.params.regs.legal) (hchan : chan ≤ 7)
    (h0 : s.dbginst0 = stagedInst0 s.params.regs (encode s.params.opc (.dmago ns chan addr)))
    (h1 : s.dbginst1 = stagedInst1 s.params.regs (encode s.params.opc (.dmago ns chan addr))) :
    s.injected = .ok (.dmago ns chan addr) ∧ s.debugChannel = none := by
  constructor
  · have hbytes : s.injectedBytes = encode s.params.opc (.dmago ns chan addr) := by
      rw [State.injectedBytes, h0, h1]
      exact instBytes_pack hregs ..
    apply injected_of_decode (more := [])
    rw [hbytes, ← List.append_nil (encode _ _)]
    exact decodeOfEncodeGivesTheInstruction _ _ [] hopc (by simpa [Instr.wf] using hchan)
  · exact debugChannel_of_manager (h0 ▸ threadBit_packInst0 hregs ..)

/-! ## Their values under the register map and the opcode table of the spec -/

/-- Byte 0 in bits 23:16, byte 1 in bits 31:24 (R38, R185). -/
theorem packInst0_spec (b0 b1 : Byte) :
    RegMap.spec.packInst0 b0 b1 = BitVec.ofNat 32 (b1.toNat * 2 ^ 24 + b0.toNat * 2 ^ 16) := by
  have hsum : b1.toNat <<< 24 + b0.toNat <<< 16 = b1.toNat <<< 24 ||| b0.toNat <<< 16 :=
    Nat.shiftLeft_add_eq_or_of_lt (by have := b0.isLt; rw [Nat.shiftLeft_eq]; omega) _
  have hfit (b : Byte) : b.toNat % 2 ^ 32 = b.toNat := Nat.mod_eq_of_lt (b.isLt.trans (by decide))
  rw [← Nat.shiftLeft_eq, ← Nat.shiftLeft_eq, hsum]
  apply BitVec.eq_of_toNat_eq
  simp only [RegMap.packInst0, RegMap.spec, BitField.put, BitVec.toNat_or, BitVec.toNat_shiftLeft, BitVec.toNat_ofNat,
    hfit, Nat.or_mod_two_pow]

theorem stagedInst0_spec_go {chan : Nat} (addr : Word) (ns : Bool) (hchan : chan ≤ 7) :
    stagedInst0 RegMap.spec (encode Opc.spec (.dmago ns chan addr)) =
      BitVec.ofNat 32 (chan * 2 ^ 24 + (0xA0 + 2 * ns.toNat) * 2 ^ 16) := by
  have hbyte0 : (Opc.spec.byte0 (.go ns)).toNat = 0xA0 + 2 * ns.toNat := by cases ns <;> rfl
  have hbyte1 : (BitVec.ofNat 8 chan).toNat = chan := by rw [BitVec.toNat_ofNat]; omega
  have hpack := packInst0_spec (Opc.spec.byte0 (.go ns)) (BitVec.ofNat 8 chan)
  rwa [hbyte0, hbyte1] at hpack

theorem stagedInst1_spec_go (chan : Nat) (addr : Word) (ns : Bool) :
    stagedInst1 RegMap.spec (encode Opc.spec (.dmago ns chan addr)) = addr :=
  (packInst1_spec ..).trans (le32_bytesLe32 addr)

/-- Settles O23: the run of an accepted Submit, its values under the spec's register map and opcode table. -/
theorem submitMakesFourAccesses : Obligations.SubmitMakesFourAccesses := by
  intro s i chan addr ns hopc hregs h hfree hchan hchan7 hns hbusy hdraw hvisible
  have hvalue : s.polledValue = s.draw.1 := by simp [State.polledValue, dbgStatusValue, hbusy]
  obtain ⟨hreturned, hosts, draws, hrun⟩ := hostRun_submit (hregs ▸ RegMap.spec_legal) h hfree hchan hns
    (by rw [hvalue, hregs]; exact hdraw) (encGo_ok _ addr hchan7 hns) hvisible
  have hnat : (decide (ns = 1)).toNat = ns := by
    obtain rfl | rfl : ns = 0 ∨ ns = 1 := by omega
    · rfl
    · rfl
  have htrigger : RegMap.spec.trigger = 0 := by decide
  rw [hregs, hopc, hvalue, stagedInst0_spec_go addr _ hchan7, stagedInst1_spec_go, hnat, htrigger] at hrun
  exact ⟨_, rfl, hreturned, hrun ▸ ⟨rfl, rfl, rfl, rfl, rfl, rfl, rfl, rfl, rfl⟩⟩

end Sys2Proof.Machine

/-! PROOFS. The controller's answer to the trigger write. -/
namespace Sys2Proof.Machine

/-- The manager's step on an injected DMAGO that it accepts starts the channel, and the busy bit ends (R189). -/
theorem managerStep_of_injected_go {s : State} {ns : Bool} {c : Fin 8} {addr : Word} (hbusy : s.dbgBusy = true)
    (hfault : s.mgrFault = none) (hsel : s.debugChannel = none) (hi : s.injected = .ok (.dmago ns c.val addr))
    (hc : c.val < s.params.nChannels) (hstop : (s.chan c).status = .stopped)
    (hsec : s.params.refuseSecureGo = true → ns = true) :
    ∃ t, s.managerStep = .next t ∧ t.chan c = s.started ns addr ∧ (∀ d, d ≠ c → t.chan d = s.chan d) ∧
      t.dbgBusy = false ∧ t.mem = s.mem := by
  have hexec := exec_dmago_manager (s := { s with cur := .manager }) addr rfl hc hstop hsec
  rw [managerStep_of_injected hbusy hfault hsel hi, hexec]
  exact ⟨_, rfl, chan_setChan_same .., fun d hd => chan_setChan_other _ _ hd, rfl, rfl⟩

/-- Settles O31: the injection registers hold the DMAGO that a Submit stages, and the manager executes it. -/
theorem triggerStartsTheChannel : Obligations.TriggerStartsTheChannel := by
  intro s rest c addr ns hopc hregs hsched hbusy hfault h0 h1 hc hstop hsec
  have hc7 : c.val ≤ 7 := Nat.le_of_lt_succ c.isLt
  obtain ⟨hi, hsel⟩ := injected_of_staged_go (s := s) (hopc ▸ Opc.spec_legal) (hregs ▸ RegMap.spec_legal) hc7
    (by rw [hopc, hregs, stagedInst0_spec_go addr ns hc7, h0]) (by rw [hopc, hregs, stagedInst1_spec_go, h1])
  obtain ⟨t, ht, hchan, hother, hidle, hmem⟩ :=
    managerStep_of_injected_go (s := { s with sched := rest }) hbusy hfault hsel hi hc hstop hsec
  refine ⟨t, (step_of_sched hsched).trans ht, ?_⟩
  rw [hchan]
  exact ⟨rfl, rfl, rfl, rfl, rfl, rfl, rfl, rfl, rfl, rfl, hidle, hother, hmem⟩

end Sys2Proof.Machine

/-! PROOFS. An instruction that completes on a channel thread: what it asks for and the state it leaves, said once. -/
namespace Sys2Proof.Machine

/-! ## What completes -/

theorem ofNat_toNat_add (pc : Word) (n : Nat) : BitVec.ofNat 32 (pc.toNat + n) = pc + BitVec.ofNat 32 n := by
  simp [BitVec.ofNat_add]

theorem advancePc_eq_ok_add {pc pc' : Word} {n : Nat} :
    advancePc pc n = .ok pc' ↔ pc.toNat + n < addrSpace ∧ pc' = pc + BitVec.ofNat 32 n := by
  rw [advancePc_eq_ok, ofNat_toNat_add]

theorem advancePc_add {pc : Word} {n : Nat} (h : pc.toNat + n < addrSpace) :
    advancePc pc n = .ok (pc + BitVec.ofNat 32 n) :=
  advancePc_eq_ok_add.2 ⟨h, rfl⟩

theorem jumpBack_eq_ok {o : BjumpOrigin} {pc pc' : Word} {b : Nat} :
    jumpBack o pc b = .ok pc' ↔
      (b ≤ jumpOrigin o pc ∧ jumpOrigin o pc - b < addrSpace) ∧ pc' = BitVec.ofNat 32 (jumpOrigin o pc - b) := by
  unfold jumpBack
  split <;> simp_all [eq_comm]

/-- Instruction `i` completes on channel `c` and leaves `t` (R202 to R210): what each asks for, and what it has done. -/
inductive Completes (s : State) (c : Fin 8) : Instr → State → Prop
  | dmaend (hfifo : (s.chan c).fifo = []) :
      Completes s c .dmaend (s.setChan c { s.chan c with status := .stopped, ended := true })
  | dmald {ccr sar : Word} {bytes : List Byte} (hccr : (s.chan c).ccr = some ccr) (hsar : (s.chan c).sar = some sar)
      (hbeats : s.loadBeats (srcBurst s.params.ccrLayout ccr) (srcBurst s.params.ccrLayout ccr).beats sar.toNat
        (s.chan c).fifo.length = .ok bytes) (hpc : (s.chan c).pc.toNat + 1 < addrSpace) :
      Completes s c .dmald
        ({ s with drawCount := s.bumpCount (srcBurst s.params.ccrLayout ccr) sar }.setChan c
          { s.chan c with
            fifo := (s.chan c).fifo ++ bytes
            sar := some (s.bumpAddr (srcBurst s.params.ccrLayout ccr) sar)
            pc := (s.chan c).pc + 1 })
  | dmast {ccr dar : Word} {mem : Memory} (hccr : (s.chan c).ccr = some ccr) (hdar : (s.chan c).dar = some dar)
      (hdata : (dstBurst s.params.ccrLayout ccr).bytes ≤ (s.chan c).fifo.length)
      (hbeats : s.params.storeBeats (s.chan c).own (dstBurst s.params.ccrLayout ccr)
        (dstBurst s.params.ccrLayout ccr).beats dar.toNat (s.chan c).fifo s.mem = .ok mem)
      (hpc : (s.chan c).pc.toNat + 1 < addrSpace) :
      Completes s c .dmast
        ({ s with
            mem := mem
            stored := setInsertRange dar.toNat (dstBurst s.params.ccrLayout ccr).span s.stored
            drawCount := s.bumpCount (dstBurst s.params.ccrLayout ccr) dar }.setChan c
          { s.chan c with
            fifo := (s.chan c).fifo.drop (dstBurst s.params.ccrLayout ccr).bytes
            dar := some (s.bumpAddr (dstBurst s.params.ccrLayout ccr) dar)
            pc := (s.chan c).pc + 1 })
  | dmarmb (hpc : (s.chan c).pc.toNat + 1 < addrSpace) :
      Completes s c .dmarmb (s.setChan c { s.chan c with pc := (s.chan c).pc + 1 })
  | dmawmb (hpc : (s.chan c).pc.toNat + 1 < addrSpace) :
      Completes s c .dmawmb (s.setChan c { s.chan c with pc := (s.chan c).pc + 1 })
  | dmalp (lc : LoopReg) (count : Nat) (hpc : (s.chan c).pc.toNat + 2 < addrSpace) :
      Completes s c (.dmalp lc count)
        (s.setChan c { (s.chan c).setLc lc (BitVec.ofNat 8 (count - 1)) with pc := (s.chan c).pc + 2 })
  | dmasev (event : Nat) (hpc : (s.chan c).pc.toNat + 2 < addrSpace) :
      Completes s c (.dmasev event)
        ({ s with irq := raiseIrq s.inten s.irq event }.setChan c
          { s.chan c with events := setInsert event (s.chan c).events, pc := (s.chan c).pc + 2 })
  | dmalpend_through {lc : LoopReg} (bjump : Nat) (hlc : (s.chan c).lc lc = some 0)
      (hpc : (s.chan c).pc.toNat + 2 < addrSpace) :
      Completes s c (.dmalpend lc bjump) (s.setChan c { s.chan c with pc := (s.chan c).pc + 2 })
  | dmalpend_back {lc : LoopReg} {bjump : Nat} {v : Byte} (hlc : (s.chan c).lc lc = some v) (hv : v ≠ 0)
      (hback : bjump ≤ jumpOrigin s.params.bjumpOrigin (s.chan c).pc)
      (hspace : jumpOrigin s.params.bjumpOrigin (s.chan c).pc - bjump < addrSpace) :
      Completes s c (.dmalpend lc bjump)
        (s.setChan c { (s.chan c).setLc lc (v - 1) with
          pc := BitVec.ofNat 32 (jumpOrigin s.params.bjumpOrigin (s.chan c).pc - bjump) })
  | dmamov (rd : MovReg) (imm : Word) (hpc : (s.chan c).pc.toNat + 6 < addrSpace) :
      Completes s c (.dmamov rd imm) (s.setChan c { (s.chan c).setMov rd imm with pc := (s.chan c).pc + 6 })

theorem completes_of_load {s t : State} {c : Fin 8} (h : s.load c = .ok t) : Completes s c .dmald t := by
  obtain ⟨ccr, hccr, h⟩ := except_bind_ok h
  obtain ⟨sar, hsar, h⟩ := except_bind_ok h
  obtain ⟨bytes, hbeats, h⟩ := except_bind_ok h
  obtain ⟨pc, hpc, h⟩ := except_bind_ok h
  obtain ⟨hlt, rfl⟩ := advancePc_eq_ok_add.1 hpc
  obtain rfl := Except.ok.inj h
  exact .dmald (written_eq_ok.1 hccr) (written_eq_ok.1 hsar) hbeats hlt

theorem completes_of_store {s t : State} {c : Fin 8} (h : s.store c = .ok t) : Completes s c .dmast t := by
  obtain ⟨ccr, hccr, h⟩ := except_bind_ok h
  dsimp only at h
  split at h
  · simp at h
  · next hdata =>
    obtain ⟨dar, hdar, h⟩ := except_bind_ok h
    obtain ⟨mem, hbeats, h⟩ := except_bind_ok h
    obtain ⟨pc, hpc, h⟩ := except_bind_ok h
    obtain ⟨hlt, rfl⟩ := advancePc_eq_ok_add.1 hpc
    obtain rfl := Except.ok.inj h
    exact .dmast (written_eq_ok.1 hccr) (written_eq_ok.1 hdar) (Nat.not_lt.1 hdata) hbeats hlt

/-- Whatever instruction completes on a channel thread, this is what it has done. -/
theorem completes_of_exec {i : Instr} {s t : State} {c : Fin 8} (hcur : s.cur = .channel c) (h : exec i s = .next t) :
    Completes s c i t := by
  have onThread : ∀ {f : Fin 8 → Except Fault State}, s.onChannel f = .next t → f c = .ok t := by
    intro f h
    obtain ⟨d, hd, hf⟩ := onChannel_next h
    obtain rfl : c = d := by simpa [hcur] using hd
    exact hf
  cases i with
  | dmalpends lc bjump => cases h
  | dmalpendb lc bjump => cases h
  | dmago ns chan addr => cases hcur.symm.trans (exec_dmago_next h).1
  | dmald => exact completes_of_load (onThread h)
  | dmast => exact completes_of_store (onThread h)
  | dmaend =>
    have h := onThread h
    split at h
    · next hfifo => obtain rfl := Except.ok.inj h; exact .dmaend hfifo
    · simp at h
  | dmalpend lc bjump =>
    obtain ⟨v, hv, h⟩ := except_bind_ok (onThread h)
    have hlc := written_eq_ok.1 hv
    split at h
    · next hzero =>
      obtain ⟨pc, hpc, h⟩ := except_bind_ok h
      obtain ⟨hlt, rfl⟩ := advancePc_eq_ok_add.1 hpc
      obtain rfl := Except.ok.inj h
      exact .dmalpend_through bjump (hzero ▸ hlc) hlt
    · next hzero =>
      obtain ⟨pc, hpc, h⟩ := except_bind_ok h
      obtain ⟨⟨hback, hspace⟩, rfl⟩ := jumpBack_eq_ok.1 hpc
      obtain rfl := Except.ok.inj h
      exact .dmalpend_back hlc hzero hback hspace
  | dmarmb | dmawmb | dmalp | dmasev | dmamov =>
    obtain ⟨pc, hpc, h⟩ := except_bind_ok (onThread h)
    obtain ⟨hlt, rfl⟩ := advancePc_eq_ok_add.1 hpc
    obtain rfl := Except.ok.inj h
    constructor
    exact hlt

/-- An instruction whose conditions hold completes so. -/
theorem Completes.exec {i : Instr} {s t : State} {c : Fin 8} (h : Completes s c i t) (hcur : s.cur = .channel c) :
    exec i s = .next t := by
  cases h with
  | dmaend hfifo => exact onChannel_ok hcur (if_pos hfifo)
  | dmald hccr hsar hbeats hpc =>
    exact onChannel_ok hcur (by simp [State.load, hccr, hsar, hbeats, advancePc_add hpc])
  | dmast hccr hdar hdata hbeats hpc =>
    exact onChannel_ok hcur (by simp [State.store, hccr, hdar, Nat.not_lt.2 hdata, hbeats, advancePc_add hpc])
  | dmalpend_through bjump hlc hpc => exact onChannel_ok hcur (by simp [hlc, advancePc_add hpc])
  | dmalpend_back hlc hv hback hspace =>
    exact onChannel_ok hcur (by simp only [hlc, written_some, except_ok_bind, if_neg hv, jumpBack_ok hback hspace])
  | dmarmb hpc | dmawmb hpc => exact onChannel_ok hcur (by simp [State.barrier, advancePc_add hpc])
  | dmalp lc count hpc | dmasev event hpc | dmamov rd imm hpc =>
    exact onChannel_ok hcur (by simp [advancePc_add hpc])

/-- Nothing but memory with what of it is written, the interrupt outputs, the counter of free values and its own channel
can change. -/
theorem Completes.exists_eq {i : Instr} {s t : State} {c : Fin 8} (h : Completes s c i t) :
    ∃ mem stored irq n ch,
      t = ({ s with mem := mem, stored := stored, irq := irq, drawCount := n } : State).setChan c ch := by
  cases h <;> exact ⟨_, _, _, _, _, rfl⟩

theorem Completes.chan_other {i : Instr} {s t : State} {c d : Fin 8} (h : Completes s c i t) (hd : d ≠ c) :
    t.chan d = s.chan d := by
  obtain ⟨mem, stored, irq, n, ch, rfl⟩ := h.exists_eq
  exact chan_setChan_other _ ch hd

/-! ## Registers, loops, signals and the end of a run -/

/-- Settles O32: the register that `setMov` writes, written out. -/
theorem moveWritesItsRegister : Obligations.MoveWritesItsRegister := by
  intro s c rd imm hcur hpc
  rw [(Completes.dmamov rd imm hpc).exec hcur]
  cases rd <;> rfl

/-- The counter that `setLc` writes, written out. -/
theorem setLc_eq (ch : Chan) (lc : LoopReg) (v : Byte) : ch.setLc lc v = { ch with
    lc0 := if lc = .lc0 then some v else ch.lc0
    lc1 := if lc = .lc1 then some v else ch.lc1 } := by
  cases lc <;> rfl

theorem lc_eq (ch : Chan) (lc : LoopReg) : ch.lc lc = if lc = .lc0 then ch.lc0 else ch.lc1 := by
  cases lc <;> rfl

/-- Settles O33: a count from 1 to 256 less one fits the counter's eight bits. -/
theorem loopStartLoadsTheCounter : Obligations.LoopStartLoadsTheCounter := by
  intro s c lc count hcur hpc hmin hmax
  refine ⟨BitVec.ofNat 8 (count - 1), by rw [BitVec.toNat_ofNat]; omega, ?_⟩
  rw [(Completes.dmalp lc count hpc).exec hcur, setLc_eq]

/-- Settles O37: a barrier asks for the next pc and nothing else. -/
theorem barriersOnlyAdvance : Obligations.BarriersOnlyAdvance :=
  fun _ _ hcur hpc => ⟨(Completes.dmarmb hpc).exec hcur, (Completes.dmawmb hpc).exec hcur⟩

/-- Settles O39: DMAEND looks at the fifo only. -/
theorem endStopsTheThread : Obligations.EndStopsTheThread := by
  intro s c hcur
  refine ⟨fun hfifo => ⟨(Completes.dmaend hfifo).exec hcur, ?_⟩, fun hfifo => onChannel_error hcur (if_neg hfifo)⟩
  simp [State.RunEnded]

theorem jumpOrigin_eq (origin : BjumpOrigin) (pc : Word) :
    jumpOrigin origin pc = if origin = .afterLpend then pc.toNat + 2 else pc.toNat := by
  cases origin <;> rfl

theorem dmalpend_error_of_unwritten {s : State} {c : Fin 8} {lc : LoopReg} (bjump : Nat) (hcur : s.cur = .channel c)
    (hlc : (s.chan c).lc lc = none) : exec (.dmalpend lc bjump) s = .fault .unwrittenRegister :=
  onChannel_error hcur (by simp [hlc])

theorem dmalpend_error_of_jump {s : State} {c : Fin 8} {lc : LoopReg} {bjump : Nat} {v : Byte} {r : Fault}
    (hcur : s.cur = .channel c) (hlc : (s.chan c).lc lc = some v) (hv : v ≠ 0)
    (hjump : jumpBack s.params.bjumpOrigin (s.chan c).pc bjump = .error r) :
    exec (.dmalpend lc bjump) s = .fault r :=
  onChannel_error hcur (by simp only [hlc, written_some, except_ok_bind, if_neg hv, hjump, except_error_bind])

/-- Settles O34: the counter decides, then where the target lies. -/
theorem loopEndDecrementsAndBranches : Obligations.LoopEndDecrementsAndBranches := by
  intro s c lc bjump hcur
  dsimp only
  rw [← lc_eq, ← jumpOrigin_eq]
  refine ⟨fun v hlc hv hback hspace => ?_, fun hlc hpc => ?_, fun v hlc hv hbelow => ?_, fun hlc => ?_⟩
  · rw [(Completes.dmalpend_back hlc hv hback hspace).exec hcur, setLc_eq]
  · exact (Completes.dmalpend_through bjump hlc hpc).exec hcur
  · exact dmalpend_error_of_jump hcur hlc hv (jumpBack_error hbelow)
  · exact dmalpend_error_of_unwritten bjump hcur hlc

/-- Of the outputs DMASEV can raise its event's own, when INTEN enables it. -/
theorem getLsbD_raiseIrq (inten irq : Word) {ev n : Nat} (hn : n < 32) :
    (raiseIrq inten irq ev).getLsbD n = (irq.getLsbD n || (decide (n = ev) && inten.getLsbD ev)) := by
  unfold raiseIrq
  split
  · next hen =>
    by_cases h : n = ev
    · subst h; simp [hn, hen]
    · have hother : n < ev ∨ n - ev ≠ 0 := by omega
      rcases hother with h' | h' <;> simp [hn, h, h']
  · next hen => simp [hen]

/-- Settles O38: what joins the event set, and the one output that can rise. -/
theorem signalEventJoinsTheSet : Obligations.SignalEventJoinsTheSet := by
  intro s c ev hcur hpc _
  exact ⟨_, _, (Completes.dmasev ev hpc).exec hcur, fun e => mem_setInsert, fun n hn => getLsbD_raiseIrq s.inten s.irq hn⟩

/-! ## Frames -/

/-- Settles O47: what an instruction that completes can change on a channel, and that DMAGO alone completes elsewhere. -/
theorem instructionFrame : Obligations.InstructionFrame := by
  intro i s t h
  refine ⟨fun c hcur => ?_, fun hcur => ?_, fun ns chan addr hi => ?_⟩
  · have hdone := completes_of_exec hcur h
    refine ⟨fun d hd => hdone.chan_other hd, ?_, fun hi => ?_, fun hi => ?_, fun hld hst => ?_⟩
    · obtain ⟨mem, stored, irq, n, ch, rfl⟩ := hdone.exists_eq
      rfl
    · refine ⟨?_, fun a => by rw [exec_keeps_mem h hi]⟩
      cases hdone with
      | dmast => exact absurd rfl hi
      | _ => rfl
    · cases hdone with
      | dmasev event => exact absurd rfl (hi event)
      | _ => rfl
    · cases hdone with
      | dmald => exact absurd rfl hld
      | dmast => exact absurd rfl hst
      | _ => rfl
  · obtain ⟨c, hc⟩ | ⟨-, ns, chan, addr, rfl⟩ := exec_next_cur h
    · cases hcur.symm.trans hc
    · obtain ⟨-, c, rfl, -, -, rfl⟩ := exec_dmago_next h
      exact ⟨ns, addr, c, rfl, by rw [chan_setChan_same]⟩
  · subst hi
    exact (exec_dmago_next h).1

/-- Settles O48, one case per instruction that completes on a channel. -/
theorem channelRegisterFrame : Obligations.ChannelRegisterFrame := by
  intro i s t c hcur h
  cases completes_of_exec hcur h with
  | dmalp lc count hpc => cases lc <;> simp [Chan.setLc]
  | @dmalpend_through lc bjump hlc hpc => cases lc <;> simp
  | @dmalpend_back lc bjump v hlc hv hback hspace => cases lc <;> simp [Chan.setLc]
  | dmamov rd imm hpc => cases rd <;> simp [Chan.setMov]
  | _ => simp

end Sys2Proof.Machine

/-! PROOFS. Bursts: the beats of DMALD and of DMAST one after another, where they stop, and the bytes they move. -/
namespace Sys2Proof.Machine

/-! ## Accesses that fail -/

theorem access_eq_addressError {p : Params} {u : Purpose} {a n : Nat} (h : addrSpace < a + n ∨ p.addrOk u a = false) :
    p.access u a n = .error .addressError := if_pos h

theorem access_eq_controllerFault {p : Params} {u : Purpose} {a n : Nat} (hle : a + n ≤ addrSpace)
    (hok : p.addrOk u a = true) (hn : 0 < n)
    (hbus : ∃ r ∈ p.busErrors, 0 < r.size ∧ a < r.base + r.size ∧ r.base < a + n) :
    p.access u a n = .error .controllerFault := by
  obtain ⟨r, hr, hsize, hbelow, habove⟩ := hbus
  have hany : p.busErrors.any (fun r => r.meets a n) = true :=
    List.any_eq_true.2 ⟨r, hr, by simp [AddrRange.meets, hsize, hn, hbelow, habove]⟩
  simp [Params.access, Nat.not_lt.2 hle, hok, hany]

/-! ## The addresses of the beats -/

@[simp] theorem beatAddr_zero (inc : Bool) (base width : Nat) : beatAddr inc base width 0 = base := by
  simp [beatAddr]

/-- `P` holds of the addresses of the first `k` beats of a burst from `a` on (R205, R206). -/
def Burst.AllBeats (b : Burst) (a k : Nat) (P : Nat → Prop) : Prop := ∀ n, n < k → P (beatAddr b.inc a b.width n)

/-- It holds of the first one and of those behind it. -/
theorem Burst.allBeats_succ {b : Burst} {a k : Nat} {P : Nat → Prop} :
    b.AllBeats a (k + 1) P ↔ P a ∧ b.AllBeats (if b.inc then a + b.width else a) k P := by
  simp only [Burst.AllBeats, beatAddr_next]
  refine ⟨fun h => ⟨beatAddr_zero b.inc a b.width ▸ h 0 (Nat.succ_pos k), fun n hn => h (n + 1) (by omega)⟩, ?_⟩
  rintro ⟨hfirst, hrest⟩ (_ | n) hn
  · exact (beatAddr_zero b.inc a b.width).symm ▸ hfirst
  · exact hrest n (by omega)

/-! ## The beats of a load -/

/-- The bytes of the first `k` beats of a burst from `a` on (R205). -/
def Burst.gather (b : Burst) (m : Memory) (a k : Nat) : List Byte :=
  (List.range k).flatMap fun j => Memory.readBytes m (beatAddr b.inc a b.width j) b.width

theorem Burst.gather_succ (b : Burst) (m : Memory) (a k : Nat) :
    b.gather m a (k + 1) =
      Memory.readBytes m a b.width ++ b.gather m (if b.inc then a + b.width else a) k := by
  simp only [Burst.gather, List.range_succ_eq_map, List.flatMap_cons, List.flatMap_map, beatAddr_zero, beatAddr_next]

/-- One beat that can be accessed: its bytes and the beats behind it where it fits, else FifoOverflow (R205). -/
theorem loadBeats_succ {s : State} {b : Burst} {a : Nat} (k held : Nat)
    (h : s.params.access .load a b.width = .ok ()) :
    s.loadBeats b (k + 1) a held =
      if s.params.mfifoBytes < held + b.width then .error .fifoOverflow
      else (s.loadBeats b k (if b.inc then a + b.width else a) (held + b.width)).map
        (Memory.readBytes s.mem a b.width ++ ·) := by
  rw [State.loadBeats, memRead_ok h, except_ok_bind]
  by_cases hfull : s.params.mfifoBytes < held + b.width
  · rw [if_pos hfull, if_pos hfull]
    rfl
  · rw [if_neg hfull, if_neg hfull]
    rfl

/-- Beats that can be accessed and that fit are passed over, their bytes in order. -/
theorem loadBeats_add {s : State} {b : Burst} {j a held : Nat} (k : Nat)
    (hgood : b.AllBeats a j fun x => s.params.access .load x b.width = .ok ())
    (hroom : held + j * b.width ≤ s.params.mfifoBytes) :
    s.loadBeats b (j + k) a held =
      (s.loadBeats b k (beatAddr b.inc a b.width j) (held + j * b.width)).map (b.gather s.mem a j ++ ·) := by
  induction j generalizing a held with
  | zero =>
    rw [beatAddr_zero, Nat.zero_add, Nat.zero_mul, Nat.add_zero]
    cases s.loadBeats b k a held <;> rfl
  | succ j ih =>
    obtain ⟨hfirst, hmore⟩ := Burst.allBeats_succ.1 hgood
    have hsum : held + b.width + j * b.width = held + (j + 1) * b.width := by rw [Nat.succ_mul]; omega
    have hrest := ih (held := held + b.width) hmore (hsum ▸ hroom)
    rw [hsum, beatAddr_next] at hrest
    rw [Nat.succ_add, loadBeats_succ _ _ hfirst, if_neg (by omega), hrest, Burst.gather_succ]
    cases s.loadBeats b k (beatAddr b.inc a b.width (j + 1)) (held + (j + 1) * b.width) with
    | ok rest => simp [Except.map]
    | error r => rfl

theorem loadBeats_ok {s : State} {b : Burst} {k a held : Nat}
    (hgood : b.AllBeats a k fun x => s.params.access .load x b.width = .ok ())
    (hroom : held + k * b.width ≤ s.params.mfifoBytes) : s.loadBeats b k a held = .ok (b.gather s.mem a k) := by
  have h := loadBeats_add 0 hgood hroom
  simpa [State.loadBeats, Except.map] using h

/-- The first beat that cannot be accessed is the fault (R213). -/
theorem loadBeats_error_of_access {s : State} {b : Burst} {j k a held : Nat} {r : Fault} (hj : j < k)
    (hgood : b.AllBeats a j fun x => s.params.access .load x b.width = .ok ())
    (hroom : held + j * b.width ≤ s.params.mfifoBytes)
    (hbad : s.params.access .load (beatAddr b.inc a b.width j) b.width = .error r) :
    s.loadBeats b k a held = .error r := by
  obtain ⟨n, rfl⟩ := Nat.exists_eq_add_of_lt hj
  rw [Nat.add_assoc, loadBeats_add (n + 1) hgood hroom, State.loadBeats, State.memRead, hbad]
  rfl

/-- A burst that does not fit is FifoOverflow, when its beats can be accessed (R205). -/
theorem loadBeats_error_of_overflow {s : State} {b : Burst} {k a held : Nat} (hk : 0 < k)
    (hgood : b.AllBeats a k fun x => s.params.access .load x b.width = .ok ())
    (hover : s.params.mfifoBytes < held + k * b.width) : s.loadBeats b k a held = .error .fifoOverflow := by
  induction k generalizing a held with
  | zero => omega
  | succ k ih =>
    obtain ⟨hfirst, hmore⟩ := Burst.allBeats_succ.1 hgood
    rw [loadBeats_succ _ _ hfirst]
    split
    · rfl
    · next hfits =>
      rw [Nat.succ_mul] at hover
      have hpos : 0 < k := Nat.pos_of_ne_zero fun h0 => by rw [h0] at hover; omega
      rw [ih hpos hmore (by omega)]
      rfl

/-! ## The beats of a store -/

/-- Memory after the first `k` beats of a store from `a` on have taken `bytes` (R206). -/
def Burst.scatter (b : Burst) : Nat → Nat → List Byte → Memory → Memory
  | 0, _, _, m => m
  | k + 1, a, bytes, m =>
    b.scatter k (if b.inc then a + b.width else a) (bytes.drop b.width) (Memory.writeBytes m a (bytes.take b.width))

/-- The beat at `a` can be stored: it can be accessed, and misses the program's own range (R211, R213). -/
def StoreBeatOk (p : Params) (own : AddrRange) (a n : Nat) : Prop :=
  p.access .store a n = .ok () ∧ own.meets a n = false

theorem storeBeatOk_of_apart {p : Params} {own : AddrRange} {a n : Nat}
    (h : p.access .store a n = .ok () ∧ (own.base + own.size ≤ a ∨ a + n ≤ own.base)) : StoreBeatOk p own a n :=
  ⟨h.1, by simp only [AddrRange.meets, decide_eq_false_iff_not]; omega⟩

theorem storeBeats_succ {p : Params} {own : AddrRange} {b : Burst} {a : Nat} (k : Nat) (bytes : List Byte) (m : Memory)
    (h : StoreBeatOk p own a b.width) :
    p.storeBeats own b (k + 1) a bytes m =
      p.storeBeats own b k (if b.inc then a + b.width else a) (bytes.drop b.width)
        (Memory.writeBytes m a (bytes.take b.width)) := by
  rw [Params.storeBeats, h.1, except_ok_bind, if_neg (by simp [h.2])]

/-- Beats that can be stored are passed over. -/
theorem storeBeats_add {p : Params} {own : AddrRange} {b : Burst} {j a : Nat} {bytes : List Byte} {m : Memory} (k : Nat)
    (hgood : b.AllBeats a j fun x => StoreBeatOk p own x b.width) :
    p.storeBeats own b (j + k) a bytes m =
      p.storeBeats own b k (beatAddr b.inc a b.width j) (bytes.drop (j * b.width)) (b.scatter j a bytes m) := by
  induction j generalizing a bytes m with
  | zero => simp [Burst.scatter]
  | succ j ih =>
    obtain ⟨hfirst, hmore⟩ := Burst.allBeats_succ.1 hgood
    rw [Nat.succ_add, storeBeats_succ _ _ _ hfirst, ih hmore, beatAddr_next, List.drop_drop, Nat.succ_mul,
      Nat.add_comm b.width, Burst.scatter]

theorem storeBeats_ok {p : Params} {own : AddrRange} {b : Burst} {k a : Nat} {bytes : List Byte} {m : Memory}
    (hgood : b.AllBeats a k fun x => StoreBeatOk p own x b.width) :
    p.storeBeats own b k a bytes m = .ok (b.scatter k a bytes m) :=
  storeBeats_add 0 hgood

/-- The first beat that cannot be accessed is the fault (R213). -/
theorem storeBeats_error_of_access {p : Params} {own : AddrRange} {b : Burst} {j k a : Nat} {bytes : List Byte}
    {m : Memory} {r : Fault} (hj : j < k)
    (hgood : b.AllBeats a j fun x => StoreBeatOk p own x b.width)
    (hbad : p.access .store (beatAddr b.inc a b.width j) b.width = .error r) :
    p.storeBeats own b k a bytes m = .error r := by
  obtain ⟨n, rfl⟩ := Nat.exists_eq_add_of_lt hj
  rw [Nat.add_assoc, storeBeats_add (n + 1) hgood, Params.storeBeats, hbad]
  rfl

/-- A first beat in the program's own range is ProgramOverwrite (R211). -/
theorem storeBeats_error_of_own {p : Params} {own : AddrRange} {b : Burst} {k a : Nat} (bytes : List Byte) (m : Memory)
    (hacc : p.access .store a b.width = .ok ()) (hmeets : own.meets a b.width = true) :
    p.storeBeats own b (k + 1) a bytes m = .error .programOverwrite := by
  rw [Params.storeBeats, hacc, except_ok_bind, if_pos hmeets]
  rfl

/-! ## What a store leaves in memory -/

theorem read_writeBytes {m : Memory} (hm : Memory.wf m = true) (a x : Nat) (bs : List Byte) :
    Memory.read (Memory.writeBytes m a bs) x =
      if a ≤ x ∧ x < a + bs.length then bs.getD (x - a) 0 else Memory.read m x := by
  split
  · next hin =>
    obtain ⟨n, rfl⟩ := Nat.exists_eq_add_of_le hin.1
    have hn : n < bs.length := by omega
    rw [Memory.read_writeBytes_inside hm hn, Nat.add_sub_cancel_left, List.getD_eq_getElem _ _ hn]
  · next hout => exact Memory.read_writeBytes_outside hm (by omega)

/-- A moving address lays the beats one behind the other. -/
theorem scatter_inc {b : Burst} (hinc : b.inc = true) {k a : Nat} {bytes : List Byte} (m : Memory)
    (hlen : k * b.width ≤ bytes.length) :
    b.scatter k a bytes m = Memory.writeBytes m a (bytes.take (k * b.width)) := by
  induction k generalizing a bytes m with
  | zero => simp [Burst.scatter, Memory.writeBytes]
  | succ k ih =>
    rw [Nat.succ_mul] at hlen
    have htake : (bytes.take b.width).length = b.width := by simp; omega
    rw [Burst.scatter, if_pos hinc, ih _ (by simp; omega), Nat.succ_mul, Nat.add_comm (k * b.width), List.take_add,
      Memory.writeBytes_append, htake]

theorem read_scatter_inc {b : Burst} (hinc : b.inc = true) {k a : Nat} {bytes : List Byte} {m : Memory}
    (hm : Memory.wf m = true) (hlen : k * b.width ≤ bytes.length) (x : Nat) :
    Memory.read (b.scatter k a bytes m) x =
      if a ≤ x ∧ x < a + k * b.width then bytes.getD (x - a) 0 else Memory.read m x := by
  rw [scatter_inc hinc m hlen, read_writeBytes hm, List.length_take_of_le hlen]
  split
  · next hin => rw [List.getD_eq_getElem?_getD, List.getElem?_take_of_lt (by omega), List.getD_eq_getElem?_getD]
  · rfl

/-- A fixed one keeps the last beat. -/
theorem read_scatter_fixed {b : Burst} (hinc : b.inc = false) {k a : Nat} {bytes : List Byte} {m : Memory}
    (hm : Memory.wf m = true) (hlen : (k + 1) * b.width ≤ bytes.length) (x : Nat) :
    Memory.read (b.scatter (k + 1) a bytes m) x =
      if a ≤ x ∧ x < a + b.width then bytes.getD (k * b.width + (x - a)) 0 else Memory.read m x := by
  have htake : (bytes.take b.width).length = b.width := by
    rw [Nat.succ_mul] at hlen
    simp; omega
  induction k generalizing bytes m with
  | zero =>
    simp only [Burst.scatter, read_writeBytes hm, htake]
    split
    · next hin =>
      rw [List.getD_eq_getElem?_getD, List.getElem?_take_of_lt (by omega), List.getD_eq_getElem?_getD, Nat.zero_mul,
        Nat.zero_add]
    · rfl
  | succ k ih =>
    rw [Nat.succ_mul] at hlen
    have hdrop : (k + 1) * b.width ≤ (bytes.drop b.width).length := by simp; omega
    rw [Burst.scatter, if_neg (by simp [hinc]), ih (Memory.wf_writeBytes hm _ _) hdrop
      (by rw [Nat.succ_mul] at hdrop; simp at hdrop ⊢; omega), read_writeBytes hm, htake]
    split
    · have hindex : b.width + (k * b.width + (x - a)) = (k + 1) * b.width + (x - a) := by rw [Nat.succ_mul]; omega
      rw [List.getD_eq_getElem?_getD, List.getElem?_drop, hindex, List.getD_eq_getElem?_getD]
    · rfl

end Sys2Proof.Machine

/-! PROOFS. DMALD and DMAST: the burst each moves, and where each stops. -/
namespace Sys2Proof.Machine

/-! ## The bursts that CCR describes -/

theorem srcBurst_width_pos (l : CcrLayout) (ccr : Word) : 0 < (srcBurst l ccr).width := Nat.two_pow_pos _
theorem dstBurst_width_pos (l : CcrLayout) (ccr : Word) : 0 < (dstBurst l ccr).width := Nat.two_pow_pos _

theorem advancePc_error {pc : Word} {n : Nat} (h : addrSpace ≤ pc.toNat + n) : advancePc pc n = .error .pcRange :=
  if_neg (Nat.not_lt.2 h)

/-! ## Where a load stops -/

section
variable {s : State} {c : Fin 8} {ccr sar : Word} {r : Fault}

theorem dmald_error_of_unwritten (hcur : s.cur = .channel c) (h : (s.chan c).ccr = none ∨ (s.chan c).sar = none) :
    exec .dmald s = .fault .unwrittenRegister := by
  refine onChannel_error hcur ?_
  rcases h with hccr | hsar
  · simp [State.load, hccr]
  · cases hccr : (s.chan c).ccr <;> simp [State.load, hccr, hsar]

theorem dmald_error_of_beats (hcur : s.cur = .channel c) (hccr : (s.chan c).ccr = some ccr)
    (hsar : (s.chan c).sar = some sar)
    (hbeats : s.loadBeats (srcBurst s.params.ccrLayout ccr) (srcBurst s.params.ccrLayout ccr).beats sar.toNat
      (s.chan c).fifo.length = .error r) : exec .dmald s = .fault r :=
  onChannel_error hcur (by simp [State.load, hccr, hsar, hbeats])

theorem dmald_error_of_pc {bytes : List Byte} (hcur : s.cur = .channel c) (hccr : (s.chan c).ccr = some ccr)
    (hsar : (s.chan c).sar = some sar)
    (hbeats : s.loadBeats (srcBurst s.params.ccrLayout ccr) (srcBurst s.params.ccrLayout ccr).beats sar.toNat
      (s.chan c).fifo.length = .ok bytes) (hpc : addrSpace ≤ (s.chan c).pc.toNat + 1) : exec .dmald s = .fault .pcRange :=
  onChannel_error hcur (by simp [State.load, hccr, hsar, hbeats, advancePc_error hpc])

end

/-! ## Where a store stops -/

section
variable {s : State} {c : Fin 8} {ccr dar : Word} {r : Fault}

theorem dmast_error_of_unwritten_ccr (hcur : s.cur = .channel c) (hccr : (s.chan c).ccr = none) :
    exec .dmast s = .fault .unwrittenRegister :=
  onChannel_error hcur (by simp [State.store, hccr])

theorem dmast_error_of_underrun (hcur : s.cur = .channel c) (hccr : (s.chan c).ccr = some ccr)
    (hdata : (s.chan c).fifo.length < (dstBurst s.params.ccrLayout ccr).bytes) :
    exec .dmast s = .fault .fifoUnderrun :=
  onChannel_error hcur (by simp [State.store, hccr, hdata])

theorem dmast_error_of_unwritten_dar (hcur : s.cur = .channel c) (hccr : (s.chan c).ccr = some ccr)
    (hdata : (dstBurst s.params.ccrLayout ccr).bytes ≤ (s.chan c).fifo.length) (hdar : (s.chan c).dar = none) :
    exec .dmast s = .fault .unwrittenRegister :=
  onChannel_error hcur (by simp [State.store, hccr, Nat.not_lt.2 hdata, hdar])

theorem dmast_error_of_beats (hcur : s.cur = .channel c) (hccr : (s.chan c).ccr = some ccr)
    (hdata : (dstBurst s.params.ccrLayout ccr).bytes ≤ (s.chan c).fifo.length) (hdar : (s.chan c).dar = some dar)
    (hbeats : s.params.storeBeats (s.chan c).own (dstBurst s.params.ccrLayout ccr)
      (dstBurst s.params.ccrLayout ccr).beats dar.toNat (s.chan c).fifo s.mem = .error r) :
    exec .dmast s = .fault r :=
  onChannel_error hcur (by simp [State.store, hccr, Nat.not_lt.2 hdata, hdar, hbeats])

theorem dmast_error_of_pc {mem : Memory} (hcur : s.cur = .channel c) (hccr : (s.chan c).ccr = some ccr)
    (hdata : (dstBurst s.params.ccrLayout ccr).bytes ≤ (s.chan c).fifo.length) (hdar : (s.chan c).dar = some dar)
    (hbeats : s.params.storeBeats (s.chan c).own (dstBurst s.params.ccrLayout ccr)
      (dstBurst s.params.ccrLayout ccr).beats dar.toNat (s.chan c).fifo s.mem = .ok mem)
    (hpc : addrSpace ≤ (s.chan c).pc.toNat + 1) : exec .dmast s = .fault .pcRange :=
  onChannel_error hcur (by simp [State.store, hccr, Nat.not_lt.2 hdata, hdar, hbeats, advancePc_error hpc])

end

/-- Settles O42: each read of an unwritten register, in the order of R204 to R206. -/
theorem unwrittenRegistersFault : Obligations.UnwrittenRegistersFault := by
  intro s c hcur
  exact ⟨dmald_error_of_unwritten hcur, dmast_error_of_unwritten_ccr hcur,
    fun ccr hccr hdar hdata => dmast_error_of_unwritten_dar hcur hccr hdata hdar,
    fun bjump hlc => dmalpend_error_of_unwritten bjump hcur hlc,
    fun bjump hlc => dmalpend_error_of_unwritten bjump hcur hlc⟩

/-- Settles O43: a load stops at the beat that does not fit, a store before its first beat. -/
theorem fifoBoundsFault : Obligations.FifoBoundsFault := by
  intro s c ccr hcur hccr
  exact ⟨fun sar hsar hgood hover =>
      dmald_error_of_beats hcur hccr hsar (loadBeats_error_of_overflow (Nat.succ_pos _) hgood hover),
    fun hdata => dmast_error_of_underrun hcur hccr hdata⟩

/-- Settles O44: the beats before the bad one are passed over, then the access answers. -/
theorem beatsThatCannotBeAccessedFault : Obligations.BeatsThatCannotBeAccessedFault := by
  intro s c ccr hcur hccr
  refine ⟨fun sar j hsar hj hgood hroom => ?_, fun dar j hdar hj hgood hdata => ?_⟩
  · have stops : ∀ {r}, s.params.access .load (beatAddr (srcBurst s.params.ccrLayout ccr).inc sar.toNat
        (srcBurst s.params.ccrLayout ccr).width j) (srcBurst s.params.ccrLayout ccr).width = .error r →
        exec .dmald s = .fault r :=
      fun hbad => dmald_error_of_beats hcur hccr hsar (loadBeats_error_of_access hj hgood hroom hbad)
    exact ⟨fun h => stops (access_eq_addressError h),
      fun hle hok hbus => stops (access_eq_controllerFault hle hok (srcBurst_width_pos ..) hbus)⟩
  · have stops : ∀ {r}, s.params.access .store (beatAddr (dstBurst s.params.ccrLayout ccr).inc dar.toNat
        (dstBurst s.params.ccrLayout ccr).width j) (dstBurst s.params.ccrLayout ccr).width = .error r →
        exec .dmast s = .fault r :=
      fun hbad => dmast_error_of_beats hcur hccr hdata hdar
        (storeBeats_error_of_access hj (fun n hn => storeBeatOk_of_apart (hgood n hn)) hbad)
    exact ⟨fun h => stops (access_eq_addressError h),
      fun hle hok hbus => stops (access_eq_controllerFault hle hok (dstBurst_width_pos ..) hbus)⟩

/-- Settles O45, one clause per instruction that moves the pc on. -/
theorem pcBeyondTheAddressSpaceFaults : Obligations.PcBeyondTheAddressSpaceFaults := by
  intro s c hcur
  refine ⟨fun hpc => ?_, fun hpc lc count ev bjump => ?_, fun lc bjump v hlc hv horigin hjump => ?_,
    fun hpc rd imm => ?_, fun ccr sar hccr hsar hpc hgood hroom => ?_, fun ccr dar hccr hdar hpc hgood hdata => ?_⟩
  · have hbarrier : s.barrier c = .error .pcRange := by simp [State.barrier, advancePc_error hpc]
    exact ⟨onChannel_error hcur hbarrier, onChannel_error hcur hbarrier⟩
  · have hadvance := advancePc_error hpc
    refine ⟨onChannel_error hcur (by simp [hadvance]), onChannel_error hcur (by simp [hadvance]), fun hlc => ?_⟩
    rw [← lc_eq] at hlc
    exact onChannel_error hcur (by simp [hlc, hadvance])
  · rw [← lc_eq] at hlc
    refine dmalpend_error_of_jump hcur hlc hv (if_neg ?_)
    rw [horigin, jumpOrigin, addrSpace]
    omega
  · exact onChannel_error hcur (by simp [advancePc_error hpc])
  · exact dmald_error_of_pc hcur hccr hsar (loadBeats_ok hgood hroom) hpc
  · exact dmast_error_of_pc hcur hccr hdata hdar
      (storeBeats_ok fun n hn => storeBeatOk_of_apart (hgood n hn)) hpc

/-! ## What a burst brings and what it leaves -/

/-- Settles O35: every beat is passed over, so the load completes with the bytes of all of them. -/
theorem loadBringsOneBurst : Obligations.LoadBringsOneBurst := by
  intro s c ccr sar hcur hccr hsar ch l w k inc hgood hroom hpc
  refine ⟨_, _, (Completes.dmald hccr hsar (loadBeats_ok hgood hroom) hpc).exec hcur, fun hinc => ?_,
    fun hinc hfits => ?_⟩
  · exact bump_fixed s sar hinc
  · exact bump_inc s hinc hfits

/-- Settles O36: the beats lie one behind the other, or the last one at DAR. -/
theorem storeWritesOneBurst : Obligations.StoreWritesOneBurst := by
  intro s c ccr dar hwf hcur hccr hdar ch l w k inc hgood hdata hpc
  refine ⟨_, _, _, _, (Completes.dmast hccr hdar hdata
    (storeBeats_ok fun n hn => storeBeatOk_of_apart (hgood n hn)) hpc).exec hcur, fun hinc => ?_, fun hinc hfits => ?_,
    fun a => ?_, fun hinc a => ?_, fun hinc a => ?_⟩
  · exact bump_fixed s dar hinc
  · exact bump_inc s hinc hfits
  · rw [mem_setInsertRange, or_comm]
    rfl
  · exact read_scatter_inc hinc hwf hdata a
  · exact read_scatter_fixed hinc hwf hdata a

/-- Settles O46: each beat was asked whether it meets the program's own range. -/
theorem storeNeverTouchesItsOwnProgram : Obligations.StoreNeverTouchesItsOwnProgram := by
  intro s c hwf hcur
  refine ⟨fun t h a hbase hend => ?_, fun ccr dar hccr hdar hdata hacc hlen habove hbelow => ?_⟩
  · cases completes_of_exec hcur h with
    | dmast hccr hdar hdata hbeats hpc =>
      obtain ⟨-, -, hown⟩ := storeBeats_eq_ok hbeats hwf
      exact hown a (by simp [AddrRange.has, Chan.own, hbase, hend])
  · refine dmast_error_of_beats hcur hccr hdata hdar (storeBeats_error_of_own _ _ hacc ?_)
    exact decide_eq_true ⟨hlen, dstBurst_width_pos .., habove, hbelow⟩

/-- Settles O49: a byte that changes lies in a beat. -/
theorem storeFrame : Obligations.StoreFrame := by
  intro s t c ccr dar hwf hcur hccr hdar h l w a hout
  by_contra hchanged
  obtain ⟨-, ccr', dar', hccr', hdar', j, hj, hlow, hhigh⟩ := exec_changes h hcur hwf hchanged
  obtain rfl := Option.some.inj (hccr.symm.trans hccr')
  obtain rfl := Option.some.inj (hdar.symm.trans hdar')
  rcases hout j hj with hbelow | habove
  · exact absurd hbelow (Nat.not_lt.2 hlow)
  · exact absurd hhigh (Nat.not_lt.2 habove)

end Sys2Proof.Machine

/-! PROOFS. Fetching: what a channel's step runs, and the fetches that fault it. -/
namespace Sys2Proof.Machine

/-! ## Fetch -/

theorem instrLen_pos {o : Opc} {b0 : Byte} {n : Nat} (h : instrLen o b0 = some n) : 0 < n := by
  obtain ⟨head, -, rfl⟩ := Option.map_eq_some_iff.1 h
  have := head.len_cases
  omega

section
variable {s : State} {pc : Word} {n : Nat} {r : Fault}

theorem fetch_error_of_head (h : s.params.access .fetch pc.toNat 1 = .error r) : s.fetch pc = .error r := by
  simp [State.fetch, State.memRead, h]

theorem fetch_error_of_no_length (hhead : s.params.access .fetch pc.toNat 1 = .ok ())
    (hlen : instrLen s.params.opc (Memory.read s.mem pc.toNat) = none) : s.fetch pc = .error .undecodable := by
  simp [State.fetch, memRead_ok hhead, Memory.readBytes, hlen]

/-- Behind a byte 0 that tells a length the remaining bytes are fetched (R214). -/
theorem fetch_of_head (hhead : s.params.access .fetch pc.toNat 1 = .ok ())
    (hlen : instrLen s.params.opc (Memory.read s.mem pc.toNat) = some n) :
    s.fetch pc = (s.fetchRest (pc.toNat + 1) (n - 1) >>= fun rest =>
      decodeOrFault s.params.opc (Memory.read s.mem pc.toNat :: rest)) := by
  simp [State.fetch, memRead_ok hhead, Memory.readBytes, hlen]

theorem fetch_error_of_rest (hhead : s.params.access .fetch pc.toNat 1 = .ok ())
    (hlen : instrLen s.params.opc (Memory.read s.mem pc.toNat) = some n) (hn : 1 < n)
    (hrest : s.params.access .fetch (pc.toNat + 1) (n - 1) = .error r) : s.fetch pc = .error r := by
  rw [fetch_of_head hhead hlen, State.fetchRest, if_neg (by omega), State.memRead, hrest]
  rfl

/-- Bytes that can be fetched are decoded, as many as byte 0 tells (R214). -/
theorem fetch_of_access (hhead : s.params.access .fetch pc.toNat 1 = .ok ())
    (hlen : instrLen s.params.opc (Memory.read s.mem pc.toNat) = some n)
    (hrest : n = 1 ∨ s.params.access .fetch (pc.toNat + 1) (n - 1) = .ok ()) :
    s.fetch pc = decodeOrFault s.params.opc (Memory.readBytes s.mem pc.toNat n) := by
  obtain ⟨k, rfl⟩ : ∃ k, n = k + 1 := Nat.exists_eq_add_one.2 (instrLen_pos hlen)
  rw [Nat.add_sub_cancel] at hrest
  rw [fetch_of_head hhead hlen, State.fetchRest, Nat.add_sub_cancel]
  split
  · next hk => rw [hk]; rfl
  · next hk => rw [memRead_ok (hrest.resolve_left (by omega))]; rfl

end

theorem decodeOrFault_eq_ok {o : Opc} {bytes : List Byte} {i : Instr} (h : decodeOrFault o bytes = .ok i) :
    ∃ rest, decode o bytes = .ok (i, rest) := by
  unfold decodeOrFault at h
  split at h
  · next j rest hd => exact ⟨rest, Except.ok.inj h ▸ hd⟩
  · cases h

/-- The bytes of a well-formed instruction are fetched as that instruction. -/
theorem fetch_of_encode {s : State} {pc : Word} {i : Instr} (ho : s.params.opc.legal) (hwf : i.wf = true)
    (hbytes : Memory.readBytes s.mem pc.toNat (encode s.params.opc i).length = encode s.params.opc i)
    (hhead : s.params.access .fetch pc.toNat 1 = .ok ())
    (hrest : (encode s.params.opc i).length = 1 ∨
      s.params.access .fetch (pc.toNat + 1) ((encode s.params.opc i).length - 1) = .ok ()) : s.fetch pc = .ok i := by
  have hb0 : Memory.read s.mem pc.toNat = s.params.opc.byte0 i.head := (List.cons.inj hbytes).1
  have hlen : instrLen s.params.opc (Memory.read s.mem pc.toNat) = some (encode s.params.opc i).length := by
    rw [hb0]; exact instrLen_encode ho i
  have hdecode := decodeOfEncodeGivesTheInstruction s.params.opc i [] ho hwf
  rw [List.append_nil] at hdecode
  rw [fetch_of_access hhead hlen hrest, hbytes, decodeOrFault, hdecode]

/-! ## A channel's step -/

/-- An executing channel that nothing is injected for runs what it fetches (R214). -/
theorem channelStep_of_executing {s : State} {c : Fin 8} (hdebug : s.debugFor c = false)
    (hrun : (s.chan c).status = .executing) :
    s.channelStep c = ({ s with cur := .channel c } : State).runFetched (s.fetch (s.chan c).pc) := by
  rw [State.channelStep, hdebug, if_neg Bool.false_ne_true, if_pos hrun]
  rfl

/-- One that is not executing waits. -/
theorem channelStep_of_waiting {s : State} {c : Fin 8} (hdebug : s.debugFor c = false)
    (hwait : (s.chan c).status ≠ .executing) : s.channelStep c = .next s := by
  rw [State.channelStep, hdebug, if_neg Bool.false_ne_true, if_neg hwait]

section
variable {s : State} {c : Fin 8} {rest : List Agent}

theorem step_of_executing (hsched : s.sched = .thread (.channel c) :: rest) (hrun : (s.chan c).status = .executing)
    (hdebug : s.debugFor c = false) :
    step s = ({ s with sched := rest, cur := .channel c } : State).runFetched (s.fetch (s.chan c).pc) := by
  rw [step_of_sched hsched]
  exact channelStep_of_executing (s := { s with sched := rest }) hdebug hrun

/-- A fetch that fails marks the channel Faulted and leaves memory. -/
theorem step_of_failed_fetch {r : Fault} (hsched : s.sched = .thread (.channel c) :: rest)
    (hrun : (s.chan c).status = .executing) (hdebug : s.debugFor c = false) (hfetch : s.fetch (s.chan c).pc = .error r) :
    ∃ t, step s = .next t ∧ (t.chan c).status = .faulted r ∧ t.mem = s.mem := by
  rw [step_of_executing hsched hrun hdebug, hfetch]
  exact ⟨_, rfl, congrArg Chan.status (chan_setChan_same ..), rfl⟩

end

/-- Settles O50: the fetch gives the instruction, and its answer is settled on the channel. -/
theorem stepRunsTheFetchedInstruction : Obligations.StepRunsTheFetchedInstruction := by
  intro s c rest i ho hsched hrun hdebug hwf hbytes hhead hrest u
  rw [step_of_executing hsched hrun hdebug, fetch_of_encode ho hwf hbytes hhead hrest]
  change u.settle (.channel c) (exec i u) = _
  cases exec i u <;> rfl

/-- Settles O52, each clause by the part of the fetch that fails. -/
theorem stepFaultsOnAFailedFetch : Obligations.StepFaultsOnAFailedFetch := by
  intro s c rest hsched hrun hdebug pc b0 ok faults bus
  have stops : ∀ {r}, s.fetch (s.chan c).pc = .error r → faults r := step_of_failed_fetch hsched hrun hdebug
  have hpc : pc + 1 ≤ addrSpace := (s.chan c).pc.isLt
  refine ⟨fun hhead hlen => ?_, fun n hhead hlen hrest hd => ?_, fun hrefused => ?_, fun n hhead hlen hn hbad => ?_,
    fun hok hbus => ?_, fun n hhead hlen hn hle hok hbus => ?_⟩
  · exact stops (fetch_error_of_no_length hhead hlen)
  · refine stops ?_
    rw [fetch_of_access hhead hlen hrest, decodeOrFault, hd]
  · exact stops (fetch_error_of_head (access_eq_addressError (.inr hrefused)))
  · refine stops (fetch_error_of_rest hhead hlen hn (access_eq_addressError (hbad.imp_left fun h => ?_)))
    rw [addrSpace]; omega
  · exact stops (fetch_error_of_head (access_eq_controllerFault hpc hok Nat.one_pos hbus))
  · refine stops (fetch_error_of_rest hhead hlen hn (access_eq_controllerFault ?_ hok (by omega) hbus))
    rw [addrSpace]; omega

/-- Settles O53: a channel that is not executing waits. -/
theorem stoppedChannelsWait : Obligations.StoppedChannelsWait := by
  intro s c rest hsched hrun hdebug
  rw [step_of_sched hsched]
  exact channelStep_of_waiting (s := { s with sched := rest }) hdebug hrun

end Sys2Proof.Machine

/-! PROOFS. What every step keeps: memory and the sets about it, each channel's bounds, and the channels that are absent. -/
namespace Sys2Proof.Machine

/-! ## The invariant, memory and channels apart -/

/-- What the invariant asks of channel `c`. -/
def ChanOk (p : Params) (c : Fin 8) (ch : Chan) : Prop := ch.Inv p ∧ (p.nChannels ≤ c.val → ch.status = .stopped)

theorem inv_iff {s : State} : s.Inv ↔ s.MemOk ∧ ∀ c, ChanOk s.params c (s.chan c) :=
  ⟨fun h => ⟨⟨h.mem_wf, h.mem_in_space, h.dirty_rising, h.stored_rising⟩, fun c => ⟨h.chan_inv c, h.absent_stopped c⟩⟩,
    fun ⟨hm, hc⟩ => ⟨hm.wf, hm.in_space, hm.dirty_rising, hm.stored_rising, fun c => (hc c).1, fun c => (hc c).2⟩⟩

/-- A channel whose fifo and event set stay is well formed when it may have its new status. -/
theorem ChanOk.of_eq {p : Params} {c : Fin 8} {ch ch' : Chan} (h : ChanOk p c ch) (hfifo : ch'.fifo = ch.fifo)
    (hevents : ch'.events = ch.events) (hstatus : p.nChannels ≤ c.val → ch'.status = .stopped) : ChanOk p c ch' :=
  ⟨⟨hfifo ▸ h.1.fifo_fits, hevents ▸ h.1.events_rising, hevents ▸ h.1.events_range⟩, hstatus⟩

/-- So is one with both empty. -/
theorem ChanOk.of_empty {p : Params} {c : Fin 8} {ch : Chan} (hfifo : ch.fifo = []) (hevents : ch.events = [])
    (hstatus : p.nChannels ≤ c.val → ch.status = .stopped) : ChanOk p c ch :=
  ⟨⟨by simp [hfifo], by simp [hevents], by simp [hevents]⟩, hstatus⟩

theorem State.Inv.of_chans {s t : State} (hs : s.Inv) (hparams : t.params = s.params) (hchans : t.chans = s.chans)
    (hmem : MemKept s t) : t.Inv := by
  obtain ⟨hm, hc⟩ := inv_iff.1 hs
  refine inv_iff.2 ⟨hmem hm, fun c => ?_⟩
  rw [hparams, State.chan, hchans]
  exact hc c

/-- One channel changes. -/
theorem State.Inv.of_chan {s t : State} {c : Fin 8} (hs : s.Inv) (hparams : t.params = s.params)
    (hother : ∀ d, d ≠ c → t.chan d = s.chan d) (hmem : MemKept s t) (hchan : ChanOk s.params c (t.chan c)) : t.Inv := by
  obtain ⟨hm, hc⟩ := inv_iff.1 hs
  refine inv_iff.2 ⟨hmem hm, fun d => ?_⟩
  rw [hparams]
  by_cases hd : d = c
  · exact hd ▸ hchan
  · exact hother d hd ▸ hc d

theorem chan_reset (c : Fin 8) : State.reset.chan c = Chan.reset := by
  simp [State.chan, State.reset]

/-- Settles O54: memory and its sets are empty, and so is every channel's fifo and event set. -/
theorem resetHasTheInvariant : Obligations.ResetHasTheInvariant :=
  inv_iff.2 ⟨⟨rfl, by simp [State.reset], .nil, .nil⟩, fun c => by
    rw [chan_reset]
    exact .of_empty rfl rfl fun _ => rfl⟩

/-- Settles O60: every channel is the one before any DMAGO, both contexts are idle. -/
theorem resetStateOfTheSpec : Obligations.ResetStateOfTheSpec := by
  refine ⟨fun c => ?_, by simp [State.reset, HostCtx.reset], rfl⟩
  rw [State.RunEnded, chan_reset]
  exact ⟨rfl, rfl, rfl, rfl, rfl, rfl, rfl, rfl, fun h => Bool.false_ne_true h.2⟩

/-! ## Instructions -/

theorem Completes.memKept {i : Instr} {s t : State} {c : Fin 8} (h : Completes s c i t) : MemKept s t := by
  cases h with
  | dmast hccr hdar hdata hbeats hpc =>
    intro hs
    obtain ⟨hwf, hin, -⟩ := storeBeats_eq_ok hbeats hs.wf
    exact ⟨hwf, fun q hq => (hin q hq).elim (hs.in_space q) id, hs.dirty_rising, setInsertRange_rising hs.stored_rising⟩
  | _ => exact .of_eq rfl rfl rfl

/-- The beats bound the fifo (R205), and an event's five bits the event set (R209). -/
theorem Completes.chanOk {i : Instr} {s t : State} {c : Fin 8} (h : Completes s c i t) (hwf : i.wf = true)
    (hs : ChanOk s.params c (s.chan c)) : ChanOk s.params c (t.chan c) := by
  obtain ⟨hinv, habsent⟩ := hs
  cases h with
  | dmaend hfifo =>
    rw [chan_setChan_same]
    exact .of_eq ⟨hinv, habsent⟩ rfl rfl fun _ => rfl
  | dmald hccr hsar hbeats hpc =>
    rw [chan_setChan_same]
    obtain ⟨-, hroom⟩ := loadBeats_eq_ok hbeats hinv.fifo_fits
    exact ⟨⟨by simpa using hroom, hinv.events_rising, hinv.events_range⟩, habsent⟩
  | dmast hccr hdar hdata hbeats hpc =>
    rw [chan_setChan_same]
    have hless := hinv.fifo_fits
    exact ⟨⟨by simp; omega, hinv.events_rising, hinv.events_range⟩, habsent⟩
  | dmasev event hpc =>
    rw [chan_setChan_same]
    refine ⟨⟨hinv.fifo_fits, setInsert_rising hinv.events_rising, fun e he => ?_⟩, habsent⟩
    rcases mem_setInsert.1 he with rfl | he
    · simpa [Instr.wf] using hwf
    · exact hinv.events_range e he
  | _ =>
    rw [chan_setChan_same]
    exact .of_eq ⟨hinv, habsent⟩ (by simp) (by simp) (by simpa using habsent)

theorem Completes.params {i : Instr} {s t : State} {c : Fin 8} (h : Completes s c i t) : t.params = s.params := by
  obtain ⟨mem, stored, irq, n, ch, rfl⟩ := h.exists_eq
  rfl

theorem Completes.keeps_inv {i : Instr} {s t : State} {c : Fin 8} (h : Completes s c i t) (hwf : i.wf = true)
    (hs : s.Inv) : t.Inv :=
  hs.of_chan h.params (fun _ hd => h.chan_other hd) h.memKept (h.chanOk hwf ((inv_iff.1 hs).2 c))

/-! ## Threads -/

/-- What a fetch or the injection registers give is well formed: its operands come from their fields (R79). -/
theorem wf_of_decodeOrFault {o : Opc} {bytes : List Byte} {i : Instr} (h : decodeOrFault o bytes = .ok i) :
    i.wf = true := by
  obtain ⟨rest, hd⟩ := decodeOrFault_eq_ok h
  exact (encodeOfDecodeGivesTheBytes _ _ _ _ hd).1

theorem wf_of_fetch {s : State} {pc : Word} {i : Instr} (h : s.fetch pc = .ok i) : i.wf = true := by
  obtain ⟨bytes, rest, hd⟩ := fetch_eq_ok h
  exact (decode_eq_ok hd).1

theorem lt_nChannels_of_debugFor {s : State} {c : Fin 8} (h : s.debugFor c = true) : c.val < s.params.nChannels := by
  simp only [State.debugFor, Bool.and_eq_true, decide_eq_true_eq] at h
  exact h.1.2

/-- A channel the controller lacks is Stopped, so one that executes is there. -/
theorem State.Inv.lt_nChannels {s : State} {c : Fin 8} (hs : s.Inv) (hrun : (s.chan c).status = .executing) :
    c.val < s.params.nChannels := by
  by_contra habsent
  cases hrun.symm.trans (hs.absent_stopped c (Nat.not_lt.1 habsent))

theorem channelStep_keeps_inv {s t : State} {c : Fin 8} (h : s.channelStep c = .next t) (hs : s.Inv) : t.Inv := by
  have hcur : ({ s with cur := .channel c } : State).Inv := hs.of_chans rfl rfl (.of_eq rfl rfl rfl)
  rcases channelStep_next h with ⟨-, -, rfl⟩ | ⟨-, -, i, hfetch, hexec⟩ | ⟨-, i, u, hi, hexec, rfl⟩ | ⟨hwhy, r, rfl⟩
  · exact hs
  · exact (completes_of_exec rfl hexec).keeps_inv (wf_of_fetch hfetch) hcur
  · have hu := (completes_of_exec rfl hexec).keeps_inv (wf_of_decodeOrFault hi) hcur
    exact hu.of_chans rfl rfl (.of_eq rfl rfl rfl)
  · have hpresent : c.val < s.params.nChannels := hwhy.elim lt_nChannels_of_debugFor hs.lt_nChannels
    refine hs.of_chan rfl (fun d hd => chan_setChan_other _ _ hd) (.of_eq rfl rfl rfl) ?_
    rw [chan_setChan_same]
    exact ((inv_iff.1 hs).2 c).of_eq rfl rfl fun habsent => absurd hpresent (Nat.not_lt.2 habsent)

theorem managerStep_keeps_inv {s t : State} (h : s.managerStep = .next t) (hs : s.Inv) : t.Inv := by
  rcases managerStep_next h with rfl | ⟨-, -, ⟨-, i, u, -, hexec, rfl⟩ | ⟨th, r, rfl⟩⟩
  · exact hs
  · obtain ⟨d, hd⟩ | ⟨-, ns, chan, addr, rfl⟩ := exec_next_cur hexec
    · cases hd
    · obtain ⟨-, c, rfl, hpresent, -, rfl⟩ := exec_dmago_next hexec
      refine hs.of_chan (c := c) rfl (fun d hd => chan_setChan_other _ _ hd) (.of_eq rfl rfl rfl) ?_
      refine .of_empty (congrArg Chan.fifo (chan_setChan_same ..)) (congrArg Chan.events (chan_setChan_same ..)) ?_
      exact fun habsent => absurd hpresent (Nat.not_lt.2 habsent)
  · exact hs.of_chans rfl rfl (.of_eq rfl rfl rfl)

/-! ## Host contexts -/

theorem HostFrame.keeps_inv {i : Nat} {s t : State} (h : HostFrame i s t) (hmem : MemKept s t) (hs : s.Inv) : t.Inv :=
  hs.of_chans h.params h.chans hmem

theorem chan_controllerReset (s : State) (c : Fin 8) :
    s.controllerReset.chan c = chanAfterReset (s.chan c) (freeAt (s.drawCount + c.val)) := by
  simp [State.chan, State.controllerReset]

theorem controllerReset_keeps_inv {s : State} (hs : s.Inv) : s.controllerReset.Inv := by
  obtain ⟨hm, hc⟩ := inv_iff.1 hs
  refine inv_iff.2 ⟨⟨hm.wf, hm.in_space, hm.dirty_rising, hm.stored_rising⟩, fun c => ?_⟩
  rw [chan_controllerReset]
  refine .of_empty rfl rfl fun habsent => ?_
  rw [chanAfterReset, (hc c).2 habsent]
  rfl

theorem hostStep_keeps_inv {s : State} (i : Nat) (hs : s.Inv) : (s.hostStep i).Inv := by
  rcases hostStep_cases s i with heq | ⟨h, -, -, ⟨j, -, heq⟩ | ⟨j, -, heq⟩ | ⟨op, ops, -, -, heq⟩⟩ <;> rw [heq]
  · exact hs
  · obtain ⟨hframe, hmem⟩ := emitStep_frame s i j
    exact hframe.keeps_inv hmem hs
  · obtain ⟨hframe, hm, hd, hst⟩ := submitStep_frame s i j
    exact hframe.keeps_inv (.of_eq hm hd hst) hs
  · have hbegun := (HostFrame.modifyHost i s fun h => { h with ops := ops, result := none }).keeps_inv
      (.of_eq rfl rfl rfl) hs
    by_cases hop : op = .resetController
    · subst hop
      exact (HostFrame.finish i _ _).keeps_inv (.of_eq rfl rfl rfl) (controllerReset_keeps_inv hbegun)
    · obtain ⟨hframe, hmem, -⟩ := startOp_frame (s.modifyHost i fun h => { h with ops := ops, result := none }) i op hop
      exact hframe.keeps_inv hmem hbegun

/-- Settles O55, by the agent that makes the step. -/
theorem stepKeepsTheInvariant : Obligations.StepKeepsTheInvariant := by
  intro s t hs h
  have hsched : ({ s with sched := s.sched.tail } : State).Inv := hs.of_chans rfl rfl (.of_eq rfl rfl rfl)
  rw [step_eq_agentStep] at h
  cases hmover : s.mover with
  | host i =>
    rw [hmover] at h
    exact Host.Outcome.next.inj h ▸ hostStep_keeps_inv i hsched
  | thread th =>
    rw [hmover] at h
    cases th with
    | manager => exact managerStep_keeps_inv h hsched
    | channel c => exact channelStep_keeps_inv h hsched

end Sys2Proof.Machine

/-! PROOFS. How a run ends: what can make an executing channel Stopped, and how a flight ends. -/
namespace Sys2Proof.Machine

/-! ## What stops a channel -/

/-- Of the instructions only DMAEND stops a channel, its own, with an empty fifo (R210). -/
theorem Completes.stops {i : Instr} {s t : State} {c d : Fin 8} (h : Completes s c i t)
    (hbefore : (s.chan d).status = .executing) (hafter : (t.chan d).status = .stopped) :
    d = c ∧ i = .dmaend ∧ (s.chan c).fifo = [] ∧
      t.chan c = { s.chan c with status := .stopped, ended := true } := by
  by_cases hd : d = c
  · subst hd
    cases h with
    | dmaend hfifo => exact ⟨rfl, rfl, hfifo, chan_setChan_same ..⟩
    | _ => simp [hbefore] at hafter
  · rw [h.chan_other hd, hbefore] at hafter
    cases hafter

theorem channelStep_stops {s t : State} {c d : Fin 8} (h : s.channelStep c = .next t)
    (hbefore : (s.chan d).status = .executing) (hafter : (t.chan d).status = .stopped) :
    d = c ∧ (s.fetch (s.chan c).pc = .ok .dmaend ∨ (s.debugFor c = true ∧ s.injected = .ok .dmaend)) ∧
      (s.chan c).fifo = [] ∧ t.chan c = { s.chan c with status := .stopped, ended := true } := by
  rcases channelStep_next h with ⟨-, -, rfl⟩ | ⟨-, -, i, hfetch, hexec⟩ | ⟨hdebug, i, u, hi, hexec, rfl⟩ | ⟨-, r, rfl⟩
  · cases hbefore.symm.trans hafter
  · obtain ⟨hd, rfl, hend⟩ := (completes_of_exec rfl hexec).stops hbefore hafter
    exact ⟨hd, .inl hfetch, hend⟩
  · obtain ⟨hd, rfl, hend⟩ := (completes_of_exec rfl hexec).stops hbefore hafter
    exact ⟨hd, .inr ⟨hdebug, hi⟩, hend⟩
  · rw [chan_setChan] at hafter
    split at hafter
    · cases hafter
    · cases hbefore.symm.trans hafter

/-- The manager stops no channel. -/
theorem managerStep_keeps_executing {s t : State} {c : Fin 8} (h : s.managerStep = .next t)
    (hbefore : (s.chan c).status = .executing) : (t.chan c).status = .executing := by
  rcases managerStep_next h with rfl | ⟨-, -, ⟨-, i, u, -, hexec, rfl⟩ | ⟨th, r, rfl⟩⟩
  · exact hbefore
  · obtain ⟨d, hd⟩ | ⟨-, ns, chan, addr, rfl⟩ := exec_next_cur hexec
    · cases hd
    · obtain ⟨-, d, -, -, -, rfl⟩ := exec_dmago_next hexec
      by_cases hcd : c = d
      · subst hcd
        exact congrArg Chan.status (chan_setChan_same ..)
      · exact (congrArg Chan.status (chan_setChan_other _ _ hcd)).trans hbefore
  · exact hbefore

/-- A host context changes the channels by an external controller reset only (R261). -/
theorem hostStep_chans (s : State) (i : Nat) :
    (s.hostStep i).chans = s.chans ∨
      ∃ h, s.hosts[i]? = some h ∧ h.job = .idle ∧ h.ops.head? = some .resetController := by
  rcases hostStep_cases s i with heq | ⟨h, hh, -, ⟨j, -, heq⟩ | ⟨j, -, heq⟩ | ⟨op, ops, hj, hops, heq⟩⟩ <;> rw [heq]
  · exact .inl rfl
  · exact .inl (emitStep_frame s i j).1.chans
  · exact .inl (submitStep_frame s i j).1.chans
  · by_cases hop : op = .resetController
    · exact .inr ⟨h, hh, hj, by rw [hops, hop]; rfl⟩
    · exact .inl (startOp_frame _ i op hop).1.chans

/-- Settles O58, by the agent that makes the step. -/
theorem onlyEndStopsAChannel : Obligations.OnlyEndStopsAChannel := by
  intro s t c h hbefore hafter
  rw [step_eq_agentStep] at h
  cases hmover : s.mover with
  | host i =>
    rw [hmover] at h
    obtain rfl := Host.Outcome.next.inj h
    rcases hostStep_chans { s with sched := s.sched.tail } i with hchans | ⟨h, hh, hj, hop⟩
    · rw [State.chan, hchans] at hafter
      cases hbefore.symm.trans hafter
    · exact .inr ⟨i, h, rfl, hh, hj, hop⟩
  | thread th =>
    rw [hmover] at h
    cases th with
    | manager => cases (managerStep_keeps_executing h hbefore).symm.trans hafter
    | channel d =>
      obtain ⟨rfl, hend, hfifo, hchan⟩ := channelStep_stops h hbefore hafter
      rw [State.RunEnded, hchan]
      exact .inl ⟨rfl, hend, hfifo, rfl, rfl, rfl⟩

/-! ## How a flight ends -/

theorem awaited_iff {s : State} {chan : Nat} :
    s.awaited chan = true ↔ ∃ f ∈ s.flights, f.chan = chan ∧ f.abandoned = false := by
  simp [State.awaited]

theorem ended_iff {s : State} {c : Fin 8} : s.ended c.val = true ↔ s.RunEnded c ∧ s.starting c.val = false := by
  simp [State.ended, State.RunEnded, Chan.runEnded]

/-- The observation of an end takes the flights of the channel that are not abandoned (R195, R264). -/
theorem observe_of_ended {s : State} {chan : Nat} (i : Nat) (hawaited : s.awaited chan = true)
    (hended : s.ended chan = true) :
    s.observe i chan =
      ({ s with flights := s.flights.filter fun f => !(f.chan == chan && !f.abandoned) } : State).finish i (.ok 1) :=
  if_pos (by simp [hawaited, hended])

theorem observe_of_not_ended {s : State} {chan : Nat} (i : Nat) (hended : s.ended chan = false) :
    s.observe i chan = s.finish i (.ok 0) :=
  if_neg (by simp [hended])

theorem statusAfterReset_ne_executing (st : Status) : statusAfterReset st ≠ .executing := by
  cases st <;> nofun

/-- Settles O30, one clause per operation. -/
theorem flightsEnd : Obligations.FlightsEnd := by
  intro s i c
  refine ⟨fun h hawaited hended hstarting => ?_, fun h hrunning => ?_, fun h => ?_, fun h f => ?_⟩ <;>
    obtain ⟨ops, hstep⟩ := hostStep_of_aboutTo h <;> rw [hstep]
  · have hobserve := observe_of_ended (s := s.modifyHost i fun h => { h with ops := ops, result := none }) i
      (awaited_iff.2 hawaited) (ended_iff.2 ⟨hended, hstarting⟩)
    rw [State.startOp, hobserve]
    exact ⟨returned_finish _ (by simpa using aboutTo_lt_length h), fun f => by simp [imp_iff_not_or]⟩
  · have hnot : (s.modifyHost i fun h => { h with ops := ops, result := none }).ended c.val = false :=
      Bool.eq_false_iff.2 fun hended => hrunning (ended_iff.1 hended).1
    rw [State.startOp, observe_of_not_ended i hnot]
    exact ⟨returned_finish _ (by simpa using aboutTo_lt_length h), rfl⟩
  · rw [State.startOp, chan_finish, chan_controllerReset]
    exact ⟨rfl, statusAfterReset_ne_executing _, rfl, rfl, rfl, rfl, rfl, rfl, rfl⟩
  · rw [State.startOp, flights_finish, List.mem_filter, Bool.not_eq_true']
    rfl

end Sys2Proof.Machine

/-! PROOFS. Faults: no step clears one or gives it another reason. -/
namespace Sys2Proof.Machine

/-! ## What keeps the faults -/

/-- From `s` to `t` every Faulted agent stays Faulted for its reason (R245), and the parameters stay (R9). -/
structure FaultsKept (s t : State) : Prop where
  params : t.params = s.params
  manager : ∀ r, s.mgrFault = some r → t.mgrFault = some r
  channel : ∀ c r, (s.chan c).status = .faulted r → (t.chan c).status = .faulted r
  host : ∀ (k : Nat) (r : Fault), (s.hosts[k]?).bind HostCtx.fault = some r → (t.hosts[k]?).bind HostCtx.fault = some r

namespace FaultsKept

variable {s t u : State}

theorem faultedFor (h : FaultsKept s t) : ∀ a r, s.FaultedFor a r → t.FaultedFor a r
  | .host k => h.host k
  | .thread .manager => h.manager
  | .thread (.channel c) => h.channel c

/-- A change of other fields than these four. -/
theorem of_eq (hparams : t.params = s.params) (hmgr : t.mgrFault = s.mgrFault) (hchans : t.chans = s.chans)
    (hhosts : t.hosts = s.hosts) : FaultsKept s t := by
  refine ⟨hparams, fun r hr => hmgr ▸ hr, fun c r hr => ?_, fun k r hr => hhosts ▸ hr⟩
  rw [State.chan, hchans]
  exact hr

theorem trans (h : FaultsKept s t) (h' : FaultsKept t u) : FaultsKept s u :=
  ⟨h'.params.trans h.params, fun r => h'.manager r ∘ h.manager r, fun c r => h'.channel c r ∘ h.channel c r,
    fun k r => h'.host k r ∘ h.host k r⟩

/-- A change of channel `c` alone, which was not Faulted. -/
theorem of_chan {c : Fin 8} (hc : ∀ r, (s.chan c).status ≠ .faulted r) (hother : ∀ d, d ≠ c → t.chan d = s.chan d)
    (hparams : t.params = s.params) (hmgr : t.mgrFault = s.mgrFault) (hhosts : t.hosts = s.hosts) : FaultsKept s t := by
  refine ⟨hparams, fun r hr => hmgr ▸ hr, fun d r hr => ?_, fun k r hr => hhosts ▸ hr⟩
  have hd : d ≠ c := fun hd => hc r (hd ▸ hr)
  rw [hother d hd, hr]

/-- A change of the manager's fault alone, which it did not have. -/
theorem of_manager (hnone : s.mgrFault = none) (hparams : t.params = s.params) (hchans : t.chans = s.chans)
    (hhosts : t.hosts = s.hosts) : FaultsKept s t := by
  refine ⟨hparams, fun r hr => ?_, fun c r hr => ?_, fun k r hr => hhosts ▸ hr⟩
  · cases hnone.symm.trans hr
  · rw [State.chan, hchans]
    exact hr

/-- A change that leaves the other contexts, the channels and the manager, made by a context that was not Faulted. -/
theorem of_hostFrame {i : Nat} {h : HostCtx} (hframe : HostFrame i s t) (hh : s.hosts[i]? = some h)
    (hnone : h.fault = none) : FaultsKept s t := by
  refine ⟨hframe.params, fun r hr => hframe.mgrFault ▸ hr, fun c r hr => ?_, fun k r hr => ?_⟩
  · rw [State.chan, hframe.chans]
    exact hr
  · obtain ⟨f, hf⟩ := hframe.hosts
    have hk : k ≠ i := by
      rintro rfl
      rw [hh] at hr
      cases hnone.symm.trans hr
    rw [hf, List.getElem?_modify_ne _ _ hk.symm]
    exact hr

end FaultsKept

/-! ## The agents -/

/-- A Faulted channel runs nothing (R245), so one that runs an injected instruction is not Faulted. -/
theorem status_of_debugFor {s : State} {c : Fin 8} (h : s.debugFor c = true) (r : Fault) :
    (s.chan c).status ≠ .faulted r := by
  intro hr
  simp [State.debugFor, Chan.isFaulted, hr] at h

theorem Completes.faultsKept {i : Instr} {s t : State} {c : Fin 8} (h : Completes s c i t)
    (hc : ∀ r, (s.chan c).status ≠ .faulted r) : FaultsKept s t := by
  obtain ⟨mem, stored, irq, n, ch, rfl⟩ := h.exists_eq
  exact .of_chan hc (fun d hd => chan_setChan_other _ ch hd) rfl rfl rfl

theorem channelStep_faultsKept {s t : State} {c : Fin 8} (h : s.channelStep c = .next t) : FaultsKept s t := by
  have hrunning : (s.debugFor c = true ∨ (s.chan c).status = .executing) → ∀ r, (s.chan c).status ≠ .faulted r := by
    rintro (hdebug | hrun) r
    · exact status_of_debugFor hdebug r
    · simp [hrun]
  have hcur : FaultsKept s { s with cur := .channel c } := .of_eq rfl rfl rfl rfl
  rcases channelStep_next h with ⟨-, -, rfl⟩ | ⟨-, hrun, i, -, hexec⟩ | ⟨hdebug, i, u, -, hexec, rfl⟩ | ⟨hwhy, r, rfl⟩
  · exact .of_eq rfl rfl rfl rfl
  · exact hcur.trans ((completes_of_exec rfl hexec).faultsKept (hrunning (.inr hrun)))
  · have hu := hcur.trans ((completes_of_exec rfl hexec).faultsKept (hrunning (.inl hdebug)))
    exact hu.trans (.of_eq rfl rfl rfl rfl)
  · exact .of_chan (hrunning hwhy) (fun d hd => chan_setChan_other _ _ hd) rfl rfl rfl

/-- The manager starts a Stopped channel, or takes its first fault. -/
theorem managerStep_faultsKept {s t : State} (h : s.managerStep = .next t) : FaultsKept s t := by
  rcases managerStep_next h with rfl | ⟨-, hnone, ⟨-, i, u, -, hexec, rfl⟩ | ⟨th, r, rfl⟩⟩
  · exact .of_eq rfl rfl rfl rfl
  · obtain ⟨d, hd⟩ | ⟨-, ns, chan, addr, rfl⟩ := exec_next_cur hexec
    · cases hd
    · obtain ⟨-, c, -, -, hstopped, rfl⟩ := exec_dmago_next hexec
      have hc (r : Fault) : (s.chan c).status ≠ .faulted r := fun hr => by cases hstopped.symm.trans hr
      exact .of_chan hc (fun d hd => chan_setChan_other _ _ hd) rfl rfl rfl
  · exact .of_manager hnone rfl rfl rfl

/-- An external reset stops a channel that is executing, and leaves a Faulted one and the manager (R245, R261). -/
theorem controllerReset_faultsKept (s : State) : FaultsKept s s.controllerReset := by
  refine ⟨rfl, fun _ => id, fun c r hr => ?_, fun _ _ => id⟩
  rw [chan_controllerReset, chanAfterReset, hr]
  rfl

theorem hostStep_faultsKept (s : State) (i : Nat) : FaultsKept s (s.hostStep i) := by
  rcases hostStep_cases s i with heq | ⟨h, hh, hnone, ⟨j, -, heq⟩ | ⟨j, -, heq⟩ | ⟨op, ops, -, -, heq⟩⟩ <;> rw [heq]
  · exact .of_eq rfl rfl rfl rfl
  · exact .of_hostFrame (emitStep_frame s i j).1 hh hnone
  · exact .of_hostFrame (submitStep_frame s i j).1 hh hnone
  · by_cases hop : op = .resetController
    · subst hop
      exact (controllerReset_faultsKept s).trans
        (.of_hostFrame ((HostFrame.modifyHost i s.controllerReset _).trans (.finish i _ (.ok 0))) hh hnone)
    · exact .of_hostFrame ((HostFrame.modifyHost i s _).trans (startOp_frame _ i op hop).1) hh hnone

theorem agentStep_faultsKept {s t : State} {a : Agent} (h : s.agentStep a = .next t) : FaultsKept s t := by
  cases a with
  | host i => exact Host.Outcome.next.inj h ▸ hostStep_faultsKept s i
  | thread th =>
    cases th with
    | manager => exact managerStep_faultsKept h
    | channel c => exact channelStep_faultsKept h

/-- Settles O56, by the agent that makes the step. -/
theorem faultsAreNeverCleared : Obligations.FaultsAreNeverCleared := by
  intro s t h
  rw [step_eq_agentStep] at h
  have hsched : FaultsKept s { s with sched := s.sched.tail } := .of_eq rfl rfl rfl rfl
  have hkept := hsched.trans (agentStep_faultsKept h)
  exact ⟨hkept.faultedFor, hkept.params⟩

end Sys2Proof.Machine

/-! PROOFS. The first failing check is the one reported: the encode operations, and Compile. -/
namespace Sys2Proof.Machine

/-! ## A check that others follow -/

section
variable {α : Type} {P : Prop} [Decidable P] {sub : InvalidSub} {f : Unit → Except Err α}

theorem check_bind_of_holds (h : P) : (check (decide P) sub >>= f) = f () := by
  simp [check, h]

theorem check_bind_of_fails (h : ¬ P) : (check (decide P) sub >>= f) = .error (.invalidField sub) := by
  simp [check, h]

end

/-! ## The encode operations -/

/-- Settles O8: the checks before the failing one are passed over, those behind it are not reached. -/
theorem encodeErrorsInCheckOrder : Obligations.EncodeErrorsInCheckOrder := by
  intro o
  refine ⟨fun lc count hlc => ?_, fun lc count hlc hcount => ?_, fun lc mode cond bjump hlc => ?_,
    fun lc mode cond bjump hlc hmode => ?_, fun lc cond bjump hlc hcond => ?_, fun lc cond bjump hlc hcond hbjump => ?_,
    fun ns chan addr hchan => ?_, fun ns chan addr hchan hns => ?_⟩
  · exact check_bind_of_fails (Nat.not_le.2 hlc)
  · exact (check_bind_of_holds hlc).trans (check_bind_of_fails (by omega))
  · exact check_bind_of_fails (Nat.not_le.2 hlc)
  · exact (check_bind_of_holds hlc).trans (check_bind_of_fails hmode)
  · exact (check_bind_of_holds hlc).trans <| (check_bind_of_holds rfl).trans (check_bind_of_fails (Nat.not_le.2 hcond))
  · exact (check_bind_of_holds hlc).trans <| (check_bind_of_holds rfl).trans <|
      (check_bind_of_holds hcond).trans (check_bind_of_fails (by omega))
  · exact check_bind_of_fails (Nat.not_le.2 hchan)
  · exact (check_bind_of_holds hchan).trans (check_bind_of_fails (Nat.not_le.2 hns))

/-! ## The checks of one side, each where it is the first to fail -/

section
variable {p : Params} {subs : SideSubs} {sh : Shape}

theorem checkSide_error_of_not_pow2 (hpow : ¬ ∃ k, sh.burstSize = 2 ^ k) :
    checkSide p subs sh = .error (.invalidField subs.bsizePow2) := by
  simp [checkSide, check, isPow2_iff, hpow]

theorem checkSide_error_of_large_bsize (hpow : ∃ k, sh.burstSize = 2 ^ k) (hmax : p.maxBurstSize < sh.burstSize) :
    checkSide p subs sh = .error (.invalidField subs.bsizeMax) := by
  simp [checkSide, check, isPow2_iff.2 hpow, Nat.not_le.2 hmax]

variable (hpow : ∃ k, sh.burstSize = 2 ^ k) (hmax : sh.burstSize ≤ p.maxBurstSize)
include hpow hmax

theorem checkSide_error_of_blen_zero (hzero : sh.burstLen = 0) :
    checkSide p subs sh = .error (.invalidField subs.blenZero) := by
  simp [checkSide, check, isPow2_iff.2 hpow, hmax, hzero]

variable (hpos : 0 < sh.burstLen)
include hpos

theorem checkSide_error_of_large_blen (hlen : p.maxBurstLen < sh.burstLen) :
    checkSide p subs sh = .error (.invalidField subs.blenMax) := by
  simp [checkSide, check, isPow2_iff.2 hpow, hmax, hpos.ne', Nat.not_le.2 hlen]

variable (hlen : sh.burstLen ≤ p.maxBurstLen)
include hlen

theorem checkSide_error_of_prot (hprot : 7 < sh.prot) :
    checkSide p subs sh = .error (.invalidField subs.prot) := by
  simp [checkSide, check, isPow2_iff.2 hpow, hmax, hpos.ne', hlen, Nat.not_le.2 hprot]

theorem checkSide_error_of_cache (hprot : sh.prot ≤ 7) (hcache : 7 < sh.cache) :
    checkSide p subs sh = .error (.invalidField subs.cache) := by
  simp [checkSide, check, isPow2_iff.2 hpow, hmax, hpos.ne', hlen, hprot, Nat.not_le.2 hcache]

end

/-! ## The checks of the engine -/

theorem checkDecompose_error_of_kind {cfg : TransferConfig} (hkind : cfg.kind ≠ .memToMem) :
    checkDecompose cfg = .error .unsupportedTransferKind :=
  if_pos hkind

theorem remainder_of_pos {a b : Nat} (h : 0 < b) : remainder a b = a % b := if_neg h.ne'

theorem checkDecompose_error_of_size {cfg : TransferConfig} (hkind : cfg.kind = .memToMem) (hpos : 0 < cfg.srcShape.bpb)
    (hsize : cfg.size.toNat % cfg.srcShape.bpb ≠ 0) : checkDecompose cfg = .error (.alignmentError .size) := by
  rw [checkDecompose, if_neg (not_not.2 hkind), remainder_of_pos hpos, if_pos hsize]

theorem checkDecompose_error_of_shape {cfg : TransferConfig} (hkind : cfg.kind = .memToMem) (hpos : 0 < cfg.srcShape.bpb)
    (hsize : cfg.size.toNat % cfg.srcShape.bpb = 0) (hshape : cfg.dstShape.bpb ≠ cfg.srcShape.bpb) :
    checkDecompose cfg = .error (.alignmentError .shape) := by
  rw [checkDecompose, if_neg (not_not.2 hkind), remainder_of_pos hpos, if_neg (not_not.2 hsize), if_pos hshape]

/-! ## Compile's checks: the source side, the destination side, the engine -/

section
variable {p : Params} {cfg : TransferConfig} {e : Err}

theorem compileChecks_error_of_src (h : checkSide p srcSubs cfg.srcShape = .error e) :
    compileChecks p cfg = .error e := by
  simp [compileChecks, buildCcr, h]

theorem compileChecks_error_of_dst (hsrc : cfg.srcShape.Legal p) (h : checkSide p dstSubs cfg.dstShape = .error e) :
    compileChecks p cfg = .error e := by
  simp [compileChecks, buildCcr, checkSide_eq_ok_iff.2 hsrc, h]

theorem compileChecks_error_of_engine (hsrc : cfg.srcShape.Legal p) (hdst : cfg.dstShape.Legal p)
    (h : checkDecompose cfg = .error e) : compileChecks p cfg = .error e := by
  simp [compileChecks, buildCcr_eq_ok_iff.2 ⟨⟨hsrc, hdst⟩, rfl⟩, h]

end

/-- Settles O15: the three parts of Compile's checks one after another, each with its own first failing check. -/
theorem compileReportsTheFirstFailingCheck : Obligations.CompileReportsTheFirstFailingCheck := by
  intro p cfg
  dsimp only
  refine ⟨fun hpow => compileChecks_error_of_src (checkSide_error_of_not_pow2 hpow),
    fun hpow hmax => compileChecks_error_of_src (checkSide_error_of_large_bsize hpow hmax),
    fun hpow hmax hzero => compileChecks_error_of_src (checkSide_error_of_blen_zero hpow hmax hzero),
    fun hpow hmax hpos hlen => compileChecks_error_of_src (checkSide_error_of_large_blen hpow hmax hpos hlen),
    fun hpow hmax hpos hlen hprot => compileChecks_error_of_src (checkSide_error_of_prot hpow hmax hpos hlen hprot),
    fun hpow hmax hpos hlen hprot hcache =>
      compileChecks_error_of_src (checkSide_error_of_cache hpow hmax hpos hlen hprot hcache),
    fun hsrc => ⟨fun hpow => compileChecks_error_of_dst hsrc (checkSide_error_of_not_pow2 hpow),
      fun hpow hmax => compileChecks_error_of_dst hsrc (checkSide_error_of_large_bsize hpow hmax),
      fun hpow hmax hzero => compileChecks_error_of_dst hsrc (checkSide_error_of_blen_zero hpow hmax hzero),
      fun hpow hmax hpos hlen => compileChecks_error_of_dst hsrc (checkSide_error_of_large_blen hpow hmax hpos hlen),
      fun hpow hmax hpos hlen hprot =>
        compileChecks_error_of_dst hsrc (checkSide_error_of_prot hpow hmax hpos hlen hprot),
      fun hpow hmax hpos hlen hprot hcache =>
        compileChecks_error_of_dst hsrc (checkSide_error_of_cache hpow hmax hpos hlen hprot hcache),
      fun hdst => ⟨fun hkind => ?_, fun hkind hsize => ?_, fun hkind hsize hshape => ?_⟩⟩, rfl, rfl⟩ <;>
    apply compileChecks_error_of_engine hsrc hdst
  · exact checkDecompose_error_of_kind hkind
  · exact checkDecompose_error_of_size hkind hsrc.bpb_pos hsize
  · exact checkDecompose_error_of_shape hkind hsrc.bpb_pos hsize hshape

end Sys2Proof.Machine

/-! PROOFS. Where DMAGO and the qualified loop-ends stop. -/
namespace Sys2Proof.Machine

/-- The conditions of R246 under which the controller does not accept a DMAGO. -/
theorem go_error {s : State} {ns : Bool} {chan : Nat} (addr : Word)
    (h : (∀ c : Fin 8, c.val = chan → (s.chan c).status ≠ .stopped) ∨ s.params.nChannels ≤ chan ∨
      (s.params.refuseSecureGo = true ∧ ns = false)) :
    s.go ns chan addr = .error .controllerFault := by
  unfold State.go
  split
  · next hlt =>
    rw [if_neg]
    rintro ⟨hpresent, hstopped, hsecure⟩
    rcases h with hrunning | habsent | ⟨hrefuse, rfl⟩
    · exact hrunning ⟨chan, hlt⟩ rfl hstopped
    · exact absurd hpresent (Nat.not_lt.2 habsent)
    · exact Bool.false_ne_true (hsecure hrefuse)
  · rfl

/-- Settles O41: DMAGO looks at the thread first, then at the channel; the qualified loop-ends look at nothing. -/
theorem goAndQualifiersStop : Obligations.GoAndQualifiersStop := by
  intro s ns chan addr lc bjump
  refine ⟨fun hcur h => ?_, fun c hcur => ?_, rfl, rfl⟩
  · simp only [exec, execDmago, hcur, go_error addr h]
  · simp only [exec, execDmago, hcur]

end Sys2Proof.Machine

/-! PROOFS. Typed errors: what the step that returns one has done. -/
namespace Sys2Proof.Machine

/-! ## What an operation returns -/

/-- An operation that finishes returns the result it finishes with, and nothing else. -/
theorem eq_of_returned_finish {s : State} {i : Nat} {r r' : OpResult} (h : (s.finish i r).returned i = some r') :
    r = r' := by
  obtain ⟨_, hctx, hresult⟩ := Option.bind_eq_some_iff.1 h
  rw [State.finish, host_modifyHost_same] at hctx
  obtain ⟨_, -, rfl⟩ := Option.map_eq_some_iff.1 hctx
  exact Option.some.inj hresult

theorem returned_of_hosts {s t : State} (h : t.hosts = s.hosts) (i : Nat) : t.returned i = s.returned i := by
  rw [State.returned, h, State.returned]

/-- A change of a context's other fields leaves what it returned. -/
theorem returned_modifyHost {s : State} {i : Nat} {f : HostCtx → HostCtx} (hf : ∀ h, (f h).result = h.result) :
    (s.modifyHost i f).returned i = s.returned i := by
  rw [State.returned, host_modifyHost_same, State.returned]
  cases s.hosts[i]? with
  | none => rfl
  | some h => exact hf h

/-- Where an operation starts, the last result is gone. -/
theorem returned_begin (s : State) (i : Nat) (ops : List HostOp) :
    (s.modifyHost i fun h => { h with ops := ops, result := none }).returned i = none := by
  rw [State.returned, host_modifyHost_same]
  cases s.hosts[i]? <;> rfl

/-! ## No check answers DeviceBusy -/

theorem except_bind_eq_error {ε α β : Type} {x : Except ε α} {f : α → Except ε β} {e : ε} :
    (x >>= f) = .error e ↔ x = .error e ∨ ∃ a, x = .ok a ∧ f a = .error e := by
  cases x <;> simp

theorem check_ne_deviceBusy (b : Bool) (sub : InvalidSub) : check b sub ≠ .error .deviceBusy := by
  cases b <;> simp [check]

/-- A check does not bring in a DeviceBusy. -/
theorem check_bind_ne_deviceBusy {α : Type} {b : Bool} {sub : InvalidSub} {f : Unit → Except Err α}
    (h : f () ≠ .error .deviceBusy) : (check b sub >>= f) ≠ .error .deviceBusy := by
  cases b with
  | true => exact h
  | false => simp [check]

theorem encBytes_ne_deviceBusy (o : Opc) (c : EncCall) : encBytes o c ≠ .error .deviceBusy := by
  cases c with
  | mov rd imm => exact check_bind_ne_deviceBusy nofun
  | lp lc count => exact check_bind_ne_deviceBusy (check_bind_ne_deviceBusy nofun)
  | lpend lc mode cond bjump =>
    exact check_bind_ne_deviceBusy <| check_bind_ne_deviceBusy <| check_bind_ne_deviceBusy <|
      check_bind_ne_deviceBusy nofun
  | go ns chan addr => exact check_bind_ne_deviceBusy (check_bind_ne_deviceBusy nofun)
  | sev event => exact check_bind_ne_deviceBusy nofun
  | ld | st | rmb | wmb | fin => nofun

theorem checkSide_ne_deviceBusy (p : Params) (subs : SideSubs) (sh : Shape) :
    checkSide p subs sh ≠ .error .deviceBusy :=
  check_bind_ne_deviceBusy <| check_bind_ne_deviceBusy <| check_bind_ne_deviceBusy <| check_bind_ne_deviceBusy <|
    check_bind_ne_deviceBusy <| check_ne_deviceBusy _ _

theorem submitChecks_ne_deviceBusy (p : Params) (chan ns : Nat) : submitChecks p chan ns ≠ .error .deviceBusy :=
  check_bind_ne_deviceBusy (check_ne_deviceBusy _ _)

theorem buildCcr_ne_deviceBusy (p : Params) (cfg : TransferConfig) : buildCcr p cfg ≠ .error .deviceBusy := by
  simp [buildCcr, except_bind_eq_error, checkSide_ne_deviceBusy]

theorem checkDecompose_ne_deviceBusy (cfg : TransferConfig) : checkDecompose cfg ≠ .error .deviceBusy := by
  unfold checkDecompose
  split
  · nofun
  · split
    · nofun
    · split <;> nofun

theorem compileChecks_ne_deviceBusy (p : Params) (cfg : TransferConfig) : compileChecks p cfg ≠ .error .deviceBusy := by
  simp [compileChecks, except_bind_eq_error, buildCcr_ne_deviceBusy, checkDecompose_ne_deviceBusy]

/-! ## The start of an operation that returns a typed error -/

/-- From `s` to `t` context `i` has returned `e` and nothing else has changed; with DeviceBusy the one read of DBGSTATUS has
been made, which answered busy (R183, R235). -/
inductive Rejected (s : State) (i : Nat) : Err → State → Prop
  | checked {e : Err} (h : e ≠ .deviceBusy) : Rejected s i e (s.finish i (.err e))
  | busy (h : isBusy s.params.regs s.polledValue = true) : Rejected s i .deviceBusy (s.polled.finish i (.err .deviceBusy))

theorem rejected_of_error {α : Type} {s : State} {i : Nat} {e e' : Err} {x : Except Err α} (hx : x = .error e)
    (hbusy : x ≠ .error .deviceBusy) (h : (s.finish i (.err e)).returned i = some (.err e')) :
    Rejected s i e' (s.finish i (.err e)) := by
  obtain rfl : e = e' := OpResult.err.inj (eq_of_returned_finish h)
  exact .checked fun he => hbusy (he ▸ hx)

theorem returned_finish_ok_ne_err {s : State} {i v : Nat} {e : Err} :
    (s.finish i (.ok v)).returned i ≠ some (.err e) :=
  fun h => nomatch eq_of_returned_finish h

/-- A fault, or the first step of an operation that goes on, returns nothing. -/
theorem returned_modifyHost_ne_err {s t : State} {i : Nat} {f : HostCtx → HostCtx} {e : Err} (hstart : s.returned i = none)
    (ht : t.hosts = s.hosts) (hf : ∀ h, (f h).result = h.result) : (t.modifyHost i f).returned i ≠ some (.err e) := by
  rw [returned_modifyHost hf, returned_of_hosts ht, hstart]
  nofun

theorem submitChecks_eq_ok {p : Params} {chan ns : Nat} (h : submitChecks p chan ns = .ok ()) :
    chan < p.nChannels ∧ ns ≤ 1 := by
  simpa [submitChecks] using h

theorem rejected_of_startSubmit {s : State} {i chan ns : Nat} {addr : Word} {e : Err} (hstart : s.returned i = none)
    (h : (s.startOp i (.submit chan addr ns)).returned i = some (.err e)) :
    Rejected s i e (s.startOp i (.submit chan addr ns)) := by
  cases hchecks : submitChecks s.params chan ns with
  | error e' =>
    have hop : s.startOp i (.submit chan addr ns) = s.finish i (.err e') := by
      simp only [State.startOp, State.startSubmit, hchecks]
    rw [hop] at h ⊢
    exact rejected_of_error hchecks (submitChecks_ne_deviceBusy _ _ _) h
  | ok u =>
    obtain ⟨hchan, hns⟩ := submitChecks_eq_ok hchecks
    cases hpath : s.pathTaken i with
    | true =>
      have hop : s.startOp i (.submit chan addr ns) = s.raiseFault (.host i) .concurrentSubmission := by
        simp only [State.startOp, State.startSubmit, hchecks, hpath, if_true]
      rw [hop] at h
      exact absurd h (returned_modifyHost_ne_err hstart rfl fun _ => rfl)
    | false =>
      rw [startOp_submit hchan hns hpath] at h ⊢
      split at h
      · next hbusy =>
        rw [if_pos hbusy]
        obtain rfl := OpResult.err.inj (eq_of_returned_finish h)
        exact .busy hbusy
      · exact absurd h (returned_modifyHost_ne_err hstart (by rw [polled_frame]) fun _ => rfl)

theorem rejected_of_startOp {s : State} {i : Nat} {op : HostOp} {e : Err} (hstart : s.returned i = none)
    (h : (s.startOp i op).returned i = some (.err e)) : Rejected s i e (s.startOp i op) := by
  cases op with
  | encode buf o c =>
    rw [State.startOp, State.startEncode] at h ⊢
    split at h
    · next hx => exact rejected_of_error hx (encBytes_ne_deviceBusy _ _) h
    · exact absurd h (returned_modifyHost_ne_err hstart rfl fun _ => rfl)
  | buildCcr cfg =>
    rw [State.startOp] at h ⊢
    split at h
    · exact absurd h returned_finish_ok_ne_err
    · next hx => exact rejected_of_error hx (buildCcr_ne_deviceBusy _ _) h
  | decompose buf o cfg =>
    rw [State.startOp, State.startDecompose] at h ⊢
    split at h
    · next hx => exact rejected_of_error hx (checkDecompose_ne_deviceBusy _) h
    · exact absurd h (returned_modifyHost_ne_err hstart rfl fun _ => rfl)
  | compile buf cfg =>
    rw [State.startOp, State.startCompile] at h ⊢
    split at h
    · exact absurd h (returned_modifyHost_ne_err hstart rfl fun _ => rfl)
    · next hfree =>
      rw [if_neg hfree]
      split at h
      · next hx => exact rejected_of_error hx (compileChecks_ne_deviceBusy _ _) h
      · exact absurd h (returned_modifyHost_ne_err hstart rfl fun _ => rfl)
  | submit chan addr ns => exact rejected_of_startSubmit hstart h
  | allocate answer =>
    cases answer with
    | none =>
      obtain rfl := OpResult.err.inj (eq_of_returned_finish h)
      exact .checked nofun
    | some chan => exact absurd h returned_finish_ok_ne_err
  | hostRead a =>
    rw [State.startOp, State.readByte] at h
    split at h
    · exact absurd h (returned_modifyHost_ne_err hstart rfl fun _ => rfl)
    · exact absurd h returned_finish_ok_ne_err
  | observe chan =>
    rw [State.startOp, State.observe] at h
    split at h <;> exact absurd h returned_finish_ok_ne_err
  | hostWrite | writeInten | readInten =>
    simp only [State.startOp, State.writeByte, State.intenWrite, State.intenRead] at h
    split at h
    · exact absurd h returned_finish_ok_ne_err
    · exact absurd h (returned_modifyHost_ne_err hstart rfl fun _ => rfl)
  | makeVisible | clearIrq | resetController | quiesced => exact absurd h returned_finish_ok_ne_err

/-- Settles O11: of the operations that return a typed error only a busy Submit has done anything, and that is its read. -/
theorem typedErrorsWriteNothing : Obligations.TypedErrorsWriteNothing := by
  intro s i op e habout hret
  obtain ⟨ops, hstep⟩ := hostStep_of_aboutTo habout
  rw [hstep] at hret ⊢
  have hrejected := rejected_of_startOp (returned_begin s i ops) hret
  generalize (s.modifyHost i _).startOp i op = t at hrejected ⊢
  cases hrejected with
  | checked hne =>
    exact ⟨fun _ => rfl, fun _ => rfl, rfl, rfl, rfl, rfl, rfl, rfl, rfl, rfl, rfl, fun _ => rfl, fun he => absurd he hne⟩
  | busy hbusy =>
    rw [polledValue_modifyHost] at hbusy
    rw [polled_modifyHost, polled_frame]
    exact ⟨fun _ => rfl, fun _ => rfl, rfl, rfl, rfl, rfl, rfl, rfl, rfl, rfl, rfl, fun he => absurd rfl he,
      fun _ => ⟨s.polledValue, hbusy, rfl⟩⟩

end Sys2Proof.Machine

/-! PROOFS. The capacity of a buffer: where a buffer write stops, and what it leaves alone. -/
namespace Sys2Proof.Machine

/-- Bytes that all land lie inside the capacity. -/
theorem bufWrite_none_fits {s : State} {buf : Buffer} {o : Nat} {bs : List Byte} (hne : bs ≠ [])
    (h : (s.bufWrite buf o bs).2 = none) : o + bs.length ≤ buf.cap := by
  induction bs generalizing s o with
  | nil => exact absurd rfl hne
  | cons b bs ih =>
    rw [State.bufWrite] at h
    split at h
    · cases h
    · next hcap =>
      split at h
      · cases h
      · cases bs with
        | nil => exact Nat.lt_of_not_le hcap
        | cons b' bs =>
          have hrest := ih nofun h
          simp only [List.length_cons] at hrest ⊢
          omega

theorem bufWrite_past_capacity (s : State) {buf : Buffer} {o : Nat} (b : Byte) (rest : List Byte) (h : buf.cap ≤ o) :
    s.bufWrite buf o (b :: rest) = (s, some .bufferOverrun) := by
  rw [State.bufWrite, if_pos h]

/-- Settles O21: a byte that a buffer write changes lies inside the capacity, and so do bytes that all land. -/
theorem noByteLandsPastTheCapacity : Obligations.NoByteLandsPastTheCapacity := by
  intro s buf o bytes hwf
  refine ⟨fun a ha => ?_, fun hne hpast hnone => ?_, fun b rest hbytes hcap => ?_⟩
  · by_contra hchanged
    have hinside := (bufWrite_changes hwf hchanged).2.2
    omega
  · have hfits := bufWrite_none_fits hne hnone
    omega
  · rw [hbytes, bufWrite_past_capacity s b rest hcap]

end Sys2Proof.Machine

/-! PROOFS. Host steps that fault: accesses to a flight's ranges, interleaved submissions, triggers before visibility. -/
namespace Sys2Proof.Machine

/-! ## A step that does nothing but fault -/

/-- From `s` to `t`, host context `i` has become Faulted for `r`, and nothing but host contexts has changed (R245). -/
structure HostFaulted (s t : State) (i : Nat) (r : Fault) : Prop where
  faulted : t.FaultedFor (.host i) r
  frame : t = { s with hosts := t.hosts }

section
variable {s t : State} {i : Nat} {r : Fault}

theorem HostFaulted.mem (h : HostFaulted s t i r) : t.mem = s.mem := (congrArg State.mem h.frame :)
theorem HostFaulted.trace (h : HostFaulted s t i r) : t.trace = s.trace := (congrArg State.trace h.frame :)
theorem HostFaulted.dbgBusy (h : HostFaulted s t i r) : t.dbgBusy = s.dbgBusy := (congrArg State.dbgBusy h.frame :)
theorem HostFaulted.flights (h : HostFaulted s t i r) : t.flights = s.flights := (congrArg State.flights h.frame :)

theorem HostFaulted.of_raiseFault (r : Fault) (h : i < s.hosts.length) :
    HostFaulted s (s.raiseFault (.host i) r) i r :=
  ⟨by simp [State.FaultedFor, h], rfl⟩

/-- An operation whose start raises a fault. -/
theorem HostFaulted.of_startOp {op : HostOp} (h : s.aboutTo i op)
    (hstart : ∀ f, (s.modifyHost i f).startOp i op = (s.modifyHost i f).raiseFault (.host i) r) :
    HostFaulted s (s.hostStep i) i r := by
  obtain ⟨ops, hstep⟩ := hostStep_of_aboutTo h
  rw [hstep, hstart]
  have hfaulted := HostFaulted.of_raiseFault r (s := s.modifyHost i fun h => { h with ops := ops, result := none })
    (by simpa using aboutTo_lt_length h)
  exact ⟨hfaulted.faulted, rfl⟩

/-- A register write of a submission that raises a fault. -/
theorem HostFaulted.of_submitWrite {stage : List Byte} {j : SubmitJob} (hs : s.Submitting i stage j)
    (hwrite : s.submitWrite i j = .error r) : HostFaulted s (s.hostStep i) i r := by
  obtain ⟨⟨h, hctx, hfault, hjob, -⟩, halone⟩ := hs
  have hstep : s.hostStep i = s.raiseFault (.host i) r := by
    simp only [State.hostStep, hctx, hfault, hjob, State.submitStep, halone, hwrite]
    rfl
  exact hstep ▸ of_raiseFault r (List.getElem?_eq_some_iff.1 hctx).1

end

/-! ## What a flight bars -/

section
variable {s : State} {f : Flight} (hf : f ∈ s.flights)
include hf

/-- The program, the source and the destination of a flight are barred to host writes (R264). -/
theorem hostWriteBarred_of_flight {a : Nat}
    (ha : (f.prog.base ≤ a ∧ a < f.prog.base + f.prog.len) ∨
      ∃ r ∈ f.prog.src ++ f.prog.dst, r.base ≤ a ∧ a < r.base + r.size) : s.hostWriteBarred a = true := by
  refine List.any_eq_true.2 ⟨f, hf, ?_⟩
  rw [Bool.or_eq_true, Bool.or_eq_true]
  obtain hprog | ⟨r, hr, hin⟩ := ha
  · exact .inl (.inl (decide_eq_true hprog))
  · obtain hsrc | hdst := List.mem_append.1 hr
    · exact .inl (.inr (List.any_eq_true.2 ⟨r, hsrc, decide_eq_true hin⟩))
    · exact .inr (List.any_eq_true.2 ⟨r, hdst, decide_eq_true hin⟩)

/-- The destination of a flight is barred to host reads (R264). -/
theorem hostReadBarred_of_flight {a : Nat} (ha : ∃ r ∈ f.prog.dst, r.base ≤ a ∧ a < r.base + r.size) :
    s.hostReadBarred a = true := by
  obtain ⟨r, hr, ha⟩ := ha
  exact List.any_eq_true.2 ⟨f, hf, List.any_eq_true.2 ⟨r, hr, decide_eq_true ha⟩⟩

/-- A buffer whose capacity range has an address in common with a flight's program (R264; log 32). -/
theorem bufferInFlight_of_flight {buf : Buffer}
    (ha : ∃ a, f.prog.base ≤ a ∧ a < f.prog.base + f.prog.len ∧ buf.base ≤ a ∧ a < buf.base + buf.cap) :
    s.bufferInFlight buf = true := by
  obtain ⟨a, ha⟩ := ha
  exact List.any_eq_true.2 ⟨f, hf, decide_eq_true (by simp only [Program.range]; omega)⟩

end

/-! ## What is barred faults -/

theorem startOp_hostWrite_barred {s : State} (i : Nat) {a : Word} (v : Byte) (h : s.hostWriteBarred a.toNat = true) :
    s.startOp i (.hostWrite a v) = s.raiseFault (.host i) .programMutatedInFlight := by
  simp only [State.startOp, State.writeByte, State.hostStore, h, if_true]

theorem startOp_hostRead_barred {s : State} (i : Nat) {a : Word} (h : s.hostReadBarred a.toNat = true) :
    s.startOp i (.hostRead a) = s.raiseFault (.host i) .programMutatedInFlight := by
  simp only [State.startOp, State.readByte, h, if_true]

theorem startOp_compile_inFlight {s : State} (i : Nat) {buf : Buffer} (cfg : TransferConfig)
    (h : s.bufferInFlight buf = true) :
    s.startOp i (.compile buf cfg) = s.raiseFault (.host i) .programMutatedInFlight := by
  simp only [State.startOp, State.startCompile, h, if_true]

/-- A Compile under way does not write its next instruction (R264; log 32). -/
theorem emitStep_inFlight {s : State} (i : Nat) {j : EmitJob} (hcompiling : j.compiling = true) (htodo : j.todo ≠ [])
    (h : s.bufferInFlight j.buf = true) : s.emitStep i j = s.raiseFault (.host i) .programMutatedInFlight := by
  obtain ⟨item, items, htodo⟩ := List.exists_cons_of_ne_nil htodo
  simp only [State.emitStep, htodo, hcompiling, h, Bool.and_self, if_true]

/-- Settles O28: what a flight bars, and that each barred access does nothing but fault. -/
theorem noHostAccessInFlight : Obligations.NoHostAccessInFlight := by
  intro s i f hf
  refine ⟨fun a v habout ha => ?_, fun a habout ha => ?_, fun buf cfg habout ha => ?_,
    fun h j hctx hfault hjob hcompiling htodo ha => ?_⟩
  · have hstep := HostFaulted.of_startOp habout fun _ => startOp_hostWrite_barred i v (hostWriteBarred_of_flight hf ha)
    exact ⟨hstep.faulted, hstep.mem⟩
  · have hstep := HostFaulted.of_startOp habout fun _ => startOp_hostRead_barred i (hostReadBarred_of_flight hf ha)
    exact ⟨hstep.faulted, hstep.mem⟩
  · have hstep := HostFaulted.of_startOp habout fun _ => startOp_compile_inFlight i cfg (bufferInFlight_of_flight hf ha)
    exact ⟨hstep.faulted, hstep.mem⟩
  · have hemitting : s.emitting i j := ⟨h, hctx, hfault, hjob⟩
    rw [hostStep_of_emitting hemitting, emitStep_inFlight i hcompiling htodo (bufferInFlight_of_flight hf ha)]
    have hstep := HostFaulted.of_raiseFault .programMutatedInFlight (emitting_lt_length hemitting)
    exact ⟨hstep.faulted, hstep.mem⟩

/-! ## The register path -/

/-- Another context that stands inside its submission takes the register path (R268). -/
theorem pathTaken_of_submitting {s : State} {i k : Nat} {h : HostCtx} {j : SubmitJob} (hne : k ≠ i)
    (hctx : s.hosts[k]? = some h) (hjob : h.job = .submit j) : s.pathTaken i = true :=
  List.any_eq_true.2 ⟨k, List.mem_range.2 (List.getElem?_eq_some_iff.1 hctx).1, by
    simp [hne, hctx, HostCtx.onPath, hjob]⟩

theorem startOp_submit_interleaved {s : State} {i chan ns : Nat} (addr : Word) (hchan : chan < s.params.nChannels)
    (hns : ns ≤ 1) (h : s.pathTaken i = true) :
    s.startOp i (.submit chan addr ns) = s.raiseFault (.host i) .concurrentSubmission := by
  simp only [State.startOp, State.startSubmit, submitChecks_ok hchan hns, h, if_true]

/-- Settles O26: the register path is taken, so the Submit faults where it would poll. -/
theorem interleavedSubmissionsFault : Obligations.InterleavedSubmissionsFault := by
  intro s i k chan addr ns h j habout hchan hns hne hctx hjob
  have htaken := pathTaken_of_submitting hne hctx hjob
  have hstep := HostFaulted.of_startOp habout fun f => startOp_submit_interleaved addr (by exact hchan) hns
    ((pathTaken_modifyHost s i f).trans htaken)
  exact ⟨hstep.faulted, hstep.trace⟩

/-! ## The trigger -/

/-- A program with a byte that is not written, or written and not yet visible (R60, R265). -/
theorem allVisible_eq_false {s : State} {p : Program}
    (h : ∃ a, p.base ≤ a ∧ a < p.base + p.len ∧ (a ∈ s.dirty ∨ a ∉ s.stored)) : s.allVisible p = false := by
  obtain ⟨a, hlow, hhigh, ha⟩ := h
  obtain ⟨k, rfl⟩ := Nat.exists_eq_add_of_le hlow
  exact List.all_eq_false.2 ⟨k, List.mem_range.2 (by omega), by rw [decide_eq_true_eq]; tauto⟩

theorem submitWrite_cmd_hidden {s : State} (i : Nat) {j : SubmitJob} (hphase : j.phase = .cmd)
    (h : s.allVisible (s.programAt j.addr.toNat) = false) : s.submitWrite i j = .error .programNotVisible := by
  simp [State.submitWrite, hphase, h]

/-- Settles O27: the trigger write is refused before it is made. -/
theorem triggerBeforeVisibilityFaults : Obligations.TriggerBeforeVisibilityFaults := by
  intro s i h j hctx hfault hjob hphase halone hhidden
  have hs : s.Submitting i h.stage j := ⟨⟨h, hctx, hfault, hjob, rfl⟩, halone⟩
  have hstep := HostFaulted.of_submitWrite hs (submitWrite_cmd_hidden i hphase (allVisible_eq_false hhidden))
  exact ⟨hstep.faulted, hstep.trace, hstep.dbgBusy, hstep.flights⟩

end Sys2Proof.Machine
